-- ==== Sys2Proof/Word.lean ====
section
/-! DEFINITION. The word types of WTOSC (R7, R50, R82): 32-bit register, sample and bus words, bytes, and the
64-bit event word. Plain bit vectors; every slice of one is taken where its rule stands. -/

namespace Sys2Proof

/-- A 32-bit word: a host register, a binary32 pattern or one bus datum (R50, R88). -/
abbrev Word := BitVec 32

/-- One byte of the host address space (R53). -/
abbrev Byte := BitVec 8

/-- One event of the event RAM (R82). -/
abbrev EventWord := BitVec 64

end Sys2Proof
end

