-- ==== Sys2Proof/Syntax.lean ====
section
/-! DEFINITION. The instructions of WTOSC (R2): the three event types of format EV64 and the two host commands of
format CMD32, one constructor for each row of the opcode table. The fields the spec ignores are carried, so that an
instruction keeps every bit of its encoding (R80, R82, R85). -/

namespace Sys2Proof

inductive Instr where
  /-- `NOTE_ON` (R170): NOTE, VEL, bits [31:24], TS. -/
  | noteOn (note vel ignored : BitVec 8) (ts : Word)
  /-- `NOTE_OFF` (R171): NOTE, VEL, bits [31:24], TS. -/
  | noteOff (note vel ignored : BitVec 8) (ts : Word)
  /-- `ALL_NOTES_OFF` (R172): NOTE, VEL, bits [31:24], TS. -/
  | allNotesOff (note vel ignored : BitVec 8) (ts : Word)
  /-- `PREPARE` (R144): bits [31:8]. -/
  | prepare (ignored : BitVec 24)
  /-- `RENDER` (R160): bits [31:8]. -/
  | render (ignored : BitVec 24)
  deriving DecidableEq, Repr

/-- The two encoding formats (R80, R82). -/
inductive InstrFormat where
  /-- One 32-bit `CMD` write. -/
  | cmd32
  /-- One 64-bit event word. -/
  | ev64
  deriving DecidableEq, Repr

namespace Instr

/-- The format of an instruction. -/
def format : Instr → InstrFormat
  | .noteOn _ _ _ _ => .ev64
  | .noteOff _ _ _ _ => .ev64
  | .allNotesOff _ _ _ _ => .ev64
  | .prepare _ => .cmd32
  | .render _ => .cmd32

/-- The timestamp field `TS` of an event (R82); a command has none and answers 0. -/
def ts : Instr → Word
  | .noteOn _ _ _ t => t
  | .noteOff _ _ _ t => t
  | .allNotesOff _ _ _ t => t
  | .prepare _ => 0
  | .render _ => 0

end Instr

end Sys2Proof
end

