-- ==== Sys2Proof/WellFormed.lean ====
section
/-! DEFINITION. The well-formedness of an instruction by itself (R82): a NOTE_ON or NOTE_OFF names a note identity
0..127. An `ALL_NOTES_OFF` ignores its NOTE field (R85) and a command has no field that is checked (R80). Whether TS
lies in 0..BLEN and does not decrease depends on the block, so it is checked by the machine (R161). -/

namespace Sys2Proof

/-- NOTE lies in 0..127 (R82, R142). -/
def noteLegal (note : BitVec 8) : Bool := decide (note.toNat < 128)

/-- The check on an instruction's own fields. -/
def Instr.wellFormed : Instr → Bool
  | .noteOn note _ _ _ => noteLegal note
  | .noteOff note _ _ _ => noteLegal note
  | .allNotesOff _ _ _ _ => true
  | .prepare _ => true
  | .render _ => true

end Sys2Proof
end

