-- ==== Sys2Proof/Decode.lean ====
section
/-! DEFINITION. Decoding and encoding (30_encoding.md). A command is the 32-bit value of a `CMD` write (R80), an event
the 64-bit word of an event-RAM entry (R82), so the length of the bytes names the format (R87). Decoding is total and
rejects by name. -/

namespace Sys2Proof

/-- Why bytes are no instruction. -/
inductive DecodeError where
  /-- A `CMD` value whose `OP` is neither 0x01 nor 0x02 (R86 (1)). -/
  | illegalCommand (op : BitVec 8)
  /-- An event whose `TYPE` is none of 0x01, 0x02, 0x03 (R86 (2)). -/
  | illegalEvent (type : BitVec 8)
  /-- Neither 4 nor 8 bytes: no WTOSC encoding has that length (R87). -/
  | badLength (n : Nat)
  deriving DecidableEq, Repr

/-! ### Fields -/

/-- `OP = v[7:0]` (R80). -/
def cmdOp (v : Word) : BitVec 8 := v.extractLsb' 0 8

/-- `v[31:8]`, ignored (R80). -/
def cmdIgnored (v : Word) : BitVec 24 := v.extractLsb' 8 24

/-- `TYPE = E[7:0]` (R83). -/
def evType (e : EventWord) : BitVec 8 := e.extractLsb' 0 8

/-- `NOTE = E[15:8]` (R83). -/
def evNote (e : EventWord) : BitVec 8 := e.extractLsb' 8 8

/-- `VEL = E[23:16]` (R83). -/
def evVel (e : EventWord) : BitVec 8 := e.extractLsb' 16 8

/-- `E[31:24]`, ignored (R82). -/
def evIgnored (e : EventWord) : BitVec 8 := e.extractLsb' 24 8

/-- `TS = E[63:32]` (R83). -/
def evTs (e : EventWord) : Word := e.extractLsb' 32 32

/-! ### Decoding -/

/-- The command a `CMD` write of v gives (R80, R81). -/
def decodeCmd (v : Word) : Except DecodeError Instr :=
  if cmdOp v = 0x01#8 then .ok (.prepare (cmdIgnored v))
  else if cmdOp v = 0x02#8 then .ok (.render (cmdIgnored v))
  else .error (.illegalCommand (cmdOp v))

/-- The event an event word gives (R82, R84). -/
def decodeEvent (e : EventWord) : Except DecodeError Instr :=
  if evType e = 0x01#8 then .ok (.noteOn (evNote e) (evVel e) (evIgnored e) (evTs e))
  else if evType e = 0x02#8 then .ok (.noteOff (evNote e) (evVel e) (evIgnored e) (evTs e))
  else if evType e = 0x03#8 then .ok (.allNotesOff (evNote e) (evVel e) (evIgnored e) (evTs e))
  else .error (.illegalEvent (evType e))

/-- Four bytes as a word, the first at the lowest address (little-endian, R53). -/
def wordOfBytes (b0 b1 b2 b3 : Byte) : Word := b3 ++ b2 ++ b1 ++ b0

/-- An event word from its two RAM words: the low half lies lower (R59). -/
def eventOfWords (lo hi : Word) : EventWord := hi ++ lo

/-- Decoding of an instruction's bytes, lowest address first; every command is one 32-bit value and every event one
64-bit word (R87), so four bytes are a CMD32 and eight an EV64. -/
def decodeBytes : List Byte → Except DecodeError Instr
  | [b0, b1, b2, b3] => decodeCmd (wordOfBytes b0 b1 b2 b3)
  | [b0, b1, b2, b3, b4, b5, b6, b7] =>
    decodeEvent (eventOfWords (wordOfBytes b0 b1 b2 b3) (wordOfBytes b4 b5 b6 b7))
  | bytes => .error (.badLength bytes.length)

/-! ### Encoding -/

/-- A CMD32 word from its fields (R80). -/
def cmdWord (op : BitVec 8) (ignored : BitVec 24) : Word := ignored ++ op

/-- An EV64 word from its fields (R82). -/
def eventWord (type note vel ignored : BitVec 8) (ts : Word) : EventWord :=
  ts ++ (ignored ++ vel ++ note ++ type : Word)

/-- Byte j of a word (R53). -/
def byteOf (w : Word) (j : Nat) : Byte := w.extractLsb' (8 * j) 8

/-- The bytes of a word, lowest address first (R53). -/
def wordBytes (w : Word) : List Byte := [byteOf w 0, byteOf w 1, byteOf w 2, byteOf w 3]

/-- The low RAM word of an event word (R59). -/
def eventLow (e : EventWord) : Word := e.extractLsb' 0 32

/-- The high RAM word of an event word (R59). -/
def eventHigh (e : EventWord) : Word := e.extractLsb' 32 32

/-- The bytes of an event word: its low half first (R59). -/
def eventBytes (e : EventWord) : List Byte := wordBytes (eventLow e) ++ wordBytes (eventHigh e)

/-- The encoding of an instruction, as the bytes the hardware stores. -/
def encode : Instr → List Byte
  | .noteOn note vel ignored ts => eventBytes (eventWord 0x01#8 note vel ignored ts)
  | .noteOff note vel ignored ts => eventBytes (eventWord 0x02#8 note vel ignored ts)
  | .allNotesOff note vel ignored ts => eventBytes (eventWord 0x03#8 note vel ignored ts)
  | .prepare ignored => wordBytes (cmdWord 0x01#8 ignored)
  | .render ignored => wordBytes (cmdWord 0x02#8 ignored)

/-! ### The opcode table's numbering -/

/-- The answer of the decoder as an option. -/
def decoded (r : Except DecodeError Instr) : Option Instr :=
  match r with
  | .ok i => some i
  | .error _ => none

/-- The instruction read from bits w numbered as the opcode table numbers them, of nbits bits: up to 32 bits are one
CMD32 word; more, or 32 bits that are no command, are an EV64 word whose upper bits are zero. -/
def decodeTableWord (nbits w : Nat) : Option Instr :=
  let event := decoded (decodeBytes (eventBytes (BitVec.ofNat 64 w)))
  if nbits ≤ 32 then
    match decoded (decodeBytes (wordBytes (BitVec.ofNat 32 w))) with
    | some i => some i
    | none => event
  else event

end Sys2Proof
end

