-- ==== Sys2Proof/Machine/Format.lean ====
section
/-! DEFINITION. The binary32 format (R6, R9): the fields of a pattern, its classes, and the exact value of a finite
pattern. Every finite binary32 value is an integer multiple of 2^-149, so a value is held as an integer count of
that unit and nothing is rounded here. -/

namespace Sys2Proof.Machine

/-- The sign bit [31]. -/
def signBit (w : Word) : Bool := w.getLsbD 31

/-- The biased exponent field [30:23]. -/
def expField (w : Word) : Nat := (w.extractLsb' 23 8).toNat

/-- The fraction field [22:0]. -/
def fracField (w : Word) : Nat := (w.extractLsb' 0 23).toNat

/-- `isfinite(a)` of R9: neither infinite nor NaN. -/
def isFinite (w : Word) : Bool := expField w != 255

/-- A NaN pattern (IEEE 754 binary32). -/
def isNaN (w : Word) : Bool := expField w == 255 && fracField w != 0

/-- A positive or negative infinity. -/
def isInf (w : Word) : Bool := expField w == 255 && fracField w == 0

/-- A zero of either sign. -/
def isZero (w : Word) : Bool := expField w == 0 && fracField w == 0

/-- The magnitude of a pattern, as a count of the unit 2^-149. (An infinity's count is larger than every finite
pattern's, so comparing counts also orders the infinities.) -/
def units (w : Word) : Nat :=
  if expField w = 0 then fracField w else (2 ^ 23 + fracField w) * 2 ^ (expField w - 1)

/-- The signed value of a finite pattern, as a count of the unit 2^-149. -/
def value (w : Word) : Int := if signBit w then -(units w : Int) else (units w : Int)

/-- `+0.0` (R9). -/
def posZero : Word := 0x00000000#32

/-- `-0.0`. -/
def negZero : Word := 0x80000000#32

/-- `1.0` (R10). -/
def one32 : Word := 0x3F800000#32

/-- A finite pattern greater than zero, as R5 asks of every `FREQ` word. -/
def isPositiveFinite (w : Word) : Bool := isFinite w && !signBit w && !isZero w

end Sys2Proof.Machine
end

