-- ==== Sys2Proof/Config.lean ====
section
/-! DEFINITION. What an implementation of WTOSC fixes (R5) and what the spec leaves free (I3, I4).

`Config` is the parameter set of R5. It carries the proofs that its values are in R5's ranges, so "a configuration
outside the stated range is not a WTOSC" (R5, R110, I1) is said by the type: such a configuration cannot be built.
The opaque constants below have no body: no proof can see a value of theirs. -/

namespace Sys2Proof

open Machine

/-- The implementation parameters of R5. -/
structure Config where
  /-- `L`, the wavetable length in samples (R110). -/
  L : Nat
  /-- `MAX_CH`, the channels the buffer RAM holds. -/
  maxCh : Nat
  /-- `MAX_BLEN`, the frames per channel the buffer RAM holds. -/
  maxBlen : Nat
  /-- `MAX_EV`, the event words the event RAM holds. -/
  maxEv : Nat
  /-- `TABLE[0..L-1]`, the wavetable ROM (R34, R111). -/
  table : List Word
  /-- `FREQ[0..127]`, the note-frequency ROM (R35, R141). -/
  freq : List Word
  L_range : 2 ≤ L ∧ L ≤ 1024
  maxCh_range : 1 ≤ maxCh ∧ maxCh ≤ 255
  maxBlen_range : 1 ≤ maxBlen ∧ 4 * maxCh * maxBlen ≤ 0x00F00000
  maxEv_range : 1 ≤ maxEv ∧ maxEv ≤ 4096
  table_length : table.length = L
  table_finite : table.all isFinite = true
  freq_length : freq.length = 128
  freq_positive : freq.all isPositiveFinite = true
  deriving DecidableEq, Repr

namespace Config

/-- The default `TABLE` words of R111, entries 0 to 31. -/
def defaultTable0 : List Word := [
  0x00000000#32, 0x3DC8BD36#32, 0x3E47C5C2#32, 0x3E94A031#32, 0x3EC3EF15#32, 0x3EF15AEA#32, 0x3F0E39DA#32, 0x3F226799#32,
  0x3F3504F3#32, 0x3F45E403#32, 0x3F54DB31#32, 0x3F61C598#32, 0x3F6C835E#32, 0x3F74FA0B#32, 0x3F7B14BE#32, 0x3F7EC46D#32,
  0x3F800000#32, 0x3F7EC46D#32, 0x3F7B14BE#32, 0x3F74FA0B#32, 0x3F6C835E#32, 0x3F61C598#32, 0x3F54DB31#32, 0x3F45E403#32,
  0x3F3504F3#32, 0x3F226799#32, 0x3F0E39DA#32, 0x3EF15AEA#32, 0x3EC3EF15#32, 0x3E94A031#32, 0x3E47C5C2#32, 0x3DC8BD36#32]

/-- The default `TABLE` words of R111, entries 32 to 63. -/
def defaultTable1 : List Word := [
  0x00000000#32, 0xBDC8BD36#32, 0xBE47C5C2#32, 0xBE94A031#32, 0xBEC3EF15#32, 0xBEF15AEA#32, 0xBF0E39DA#32, 0xBF226799#32,
  0xBF3504F3#32, 0xBF45E403#32, 0xBF54DB31#32, 0xBF61C598#32, 0xBF6C835E#32, 0xBF74FA0B#32, 0xBF7B14BE#32, 0xBF7EC46D#32,
  0xBF800000#32, 0xBF7EC46D#32, 0xBF7B14BE#32, 0xBF74FA0B#32, 0xBF6C835E#32, 0xBF61C598#32, 0xBF54DB31#32, 0xBF45E403#32,
  0xBF3504F3#32, 0xBF226799#32, 0xBF0E39DA#32, 0xBEF15AEA#32, 0xBEC3EF15#32, 0xBE94A031#32, 0xBE47C5C2#32, 0xBDC8BD36#32]

/-- The default `FREQ` words of R141, entries 0 to 31. -/
def defaultFreq0 : List Word := [
  0x4102D013#32, 0x410A9760#32, 0x4112D517#32, 0x411B9041#32, 0x4124D054#32, 0x412E9D37#32, 0x4138FF49#32, 0x4143FF6A#32,
  0x414FA700#32, 0x415C0000#32, 0x416914F6#32, 0x4176F110#32, 0x4182D013#32, 0x418A9760#32, 0x4192D517#32, 0x419B9041#32,
  0x41A4D054#32, 0x41AE9D37#32, 0x41B8FF49#32, 0x41C3FF6A#32, 0x41CFA700#32, 0x41DC0000#32, 0x41E914F6#32, 0x41F6F110#32,
  0x4202D013#32, 0x420A9760#32, 0x4212D517#32, 0x421B9041#32, 0x4224D054#32, 0x422E9D37#32, 0x4238FF49#32, 0x4243FF6A#32]

/-- The default `FREQ` words of R141, entries 32 to 63. -/
def defaultFreq1 : List Word := [
  0x424FA700#32, 0x425C0000#32, 0x426914F6#32, 0x4276F110#32, 0x4282D013#32, 0x428A9760#32, 0x4292D517#32, 0x429B9041#32,
  0x42A4D054#32, 0x42AE9D37#32, 0x42B8FF49#32, 0x42C3FF6A#32, 0x42CFA700#32, 0x42DC0000#32, 0x42E914F6#32, 0x42F6F110#32,
  0x4302D013#32, 0x430A9760#32, 0x4312D517#32, 0x431B9041#32, 0x4324D054#32, 0x432E9D37#32, 0x4338FF49#32, 0x4343FF6A#32,
  0x434FA700#32, 0x435C0000#32, 0x436914F6#32, 0x4376F110#32, 0x4382D013#32, 0x438A9760#32, 0x4392D517#32, 0x439B9041#32]

/-- The default `FREQ` words of R141, entries 64 to 95. -/
def defaultFreq2 : List Word := [
  0x43A4D054#32, 0x43AE9D37#32, 0x43B8FF49#32, 0x43C3FF6A#32, 0x43CFA700#32, 0x43DC0000#32, 0x43E914F6#32, 0x43F6F110#32,
  0x4402D013#32, 0x440A9760#32, 0x4412D517#32, 0x441B9041#32, 0x4424D054#32, 0x442E9D37#32, 0x4438FF49#32, 0x4443FF6A#32,
  0x444FA700#32, 0x445C0000#32, 0x446914F6#32, 0x4476F110#32, 0x4482D013#32, 0x448A9760#32, 0x4492D517#32, 0x449B9041#32,
  0x44A4D054#32, 0x44AE9D37#32, 0x44B8FF49#32, 0x44C3FF6A#32, 0x44CFA700#32, 0x44DC0000#32, 0x44E914F6#32, 0x44F6F110#32]

/-- The default `FREQ` words of R141, entries 96 to 127. -/
def defaultFreq3 : List Word := [
  0x4502D013#32, 0x450A9760#32, 0x4512D517#32, 0x451B9041#32, 0x4524D054#32, 0x452E9D37#32, 0x4538FF49#32, 0x4543FF6A#32,
  0x454FA700#32, 0x455C0000#32, 0x456914F6#32, 0x4576F110#32, 0x4582D013#32, 0x458A9760#32, 0x4592D517#32, 0x459B9041#32,
  0x45A4D054#32, 0x45AE9D37#32, 0x45B8FF49#32, 0x45C3FF6A#32, 0x45CFA700#32, 0x45DC0000#32, 0x45E914F6#32, 0x45F6F110#32,
  0x4602D013#32, 0x460A9760#32, 0x4612D517#32, 0x461B9041#32, 0x4624D054#32, 0x462E9D37#32, 0x4638FF49#32, 0x4643FF6A#32]

/-- The parameter values of R5's column "this spec's value", with the default ROMs of R111 and R141. -/
def default : Config where
  L := 64
  maxCh := 2
  maxBlen := 4096
  maxEv := 256
  table := defaultTable0 ++ defaultTable1
  freq := defaultFreq0 ++ defaultFreq1 ++ defaultFreq2 ++ defaultFreq3
  L_range := by decide
  maxCh_range := by decide
  maxBlen_range := by decide
  maxEv_range := by decide
  table_length := by decide +kernel
  table_finite := by decide +kernel
  freq_length := by decide +kernel
  freq_positive := by decide +kernel

/-- The free parameter `NAN_OUT` (R5, D9, I4): the binary32 NaN an addition returns when its result is NaN, as its
sign and its fraction field less one. Every NaN pattern is one such pair and every such pair is a NaN. -/
opaque nanOut : Bool × Fin 8388607

/-- The NaN a multiplication, division or modulo returns, which the spec names no parameter for (assumption log 5):
free, for each pair of operands. No state that the block's rules reach computes one. -/
opaque nanOther : Word → Word → Bool × Fin 8388607

/-- The integer a `floor` of an infinity or a NaN gives (assumption log 5): free. R118 rules the case out. -/
opaque floorOther : Word → Int

/-- What a ROM read outside the ROM gives (assumption log 5): free. R119 rules the case out. -/
opaque romBeyond : Int → Word

/-- The draw of I3 and D22: what the RAM byte at a host offset holds after a reset and before the first write to it.
The first argument counts the resets, since every reset leaves the RAMs unspecified anew (R230). -/
opaque ramDraw : Nat → Nat → Byte

end Config

end Sys2Proof
end

