-- ==== Sys2Proof/Machine/Binary32.lean ====
section
/-! DEFINITION. The numeric primitives of R9 on binary32 patterns: every operation computes its exact result as an
integer or a ratio of integers in units of 2^-149 and rounds once, to nearest with ties to even, with subnormals
kept (R6). Nothing is fused: each operation rounds its own result. -/

namespace Sys2Proof.Machine

/-- The integer nearest to n/d, a tie going to the even one. -/
def roundHalfEven (n d : Nat) : Nat :=
  let q := n / d
  let r := n % d
  if 2 * r < d then q
  else if d < 2 * r then q + 1
  else if q % 2 = 0 then q
  else q + 1

/-- Bits [30:0] of the binary32 value nearest to n/d units of 2^-149, ties to even. With k the number of bits the
quotient has beyond 24, the significand is n/(d·2^k) rounded, and adding it to k·2^23 places it under its exponent
(a carry out of the significand raises the exponent, and past the largest finite value lies infinity). -/
def roundMag (n d : Nat) : Nat :=
  let k := Nat.log2 (n / d) - 23
  min (k * 2 ^ 23 + roundHalfEven n (d * 2 ^ k)) 0x7F800000

/-- The binary32 pattern of sign `neg` nearest to the magnitude n/d units. -/
def roundWord (neg : Bool) (n d : Nat) : Word :=
  BitVec.ofNat 32 (roundMag n d + if neg then 2 ^ 31 else 0)

/-- A NaN pattern from its sign and its fraction field less one. -/
def nanWord (p : Bool × Fin 8388607) : Word :=
  BitVec.ofNat 32 (0x7F800000 + (p.2.val + 1) + if p.1 then 2 ^ 31 else 0)

/-- An infinity of sign `neg`. -/
def infWord (neg : Bool) : Word := if neg then 0xFF800000#32 else 0x7F800000#32

/-- A zero of sign `neg`. -/
def zeroWord (neg : Bool) : Word := if neg then negZero else posZero

/-- The pattern with its sign bit inverted. -/
def fneg32 (a : Word) : Word := a ^^^ 0x80000000#32

/-- `fadd32` (R9). A NaN result is the parameter `NAN_OUT` (R5, D9). An exact zero sum is +0.0 unless both operands
are negative zeros. -/
def fadd32 (a b : Word) : Word :=
  if isNaN a || isNaN b then nanWord Config.nanOut
  else if isInf a then
    if isInf b && signBit a != signBit b then nanWord Config.nanOut else a
  else if isInf b then b
  else
    let v := value a + value b
    if v = 0 then zeroWord (signBit a && signBit b)
    else roundWord (decide (v < 0)) v.natAbs 1

/-- `fsub32` (R9): the sum with the second operand's sign inverted. -/
def fsub32 (a b : Word) : Word := fadd32 a (fneg32 b)

/-- `fmul32` (R9). -/
def fmul32 (a b : Word) : Word :=
  let neg := signBit a != signBit b
  if isNaN a || isNaN b || (isInf a && isZero b) || (isZero a && isInf b) then
    nanWord (Config.nanOther a b)
  else if isInf a || isInf b then infWord neg
  else roundWord neg (units a * units b) (2 ^ 149)

/-- `fdiv32` (R9). -/
def fdiv32 (a b : Word) : Word :=
  let neg := signBit a != signBit b
  if isNaN a || isNaN b || (isInf a && isInf b) || (isZero a && isZero b) then
    nanWord (Config.nanOther a b)
  else if isInf a || isZero b then infWord neg
  else if isInf b then zeroWord neg
  else roundWord neg (units a * 2 ^ 149) (units b)

/-- `fmod32` (R9): a − n·b with n truncated toward zero; exact, with the sign of a. -/
def fmod32 (a b : Word) : Word :=
  if isNaN a || isNaN b || isInf a || isZero b then nanWord (Config.nanOther a b)
  else if isInf b then a
  else roundWord (signBit a) (units a % units b) 1

/-- `floor` (R9), a mathematical integer. -/
def floor32 (a : Word) : Int :=
  if isFinite a then value a / (2 ^ 149 : Int) else Config.floorOther a

/-- `f32(i)` (R9): the binary32 value of an integer. -/
def f32 (i : Int) : Word := roundWord (decide (i < 0)) (i.natAbs * 2 ^ 149) 1

/-- `a = b` (R9): an IEEE comparison, so +0.0 = −0.0 and a NaN equals nothing. -/
def feq32 (a b : Word) : Bool := !isNaN a && !isNaN b && value a == value b

/-- `a >= b` (R9): an IEEE comparison; a NaN fails it. -/
def fge32 (a b : Word) : Bool := !isNaN a && !isNaN b && decide (value b ≤ value a)

/-- A read of entry i of a ROM (R8). Outside the ROM, which R119 rules out, the value is free. -/
def romRead (rom : List Word) (i : Int) : Word :=
  if 0 ≤ i then (rom[i.toNat]?).getD (Config.romBeyond i) else Config.romBeyond i

end Sys2Proof.Machine
end

