-- ==== Sys2Proof/Machine/State.lean ====
section
/-! DEFINITION. The architectural state (R20) as plain data, the outcomes' reasons, and the state after reset (R41,
R230). `STATUS`, `BUSY`, `active(n)`, the constants `TLEN` … `MAXEV` and the RAM windows are computed from these
fields, never stored twice. -/

namespace Sys2Proof.Machine

/-- Why the machine would stop. WTOSC has no such reason: a fault of the block is a sticky status the host reads
(R202), after which the block goes on, a bus error is an answer to one access (R56, R208), and "the block itself is
never stuck" (I14). So the type has no constructor, and no step can end in a fault. -/
inductive Fault where
  deriving DecidableEq, Repr

/-- Why the model gives no meaning. -/
inductive Refusal where
  /-- An instruction the model has not reached, by its mnemonic. Raised by `exec`'s refused arms alone, of which there
  is none: every instruction has its meaning. Safe: the machine stops. -/
  | notModelled (mnemonic : String)
  deriving DecidableEq, Repr

/-- One oscillator slot (R22, R23): two binary32 registers. -/
structure Voice where
  /-- `VOICE[n].PHASE` (R22). -/
  phase : Word
  /-- `VOICE[n].INC` (R23). -/
  inc : Word
  deriving DecidableEq, Repr

/-- `SEQ.MODE` (R36). -/
inductive Mode where
  | idle
  | preparing
  | validating
  | rendering
  deriving DecidableEq, Repr

/-- The fault causes of R200, by name. The reserved codes 0x09–0xFF are never written (I10), so none is here. -/
inductive Cause where
  /-- `NONE`, 0x00. -/
  | noFault
  /-- `ILLEGAL_COMMAND`, 0x01. -/
  | illegalCommand
  /-- `NOT_PREPARED`, 0x02. -/
  | notPrepared
  /-- `INVALID_SAMPLE_RATE`, 0x03. -/
  | invalidSampleRate
  /-- `INVALID_BLOCK_CONFIG`, 0x04. -/
  | invalidBlockConfig
  /-- `ILLEGAL_EVENT`, 0x05. -/
  | illegalEvent
  /-- `INVALID_NOTE`, 0x06. -/
  | invalidNote
  /-- `EVENT_RANGE`, 0x07. -/
  | eventRange
  /-- `EVENT_ORDER`, 0x08. -/
  | eventOrder
  deriving DecidableEq, Repr

/-- The RAM contents as the bytes written since reset, by host offset, addresses strictly rising. An unlisted byte
has not been written since reset: it has no value of its own here, and reading it gives its draw (I3). -/
abbrev Memory := List Host.Cell

/-- What happens next at the block's boundary: one access of the host (R12, R55), a reset (R230), or one unit of the
sequencer's work with no host access in it. The list of moves in `State` is the model's input: it says in which order
the two agents act, which the spec leaves to the host's timing and to `T_UNIT` (R239). -/
inductive Move where
  /-- `MemRead(off, width)`, `width` in bytes. -/
  | read (off : Word) (width : Nat)
  /-- `MemWrite(off, width, value)`. A command it starts has completed before the next move. -/
  | write (off : Word) (width : Nat) (value : Word)
  /-- `MemWrite(off, width, value)`, the next moves coming before any work of a command it starts: the command's work
  is done by the `work` moves that follow, so other moves can fall while `BUSY = 1`. -/
  | post (off : Word) (width : Nat) (value : Word)
  /-- One unit of the sequencer's work; nothing when the block is idle. -/
  | work
  /-- The reset input (R230). -/
  | reset
  deriving DecidableEq, Repr

/-- The bus response to an access (R55, R56). -/
structure Reply where
  /-- The word a read returns; 0 for a write. -/
  data : Word
  /-- The bus error of R56. -/
  error : Bool
  deriving DecidableEq, Repr

/-- The state of a WTOSC (R20). -/
@[ext]
structure State where
  /-- The configuration (R5), the ROMs `TABLE` and `FREQ` among it: no rule writes it. -/
  cfg : Config
  /-- `SR` (R26). -/
  sr : Word
  /-- `NCH` (R27). -/
  nch : Word
  /-- `BLEN` (R28). -/
  blen : Word
  /-- `NEV` (R29). -/
  nev : Word
  /-- `SRA` (R30). -/
  sra : Word
  /-- `STATUS.PREPARED` (R31). -/
  prepared : Bool
  /-- `STATUS.FAULT` (R31). -/
  fault : Bool
  /-- `STATUS.CAUSE` (R31, R200). -/
  cause : Cause
  /-- `STATUS.FINDEX` (R31). -/
  findex : BitVec 16
  /-- `SEQ.MODE` (R36); `BUSY` is 1 exactly when it is not `idle`. -/
  mode : Mode
  /-- `SEQ.K` (R36): the index of the next event to process. -/
  k : Nat
  /-- `SEQ.CUR` (R36): the first frame not yet rendered. -/
  cur : Nat
  /-- The voice file (R22–R24). -/
  voices : Vector Voice 128
  /-- The contents of `EVQ` and `BUF` (R38, R39), by host offset (R52). -/
  mem : Memory
  /-- The number of resets so far: the model's own counter, read by `Config.ramDraw` alone (assumption log 1). -/
  epoch : Nat
  /-- The moves to come: the model's input (assumption log 2). -/
  moves : List Move
  /-- The response to the latest host access: the model's output (assumption log 2). -/
  reply : Option Reply
  deriving DecidableEq, Repr

/-- The state after a reset of a block of configuration c (R41), with the RAM contents unspecified: the draw number
`epoch`. -/
def State.resetOf (c : Config) (epoch : Nat) (moves : List Move) : State where
  cfg := c
  sr := 0x00000000#32
  nch := 0x00000000#32
  blen := 0x00000000#32
  nev := 0x00000000#32
  sra := 0x00000000#32
  prepared := false
  fault := false
  cause := .noFault
  findex := 0#16
  mode := .idle
  k := 0
  cur := 0
  voices := Vector.replicate 128 ⟨posZero, posZero⟩
  mem := []
  epoch := epoch
  moves := moves
  reply := none

/-- The machine right after reset (R41, R230), built with the spec's own parameter values (R5), no move waiting. -/
def State.reset : State := State.resetOf Config.default 0 []

end Sys2Proof.Machine
end

