-- ==== Sys2Proof/Machine/Ops.lean ====
section
/-! DEFINITION. The shared operations over the state: RAM bytes and words, event words, buffer samples, voice
registers, raising a fault (R202) and clearing it (R206). -/

namespace Sys2Proof.Machine

/-! ### The RAM bytes -/

/-- The byte written at an address since reset, if any. -/
def Memory.lookup : Memory → Nat → Option Byte
  | [], _ => none
  | (x, b) :: m, a => if x = a then some b else Memory.lookup m a

/-- The memory with a byte written at an address, the addresses kept strictly rising. -/
def Memory.insert : Memory → Nat → Byte → Memory
  | [], a, v => [(a, v)]
  | (x, b) :: m, a, v =>
    if a < x then (a, v) :: (x, b) :: m
    else if a = x then (a, v) :: m
    else (x, b) :: Memory.insert m a v

/-- Every address of a memory lies above the bound. -/
def Memory.above (lo : Nat) : Memory → Bool
  | [] => true
  | (x, _) :: m => decide (lo < x) && Memory.above lo m

/-- The canonical form: the addresses rise strictly. Every entry was written since reset and no unlisted byte was, so
no entry says what an unlisted address says. -/
def Memory.wf : Memory → Bool
  | [] => true
  | (x, _) :: m => Memory.above x m && Memory.wf m

/-- The one read of a RAM byte: what was written there last, or since reset nothing was, the byte's draw (I3, D22). -/
def State.readByte (s : State) (a : Nat) : Byte :=
  match Memory.lookup s.mem a with
  | some b => b
  | none => Config.ramDraw s.epoch a

/-- The 32-bit RAM word at an offset, little-endian (R53). -/
def State.readWord (s : State) (a : Nat) : Word :=
  wordOfBytes (s.readByte a) (s.readByte (a + 1)) (s.readByte (a + 2)) (s.readByte (a + 3))

/-- The memory with a word written whole at an address, little-endian (R53). -/
def Memory.insertWord (m : Memory) (a : Nat) (w : Word) : Memory :=
  Memory.insert (Memory.insert (Memory.insert (Memory.insert m a (byteOf w 0)) (a + 1) (byteOf w 1)) (a + 2)
    (byteOf w 2)) (a + 3) (byteOf w 3)

/-- The state with one 32-bit RAM word written whole (R55). -/
def State.writeWord (s : State) (a : Nat) (w : Word) : State :=
  { s with mem := Memory.insertWord s.mem a w }

/-! ### The event RAM and the buffer RAM (R52) -/

/-- The offset of the low half of `EVQ[k]`. -/
def evqAddr (k : Nat) : Nat := 0x8000 + 8 * k

/-- The offset of `BUF[c][f]`: channels are `MAX_BLEN` frames apart, whatever `BLEN` is. -/
def bufAddr (c : Config) (ch f : Nat) : Nat := 0x100000 + 4 * (ch * c.maxBlen + f)

/-- `EVQ[k]`, assembled from its two RAM words (R59). -/
def State.evq (s : State) (k : Nat) : EventWord :=
  eventOfWords (s.readWord (evqAddr k)) (s.readWord (evqAddr k + 4))

/-- `BUF[c][f]` (R60). -/
def State.buf (s : State) (ch f : Nat) : Word := s.readWord (bufAddr s.cfg ch f)

/-- `BUF[c][f] <- w` (R60). -/
def State.setBuf (s : State) (ch f : Nat) (w : Word) : State := s.writeWord (bufAddr s.cfg ch f) w

/-! ### The voice file -/

/-- `VOICE[n]` (R22, R23). -/
def State.voice (s : State) (n : Fin 128) : Voice := s.voices.get n

/-- `VOICE[n] <- v`. -/
def State.setVoice (s : State) (n : Fin 128) (v : Voice) : State :=
  { s with voices := s.voices.set n.val v n.isLt }

/-- The 128 slots in ascending order. -/
def slots : List (Fin 128) := List.finRange 128

/-! ### Faults -/

/-- `raise Fault(cause, index)` (R202), the one way a fault is taken: the first fault is kept, nothing else is
written, and the command that raised it completes at once (`BUSY <- 0`). -/
def State.raiseFault (s : State) (c : Cause) (index : Nat) : State :=
  if s.fault then { s with mode := .idle }
  else { s with fault := true, cause := c, findex := BitVec.ofNat 16 index, mode := .idle }

/-- The return from a fault (R206): `FAULT <- 0 ; CAUSE <- 0 ; FINDEX <- 0`, as a successful `PREPARE` does (R144). -/
def State.clearFault (s : State) : State :=
  { s with fault := false, cause := .noFault, findex := 0#16 }

/-- The completion of a command: `BUSY <- 0`. -/
def State.complete (s : State) : State := { s with mode := .idle }

end Sys2Proof.Machine
end

