-- ==== Sys2Proof/Machine/Flags.lean ====
section
/-! DEFINITION. The flags (R40) and the `STATUS` word they are read through (R31). The block has no condition codes. -/

namespace Sys2Proof.Machine

/-- `BUSY = 1` exactly when `MODE != IDLE` (R36). -/
def State.busy (s : State) : Bool := s.mode != .idle

/-- The fault cause codes of R200. -/
def Cause.code : Cause → BitVec 8
  | .noFault => 0x00#8
  | .illegalCommand => 0x01#8
  | .notPrepared => 0x02#8
  | .invalidSampleRate => 0x03#8
  | .invalidBlockConfig => 0x04#8
  | .illegalEvent => 0x05#8
  | .invalidNote => 0x06#8
  | .eventRange => 0x07#8
  | .eventOrder => 0x08#8

/-- `STATUS` (R31): FINDEX [31:16], CAUSE [15:8], reserved 0 [7:3], FAULT [2], PREPARED [1], BUSY [0]. -/
def State.status (s : State) : Word :=
  s.findex ++ s.cause.code ++ 0#5 ++ BitVec.ofBool s.fault ++ BitVec.ofBool s.prepared ++ BitVec.ofBool s.busy

/-- `IS_ACTIVE(n)` (R117): `VOICE[n].INC != 0`, an IEEE comparison. -/
def State.isActive (s : State) (n : Fin 128) : Bool := !feq32 (s.voice n).inc posZero

end Sys2Proof.Machine
end

