-- ==== Sys2Proof/Machine/Operands.lean ====
section
/-! DEFINITION. The operands the commands and events take from the state and the checks on them: the slot a NOTE names
(R24), a sample rate (R144), a block configuration (R160), the events of a block (R161). -/

namespace Sys2Proof.Machine

/-- The slot a note identity names: NOTE itself, for 0..127 (R24). -/
def slotOf (note : BitVec 8) : Option (Fin 128) :=
  if h : note.toNat < 128 then some ⟨note.toNat, h⟩ else none

/-- The sample-rate check of `PREPARE` (R144): finite and at least 1.0, an IEEE comparison. -/
def sampleRateLegal (sr : Word) : Bool := isFinite sr && fge32 sr one32

/-- The block-configuration check of `RENDER` (R160): 1 ≤ NCH ≤ MAX_CH, BLEN ≤ MAX_BLEN, NEV ≤ MAX_EV, on unsigned
values (R13). -/
def State.blockLegal (s : State) : Bool :=
  decide (s.nch.toNat ≠ 0) && decide (s.nch.toNat ≤ s.cfg.maxCh) && decide (s.blen.toNat ≤ s.cfg.maxBlen)
    && decide (s.nev.toNat ≤ s.cfg.maxEv)

/-- The checks of R161 on one event, in its order (R204 (3)): TYPE, then TS against BLEN, then TS against the previous
timestamp, then NOTE; the cause of the first that fails. -/
def eventFault (blen prev : Nat) (e : EventWord) : Option Cause :=
  if evType e ≠ 0x01#8 ∧ evType e ≠ 0x02#8 ∧ evType e ≠ 0x03#8 then some .illegalEvent
  else if blen < (evTs e).toNat then some .eventRange
  else if (evTs e).toNat < prev then some .eventOrder
  else if (evType e = 0x01#8 ∨ evType e = 0x02#8) ∧ 128 ≤ (evNote e).toNat then some .invalidNote
  else none

end Sys2Proof.Machine
end

