-- ==== Sys2Proof/Machine/Oscillator.lean ====
section
/-! DEFINITION. The oscillator datapath (40_oscillator.md) and the note-frequency ROM (R141): internal operations with
no encoding, which the events and the mixing stage call. -/

namespace Sys2Proof.Machine

/-- `NOTE_TO_FREQ(note)` (R141). -/
def noteToFreq (c : Config) (n : Fin 128) : Word := romRead c.freq n.val

/-- The increment of R113: `fdiv32(fmul32(freq, f32(L)), SRA)`. -/
def incrementOf (c : Config) (freq sra : Word) : Word := fdiv32 (fmul32 freq (f32 c.L)) sra

/-- `SET_FREQUENCY(n, freq)` (R113): the increment is written, the phase is kept. -/
def State.setFrequency (s : State) (n : Fin 128) (freq : Word) : State :=
  s.setVoice n { s.voice n with inc := incrementOf s.cfg freq s.sra }

/-- The interpolated value of `GET_SAMPLE` at phase p (R114). -/
def sampleAt (c : Config) (p : Word) : Word :=
  let i0 := floor32 p
  let i1 := (i0 + 1) % (c.L : Int)
  let w1 := fsub32 p (f32 i0)
  let w0 := fsub32 one32 w1
  fadd32 (fmul32 w0 (romRead c.table i0)) (fmul32 w1 (romRead c.table i1))

/-- The phase after `GET_SAMPLE` at phase p with increment inc (R115). -/
def nextPhase (c : Config) (p inc : Word) : Word := fmod32 (fadd32 p inc) (f32 c.L)

/-- `GET_SAMPLE(n)` (R114, R115): the value at the phase before the advance, and the state after it. -/
def State.getSample (s : State) (n : Fin 128) : Word × State :=
  let v := s.voice n
  (sampleAt s.cfg v.phase, s.setVoice n { v with phase := nextPhase s.cfg v.phase v.inc })

/-- `STOP(n)` (R116). -/
def State.stop (s : State) (n : Fin 128) : State := s.setVoice n ⟨posZero, posZero⟩

/-- `STOP` of every slot, as `ALL_NOTES_OFF` (R172) and `PREPARE` (R144) do. -/
def State.stopAll (s : State) : State := slots.foldl (fun t n => t.stop n) s

end Sys2Proof.Machine
end

