-- ==== Sys2Proof/Machine/Prepare.lean ====
section
/-! DEFINITION. `PREPARE` (R144). -/

namespace Sys2Proof.Machine

/-- The whole of `PREPARE` (R144), from the check of `SR` to `BUSY <- 0`. It is accepted while a fault is held and, on
success, clears it (R205, R206); on failure it writes what `raise Fault` writes. -/
def State.prepare (s : State) : State :=
  if sampleRateLegal s.sr then
    { { s with sra := s.sr }.stopAll.clearFault with prepared := true }.complete
  else s.raiseFault .invalidSampleRate 0

/-- `PREPARE`: bits [31:8] of the command are ignored (R80). -/
def execPrepare (_ignored : BitVec 24) (s : State) : Host.Outcome State Fault Refusal := .next s.prepare

end Sys2Proof.Machine
end

