-- ==== Sys2Proof/Machine/Mixer.lean ====
section
/-! DEFINITION. The mixing stage: `RENDER_RANGE` (R164) and `COPY_CHANNELS` (R165). -/

namespace Sys2Proof.Machine

/-- One frame of one voice: `BUF[0][f] <- fadd32(BUF[0][f], GET_SAMPLE(n))` (R164). -/
def State.mixFrame (s : State) (n : Fin 128) (f : Nat) : State :=
  let (y, t) := s.getSample n
  t.setBuf 0 f (fadd32 (s.buf 0 f) y)

/-- `count` frames of one voice from frame f on, ascending (R164). -/
def State.mixFrames (s : State) (n : Fin 128) : Nat → Nat → State
  | 0, _ => s
  | count + 1, f => (s.mixFrame n f).mixFrames n count (f + 1)

/-- The frames a .. b-1 of one voice, if it is active: `IS_ACTIVE` is read once per sub-range (R164). -/
def State.mixVoice (s : State) (n : Fin 128) (a b : Nat) : State :=
  if s.isActive n then s.mixFrames n (b - a) a else s

/-- The mixing of every voice into channel 0, in ascending slot order (R164). -/
def State.mixVoices (s : State) (a b : Nat) : State := slots.foldl (fun t n => t.mixVoice n a b) s

/-- `count` frames of channel ch copied from channel 0, from frame f on: a copy of the 32-bit pattern (R165). -/
def State.copyFrames (s : State) (ch : Nat) : Nat → Nat → State
  | 0, _ => s
  | count + 1, f => (s.setBuf ch f (s.buf 0 f)).copyFrames ch count (f + 1)

/-- `count` channels from channel ch on, each copied over the frames a .. b-1. -/
def State.copyFrom (s : State) (a b : Nat) : Nat → Nat → State
  | 0, _ => s
  | count + 1, ch => (s.copyFrames ch (b - a) a).copyFrom a b count (ch + 1)

/-- `COPY_CHANNELS(a, b)` (R165): channels 1 .. NCH-1. -/
def State.copyChannels (s : State) (a b : Nat) : State := s.copyFrom a b (s.nch.toNat - 1) 1

/-- `RENDER_RANGE(a, b)` (R164, R165): an empty range is a no-op. -/
def State.renderRange (s : State) (a b : Nat) : State :=
  if a = b then s else (s.mixVoices a b).copyChannels a b

end Sys2Proof.Machine
end

