-- ==== Sys2Proof/Machine/Events.lean ====
section
/-! DEFINITION. The three events (R170–R172): what `APPLY(E)` does at the frame boundary. The sub-range before the
boundary is rendered by the sequencer (R162), not by the event. -/

namespace Sys2Proof.Machine

/-- `NOTE_ON` (R170): `SET_FREQUENCY(NOTE, NOTE_TO_FREQ(NOTE))`; VEL and the ignored bits have no effect (R85). A NOTE of
128..255 takes the fault the table names for it, `INVALID_NOTE` at the event's index; the validation pass raises it
before any event is applied (R161), so no render reaches it here (assumption log 4). -/
def execNoteOn (note _vel _ignored : BitVec 8) (_ts : Word) (s : State) : Host.Outcome State Fault Refusal :=
  match slotOf note with
  | some n => .next (s.setFrequency n (noteToFreq s.cfg n))
  | none => .next (s.raiseFault .invalidNote s.k)

/-- `NOTE_OFF` (R171): `STOP(NOTE)`; a NOTE of 128..255 as in `NOTE_ON` (D17). -/
def execNoteOff (note _vel _ignored : BitVec 8) (_ts : Word) (s : State) : Host.Outcome State Fault Refusal :=
  match slotOf note with
  | some n => .next (s.stop n)
  | none => .next (s.raiseFault .invalidNote s.k)

/-- `ALL_NOTES_OFF` (R172): `STOP(n)` for every n; its NOTE is ignored, 128..255 too (R85). -/
def execAllNotesOff (_note _vel _ignored : BitVec 8) (_ts : Word) (s : State) : Host.Outcome State Fault Refusal :=
  .next s.stopAll

end Sys2Proof.Machine
end

