-- ==== Sys2Proof/Machine/Render.lean ====
section
/-! DEFINITION. `RENDER` (R160): the checks, the validation pass (R161) and the execution pass (R162). The execution
pass is written as units (one event with the sub-range before it, then the last sub-range), so that the whole command
here and the sequencer's single steps (Step.lean) run the same text. -/

namespace Sys2Proof.Machine

/-- The validation pass over `count` events from index k on, `prev` being the timestamp before them (R161): the cause
and the index of the first event that fails. -/
def State.validateFrom (s : State) : Nat → Nat → Nat → Option (Cause × Nat)
  | 0, _, _ => none
  | count + 1, k, prev =>
    match eventFault s.blen.toNat prev (s.evq k) with
    | some c => some (c, k)
    | none => s.validateFrom count (k + 1) (evTs (s.evq k)).toNat

/-- `VALIDATE()` (R161). -/
def State.validate (s : State) : Option (Cause × Nat) := s.validateFrom s.nev.toNat 0 0

/-- The part of `RENDER` before any frame is rendered (R160): the checks in the order of R204 (1), then the validation
pass; a failing one raises its fault, and otherwise the execution pass begins with K = CUR = 0 (R36, R162). -/
def State.beginRender (s : State) : State :=
  if !s.prepared then s.raiseFault .notPrepared 0
  else if !s.blockLegal then s.raiseFault .invalidBlockConfig 0
  else
    match s.validate with
    | some (c, k) => s.raiseFault c k
    | none => { s with mode := .rendering, k := 0, cur := 0 }

/-- The event at K, if it passes the checks of R161 against BLEN and CUR, as the instruction to apply; otherwise the
cause of its fault. After a passed validation every event passes (assumption log 4). -/
def State.eventAt (s : State) : Except Cause Instr :=
  match eventFault s.blen.toNat s.cur (s.evq s.k) with
  | some c => .error c
  | none =>
    match decodeEvent (s.evq s.k) with
    | .ok i => .ok i
    | .error _ => .error .illegalEvent

/-- The end of one turn of R162's loop: `CUR <- TS` and the next K. -/
def State.advance (s : State) (ts : Word) : State := { s with k := s.k + 1, cur := ts.toNat }

/-- The effect of an event at its boundary (`APPLY(E)`, R162), by the events' own meanings. -/
def State.apply (s : State) (i : Instr) : Host.Outcome State Fault Refusal :=
  match i with
  | .noteOn note vel ignored ts => execNoteOn note vel ignored ts s
  | .noteOff note vel ignored ts => execNoteOff note vel ignored ts s
  | .allNotesOff note vel ignored ts => execAllNotesOff note vel ignored ts s
  | .prepare _ => .next s
  | .render _ => .next s

/-- An outcome followed by a change of the next state. -/
def thenNext (o : Host.Outcome State Fault Refusal) (f : State → Host.Outcome State Fault Refusal) :
    Host.Outcome State Fault Refusal :=
  match o with
  | .next t => f t
  | .fault r => .fault r
  | .refused r => .refused r

/-- One turn of the loop of R162 with the event's effect given by `run`: `RENDER_RANGE(CUR, TS)`, `APPLY(E)`,
`CUR <- TS`, K advanced. -/
def State.eventUnit (run : Instr → State → Host.Outcome State Fault Refusal) (s : State) :
    Host.Outcome State Fault Refusal :=
  match s.eventAt with
  | .error c => .next (s.raiseFault c s.k)
  | .ok i => thenNext (run i (s.renderRange s.cur i.ts.toNat)) (fun t => .next (t.advance i.ts))

/-- The end of R162: `RENDER_RANGE(CUR, BLEN)`, then `BUSY <- 0`. -/
def State.endRender (s : State) : State := (s.renderRange s.cur s.blen.toNat).complete

/-- `EXECUTE()` (R162) with `count` events left; a render that a fault has ended is left as it is. -/
def State.executeFrom (s : State) : Nat → Host.Outcome State Fault Refusal
  | 0 => .next (if s.mode = .rendering then s.endRender else s)
  | count + 1 =>
    if s.mode = .rendering then
      match s.eventUnit (fun i t => t.apply i) with
      | .next t => t.executeFrom count
      | .fault r => .fault r
      | .refused r => .refused r
    else .next s

/-- `RENDER` (R160): dropped while a fault is held (R81, R205), otherwise the whole command. Bits [31:8] of the command
are ignored (R80). -/
def execRender (_ignored : BitVec 24) (s : State) : Host.Outcome State Fault Refusal :=
  if s.fault then .next s else s.beginRender.executeFrom s.nev.toNat

end Sys2Proof.Machine
end

