-- ==== Sys2Proof/Machine/Dispatch.lean ====
section
/-! DEFINITION. The meaning of every instruction, one arm for each row of the opcode table. -/

namespace Sys2Proof.Machine

def exec (i : Instr) (s : State) : Host.Outcome State Fault Refusal :=
  match i with
  | .noteOn note vel ignored ts => Sys2Proof.Machine.execNoteOn note vel ignored ts s
  | .noteOff note vel ignored ts => Sys2Proof.Machine.execNoteOff note vel ignored ts s
  | .allNotesOff note vel ignored ts => Sys2Proof.Machine.execAllNotesOff note vel ignored ts s
  | .prepare ignored => Sys2Proof.Machine.execPrepare ignored s
  | .render ignored => Sys2Proof.Machine.execRender ignored s

end Sys2Proof.Machine
end

