-- ==== Sys2Proof/Machine/Bus.lean ====
section
/-! DEFINITION. The host bus (20_memory.md): the address map (R52), the accesses (R54–R57) and the commands a `CMD` write
starts (R81). Offsets are from the block's base (assumption log 6). -/

namespace Sys2Proof.Machine

/-- What stands at a mapped offset (R52). -/
inductive Elem where
  | cmd
  | status
  | sr
  | nch
  | blen
  | nev
  | sra
  | tlen
  | nvoice
  | maxch
  | maxblen
  | maxev
  /-- `VOICE[n].PHASE`. -/
  | phase (n : Fin 128)
  /-- `VOICE[n].INC`. -/
  | inc (n : Fin 128)
  /-- `TABLE[i]`. -/
  | table (i : Nat)
  /-- `FREQ[n]`. -/
  | freq (n : Nat)
  /-- A word of `EVQ` or `BUF`, by its offset. -/
  | ram (a : Nat)
  deriving DecidableEq, Repr

/-- The offset of `CMD`. -/
def offCmd : Word := 0x0000#32
/-- The offset of `STATUS`. -/
def offStatus : Word := 0x0004#32
/-- The offset of `SR`. -/
def offSr : Word := 0x0008#32
/-- The offset of `NCH`. -/
def offNch : Word := 0x000C#32
/-- The offset of `BLEN`. -/
def offBlen : Word := 0x0010#32
/-- The offset of `NEV`. -/
def offNev : Word := 0x0014#32

/-- The element of the voice window at distance d from 0x1000: phases at 8·n, increments at 8·n + 4. -/
def voiceElem (d : Nat) : Option Elem :=
  if h : d / 8 < 128 then some (if d % 8 = 0 then .phase ⟨d / 8, h⟩ else .inc ⟨d / 8, h⟩) else none

/-- The offset lies in the `EVQ` or the `BUF` window, whose sizes follow `MAX_EV`, `MAX_CH` and `MAX_BLEN` (R52). -/
def inRam (c : Config) (a : Nat) : Bool :=
  (decide (0x8000 ≤ a) && decide (a < 0x8000 + 8 * c.maxEv))
    || (decide (0x100000 ≤ a) && decide (a < 0x100000 + 4 * (c.maxCh * c.maxBlen)))

/-- The address map of R52 at an offset that is a multiple of 4; `none` is unmapped. -/
def elemAt (c : Config) (off : Nat) : Option Elem :=
  if off = 0x0000 then some .cmd
  else if off = 0x0004 then some .status
  else if off = 0x0008 then some .sr
  else if off = 0x000C then some .nch
  else if off = 0x0010 then some .blen
  else if off = 0x0014 then some .nev
  else if off = 0x0018 then some .sra
  else if off = 0x001C then some .tlen
  else if off = 0x0020 then some .nvoice
  else if off = 0x0024 then some .maxch
  else if off = 0x0028 then some .maxblen
  else if off = 0x002C then some .maxev
  else if 0x1000 ≤ off ∧ off < 0x1400 then voiceElem (off - 0x1000)
  else if 0x2000 ≤ off ∧ off < 0x2000 + 4 * c.L then some (.table ((off - 0x2000) / 4))
  else if 0x3000 ≤ off ∧ off < 0x3200 then some (.freq ((off - 0x3000) / 4))
  else if inRam c off then some (.ram off)
  else none

/-- The elements the host may read while `BUSY = 1` (R57). -/
def Elem.readableBusy : Elem → Bool
  | .status => true
  | .tlen => true
  | .nvoice => true
  | .maxch => true
  | .maxblen => true
  | .maxev => true
  | .table _ => true
  | .freq _ => true
  | .cmd => false
  | .sr => false
  | .nch => false
  | .blen => false
  | .nev => false
  | .sra => false
  | .phase _ => false
  | .inc _ => false
  | .ram _ => false

/-- The current value of an element (R55): `CMD` reads 0 (R33), the constants are the configuration's (R32). -/
def State.readElem (s : State) : Elem → Word
  | .cmd => 0
  | .status => s.status
  | .sr => s.sr
  | .nch => s.nch
  | .blen => s.blen
  | .nev => s.nev
  | .sra => s.sra
  | .tlen => BitVec.ofNat 32 s.cfg.L
  | .nvoice => 128
  | .maxch => BitVec.ofNat 32 s.cfg.maxCh
  | .maxblen => BitVec.ofNat 32 s.cfg.maxBlen
  | .maxev => BitVec.ofNat 32 s.cfg.maxEv
  | .phase n => (s.voice n).phase
  | .inc n => (s.voice n).inc
  | .table i => romRead s.cfg.table i
  | .freq n => romRead s.cfg.freq n
  | .ram a => s.readWord a

/-- A write of an element other than `CMD` (R55): the configuration registers and the RAM words take the value, a
write of a read-only element is accepted and ignored (R56). -/
def State.writeElem (s : State) (e : Elem) (v : Word) : State :=
  match e with
  | .cmd => s
  | .status => s
  | .sr => { s with sr := v }
  | .nch => { s with nch := v }
  | .blen => { s with blen := v }
  | .nev => { s with nev := v }
  | .sra => s
  | .tlen => s
  | .nvoice => s
  | .maxch => s
  | .maxblen => s
  | .maxev => s
  | .phase _ => s
  | .inc _ => s
  | .table _ => s
  | .freq _ => s
  | .ram a => s.writeWord a v

/-- A response without an error. -/
def State.answer (s : State) (v : Word) : State := { s with reply := some ⟨v, false⟩ }

/-- The bus error of R56: no effect on the block, a read returns 0. -/
def State.busError (s : State) : State := { s with reply := some ⟨0, true⟩ }

/-- The element an access reaches: a 4-byte access at a mapped multiple of 4 (R54, R56). -/
def target (c : Config) (off : Word) (width : Nat) : Option Elem :=
  if width = 4 ∧ off.toNat % 4 = 0 then elemAt c off.toNat else none

/-- `MemRead(off, width)` (R55–R57). -/
def State.hostRead (s : State) (off : Word) (width : Nat) : State :=
  match target s.cfg off width with
  | some e => if s.busy && !e.readableBusy then s.busError else s.answer (s.readElem e)
  | none => s.busError

/-- `MemWrite(off, width, v)` (R55–R57), the effect of a `CMD` write being `start`. -/
def State.hostWrite (start : Word → State → Host.Outcome State Fault Refusal) (s : State) (off : Word) (width : Nat)
    (v : Word) : Host.Outcome State Fault Refusal :=
  match target s.cfg off width with
  | some e =>
    if s.busy then .next s.busError
    else if e = .cmd then start v (s.answer 0)
    else .next ((s.writeElem e v).answer 0)
  | none => .next s.busError

/-- The dispatch of a `CMD` write (R81) with the command carried out whole: `exec` of the instruction the value
decodes to, or the fault `ILLEGAL_COMMAND`. -/
def runCommand (v : Word) (s : State) : Host.Outcome State Fault Refusal :=
  match decodeCmd v with
  | .ok i => exec i s
  | .error _ => .next (s.raiseFault .illegalCommand 0)

/-- The dispatch of a `CMD` write (R81) with the command only started: `BUSY` is 1 and `MODE` says which command runs;
a `RENDER` while a fault is held has no effect at all (R205). R160 gives a `RENDER` no MODE before the validation pass but
that `BUSY` is 1; the model takes VALIDATING from the `CMD` write on, through the checks of R160 too (the model's choice,
assumption log 19). -/
def postCommand (v : Word) (s : State) : Host.Outcome State Fault Refusal :=
  match decodeCmd v with
  | .ok (.prepare _) => .next { s with mode := .preparing }
  | .ok (.render _) => .next (if s.fault then s else { s with mode := .validating })
  | .ok (.noteOn _ _ _ _) => .next s
  | .ok (.noteOff _ _ _ _) => .next s
  | .ok (.allNotesOff _ _ _ _) => .next s
  | .error _ => .next (s.raiseFault .illegalCommand 0)

/-- The reset input (R230): every element at its value of R41, the RAM contents unspecified anew, a command abandoned.
The configuration stays, and so do the moves still to come. -/
def State.resetAgain (s : State) : State := State.resetOf s.cfg (s.epoch + 1) s.moves

end Sys2Proof.Machine
end

