-- ==== Sys2Proof/Machine/Sequencer.lean ====
section
/-! DEFINITION. The sequencer (R12, R36): one unit of the work of the command in progress. -/

namespace Sys2Proof.Machine

/-- One unit of work. `PREPARING`: the whole of `PREPARE` (the command's ignored bits are gone, and its meaning does
not read them). `VALIDATING`: the checks of `RENDER` (assumption log 19) and its validation pass. `RENDERING`: the next event with the
sub-range before it, or after the last event the last sub-range. `IDLE`: nothing (R215). -/
def State.unit (s : State) : Host.Outcome State Fault Refusal :=
  match s.mode with
  | .idle => .next s
  | .preparing => exec (.prepare 0) s
  | .validating => .next s.beginRender
  | .rendering => if s.k < s.nev.toNat then s.eventUnit exec else .next s.endRender

end Sys2Proof.Machine
end

