-- ==== Sys2Proof/Machine/Step.lean ====
section
/-! DEFINITION. One step of the machine: the next move, or with no move waiting one unit of the sequencer's work. -/

namespace Sys2Proof.Machine

/-- The state with its first move taken off. -/
def State.popMove (s : State) : State := { s with moves := s.moves.tail }

/-- One step. The first move says which agent acts (R12, R63); with no move waiting the sequencer goes on by itself, so
every command completes (R239). -/
def step (s : State) : Host.Outcome State Fault Refusal :=
  match s.moves with
  | [] => s.unit
  | .work :: _ => s.popMove.unit
  | .read off width :: _ => .next (s.popMove.hostRead off width)
  | .write off width v :: _ => s.popMove.hostWrite runCommand off width v
  | .post off width v :: _ => s.popMove.hostWrite postCommand off width v
  | .reset :: _ => .next s.popMove.resetAgain

/-- The instruction whose bits the opcode table numbers w, of nbits bits, placed where the next step fetches it. A
command becomes the next move, a `CMD` write to the idle block. An event becomes `EVQ[0]` of a render in progress
that has one event and stands at it: MODE RENDERING, K = CUR = 0, NEV = 1, BLEN no lower than the event's TS where
MAX_BLEN allows it, and the next move a unit of the sequencer's work. Bits that are no instruction are placed as an
event word, whose step takes the fault of R86. -/
def State.withFetchWord (s : State) (nbits w : Nat) : State :=
  let e : EventWord := BitVec.ofNat 64 w
  let event : State :=
    { (s.writeWord (evqAddr 0) (eventLow e)).writeWord (evqAddr 0 + 4) (eventHigh e) with
      mode := .rendering, k := 0, cur := 0, nev := 1,
      blen := if (evTs e).toNat ≤ s.cfg.maxBlen ∧ s.blen.toNat < (evTs e).toNat then evTs e else s.blen,
      moves := .work :: s.moves }
  match decodeTableWord nbits w with
  | some (.prepare _) => { s with mode := .idle, moves := .write offCmd 4 (BitVec.ofNat 32 w) :: s.moves }
  | some (.render _) => { s with mode := .idle, moves := .write offCmd 4 (BitVec.ofNat 32 w) :: s.moves }
  | some (.noteOn _ _ _ _) => event
  | some (.noteOff _ _ _ _) => event
  | some (.allNotesOff _ _ _ _) => event
  | none => event

end Sys2Proof.Machine
end

