-- ==== Sys2Proof/Laws/PerInstr.lean ====
section
/-! SUPPORT. The statements made for each instruction by itself, one lemma for each constructor. -/

namespace Sys2Proof.Laws.OpcodeByte

open Sys2Proof

/-- The bytes of an instruction's encoding: the table's width, and the table's fixed bits [7:0] in the byte at the lowest
address (R53, R80, R82, R87). -/
def Statement (i : Instr) : Prop :=
  match i with
  | .noteOn _ _ _ _ => (encode i).length = 8 ∧ (encode i).head? = some 0x01#8
  | .noteOff _ _ _ _ => (encode i).length = 8 ∧ (encode i).head? = some 0x02#8
  | .allNotesOff _ _ _ _ => (encode i).length = 8 ∧ (encode i).head? = some 0x03#8
  | .prepare _ => (encode i).length = 4 ∧ (encode i).head? = some 0x01#8
  | .render _ => (encode i).length = 4 ∧ (encode i).head? = some 0x02#8

/-- The lowest byte of an event word is its TYPE (R82). -/
theorem eventWord_byte0 (ty note vel ign : BitVec 8) (ts : Word) :
    byteOf (eventLow (eventWord ty note vel ign ts)) 0 = ty := by
  apply BitVec.eq_of_getLsbD_eq
  intro i hi
  simp only [byteOf, eventLow, eventWord, BitVec.getLsbD_extractLsb', BitVec.getLsbD_append]
  simp [hi, show i < 32 by omega]

/-- The lowest byte of a command word is its OP (R80). -/
theorem cmdWord_byte0 (op : BitVec 8) (ign : BitVec 24) : byteOf (cmdWord op ign) 0 = op := by
  apply BitVec.eq_of_getLsbD_eq
  intro i hi
  simp only [byteOf, cmdWord, BitVec.getLsbD_extractLsb', BitVec.getLsbD_append]
  simp [hi]

theorem noteOn (note vel ignored : BitVec 8) (ts : Word) : Statement (.noteOn note vel ignored ts) := by
  simp [Statement, encode, eventBytes, wordBytes, eventWord_byte0]

theorem noteOff (note vel ignored : BitVec 8) (ts : Word) : Statement (.noteOff note vel ignored ts) := by
  simp [Statement, encode, eventBytes, wordBytes, eventWord_byte0]

theorem allNotesOff (note vel ignored : BitVec 8) (ts : Word) : Statement (.allNotesOff note vel ignored ts) := by
  simp [Statement, encode, eventBytes, wordBytes, eventWord_byte0]

theorem prepare (ignored : BitVec 24) : Statement (.prepare ignored) := by
  simp [Statement, encode, wordBytes, cmdWord_byte0]

theorem render (ignored : BitVec 24) : Statement (.render ignored) := by
  simp [Statement, encode, wordBytes, cmdWord_byte0]

end Sys2Proof.Laws.OpcodeByte
end

