-- ==== Sys2Proof/Machine/HostProgram.lean ====
section
/-! DEFINITION. The notations of 30_encoding.md section 3: the event assembler (R89), the lines of a host program (R90)
and its pseudo-instructions (R91), over their abstract syntax, each expanded to the moves it stands for. -/

namespace Sys2Proof.Machine

/-- One line of the event syntax (R89), its numbers as written. -/
inductive EventLine where
  /-- `@<ts> NOTE_ON <note>, <vel>` -/
  | noteOn (ts note vel : Nat)
  /-- `@<ts> NOTE_OFF <note>` -/
  | noteOff (ts note : Nat)
  /-- `@<ts> ALL_NOTES_OFF` -/
  | allNotesOff (ts : Nat)
  deriving DecidableEq, Repr

/-- Every number of the line fits its field: 32 bits for TS, 8 for NOTE and VEL (R89). -/
def EventLine.fits : EventLine → Bool
  | .noteOn ts note vel => decide (ts < 2 ^ 32) && decide (note < 2 ^ 8) && decide (vel < 2 ^ 8)
  | .noteOff ts note => decide (ts < 2 ^ 32) && decide (note < 2 ^ 8)
  | .allNotesOff ts => decide (ts < 2 ^ 32)

/-- The event word of a line, fields the syntax omits as 0; a line whose numbers do not fit is refused (R89). -/
def EventLine.assemble (l : EventLine) : Option EventWord :=
  if l.fits then
    match l with
    | .noteOn ts note vel =>
      some (eventWord 0x01#8 (BitVec.ofNat 8 note) (BitVec.ofNat 8 vel) 0 (BitVec.ofNat 32 ts))
    | .noteOff ts note => some (eventWord 0x02#8 (BitVec.ofNat 8 note) 0 0 (BitVec.ofNat 32 ts))
    | .allNotesOff ts => some (eventWord 0x03#8 0 0 0 (BitVec.ofNat 32 ts))
  else none

/-- One line of a host program (R90) or pseudo-instruction (R91). -/
inductive HostLine where
  /-- `WR <offset>, <value>` -/
  | wr (off v : Word)
  /-- `RD <offset> -> <name>`; the name is the host's. -/
  | rd (off : Word)
  /-- `PREPARE` -/
  | prepare
  /-- `RENDER` -/
  | render
  /-- `WAIT`, its loop run `polls` times. -/
  | wait (polls : Nat)
  /-- `EV <k>, <event>` -/
  | ev (k : Nat) (e : EventLine)
  /-- `CLEAR <c>, <n>` -/
  | clear (ch n : Nat)
  deriving DecidableEq, Repr

/-- The access of a `WR`, a `MemWrite(off, 4, v)`. The spec leaves to `T_UNIT` when a command a `CMD` write starts
completes (R239), so it is the caller's to say: a `posted` write only starts it, and the next lines meet `BUSY` = 1 (R235)
until the units of work a `WAIT` lets pass; otherwise it has completed before the next line (assumption log 17). -/
def writeMove (posted : Bool) (off v : Word) : Move := if posted then .post off 4 v else .write off 4 v

/-- The offset is a host address (R50): it fits 32 bits. -/
def offsetFits (a : Nat) : Bool := decide (a < 2 ^ 32)

/-- The host accesses a line stands for (R90, R91); `none` where the event assembler refuses, and where an offset that an `EV`
or a `CLEAR` expands to does not fit 32 bits, of which the spec says nothing (the model's choice, assumption log 16). Before
each poll of a `WAIT` the sequencer does a unit of work. -/
def HostLine.moves (c : Config) (posted : Bool) : HostLine → Option (List Move)
  | .wr off v => some [writeMove posted off v]
  | .rd off => some [.read off 4]
  | .prepare => some [writeMove posted offCmd 0x00000001#32]
  | .render => some [writeMove posted offCmd 0x00000002#32]
  | .wait polls => some ((List.replicate polls [Move.work, Move.read offStatus 4]).flatten)
  | .ev k e =>
    if offsetFits (evqAddr k + 4) then
      match e.assemble with
      | some w => some [writeMove posted (BitVec.ofNat 32 (evqAddr k)) (eventLow w),
          writeMove posted (BitVec.ofNat 32 (evqAddr k + 4)) (eventHigh w)]
      | none => none
    else none
  | .clear ch n =>
    if n = 0 then some []
    else if offsetFits (bufAddr c ch (n - 1)) then
      some ((List.range n).map fun f => writeMove posted (BitVec.ofNat 32 (bufAddr c ch f)) 0x00000000#32)
    else none

/-- The moves of a program, its lines in order. -/
def programMoves (c : Config) (posted : Bool) : List HostLine → Option (List Move)
  | [] => some []
  | l :: ls =>
    match l.moves c posted, programMoves c posted ls with
    | some m, some ms => some (m ++ ms)
    | _, _ => none

end Sys2Proof.Machine
end

