-- ==== Sys2Proof/Machine/Assembler.lean ====
section
/-! DEFINITION. The concrete text of the assembler notations (R89–R91): one line of characters read as an event line or a
host line. Words are separated by blanks, a comma is a word of its own (assumption log 12). -/

namespace Sys2Proof.Machine

/-- A word that has ended, unless it is empty. -/
def endWord (word : List Char) : List (List Char) := if word = [] then [] else [word]

/-- The words of a line, the first of them begun with `word`. -/
def wordsFrom (word : List Char) : List Char → List (List Char)
  | [] => endWord word
  | c :: cs =>
    if c = ' ' then endWord word ++ wordsFrom [] cs
    else if c = ',' then endWord word ++ [[',']] ++ wordsFrom [] cs
    else wordsFrom (word ++ [c]) cs

/-- The words of a line. -/
def lineWords (line : List Char) : List (List Char) := wordsFrom [] line

/-! ### Numbers -/

/-- The value of a digit in a base of at most 16. -/
def digitValue (base : Nat) (c : Char) : Option Nat :=
  let x := c.toNat
  let v := if 48 ≤ x ∧ x ≤ 57 then x - 48 else if 65 ≤ x ∧ x ≤ 70 then x - 55 else if 97 ≤ x ∧ x ≤ 102 then x - 87 else 16
  if v < base then some v else none

/-- The value of a digit string, `acc` being that of the digits before it. -/
def digitsValue (base acc : Nat) : List Char → Option Nat
  | [] => some acc
  | c :: cs =>
    match digitValue base c with
    | some v => digitsValue base (acc * base + v) cs
    | none => none

/-- A decimal or `0x` hexadecimal unsigned integer (R89). -/
def readNumber : List Char → Option Nat
  | [] => none
  | '0' :: 'x' :: [] => none
  | '0' :: 'x' :: c :: cs => digitsValue 16 0 (c :: cs)
  | c :: cs => digitsValue 10 0 (c :: cs)

/-- A number that fits 32 bits. -/
def readWord32 (w : List Char) : Option Word :=
  match readNumber w with
  | some n => if n < 2 ^ 32 then some (BitVec.ofNat 32 n) else none
  | none => none

/-- The characters before and after the first `mark`. -/
def splitAt (mark : Char) : List Char → List Char × Option (List Char)
  | [] => ([], none)
  | c :: cs => if c = mark then ([], some cs) else ((c :: (splitAt mark cs).1), (splitAt mark cs).2)

/-- The binary32 pattern nearest to an unsigned decimal with an optional fraction (R90, R10). -/
def readDecimal32 (neg : Bool) (digits : List Char) : Option Word :=
  match splitAt '.' digits with
  | ([], _) => none
  | (whole, none) => (digitsValue 10 0 whole).map fun n => roundWord neg (n * 2 ^ 149) 1
  | (_, some []) => none
  | (whole, some frac) => (digitsValue 10 0 (whole ++ frac)).map fun n => roundWord neg (n * 2 ^ 149) (10 ^ frac.length)

/-- The body of a binary32 literal, its closing parenthesis last. -/
def readLiteralBody (body : List Char) : Option Word :=
  if body.getLast? = some ')' then
    match body.dropLast with
    | '-' :: ds => readDecimal32 true ds
    | ds => readDecimal32 false ds
  else none

/-- The value of a `WR` (R90): a 32-bit integer, or `f32(<decimal>)`. -/
def readValue : List Char → Option Word
  | 'f' :: '3' :: '2' :: '(' :: body => readLiteralBody body
  | w => readWord32 w

/-- The host registers of R52, each name with its offset. -/
def registerNames : List (List Char × Word) := [
  ("CMD".toList, 0x0000#32), ("STATUS".toList, 0x0004#32), ("SR".toList, 0x0008#32), ("NCH".toList, 0x000C#32),
  ("BLEN".toList, 0x0010#32), ("NEV".toList, 0x0014#32), ("SRA".toList, 0x0018#32), ("TLEN".toList, 0x001C#32),
  ("NVOICE".toList, 0x0020#32), ("MAXCH".toList, 0x0024#32), ("MAXBLEN".toList, 0x0028#32), ("MAXEV".toList, 0x002C#32)]

/-- The rest of a text after the characters it must begin with. -/
def dropStart : List Char → List Char → Option (List Char)
  | [], w => some w
  | _ :: _, [] => none
  | c :: cs, x :: xs => if c = x then dropStart cs xs else none

/-- The offset of a voice register, named `VOICE[n].PHASE` or `VOICE[n].INC` as in R52, n in 0..127. -/
def readVoiceRegister (w : List Char) : Option Word :=
  match dropStart "VOICE[".toList w with
  | some body =>
    match readNumber (splitAt ']' body).1, (splitAt ']' body).2 with
    | some n, some field =>
      if 128 ≤ n then none
      else if field = ".PHASE".toList then some (BitVec.ofNat 32 (0x1000 + 8 * n))
      else if field = ".INC".toList then some (BitVec.ofNat 32 (0x1004 + 8 * n))
      else none
    | _, _ => none
  | none => none

/-- An offset: a register's name or a number (R90). Which names are register names R90 does not list; the model takes the
host registers and the voice registers and no name of a memory (the model's choice, assumption log 18). -/
def readOffset (w : List Char) : Option Word :=
  match registerNames.find? (fun p => p.1 = w) with
  | some p => some p.2
  | none =>
    match readVoiceRegister w with
    | some off => some off
    | none => readWord32 w

/-! ### Lines -/

/-- The words of an event line (R89). -/
def readEventWords : List (List Char) → Option EventLine
  | [('@' :: t), name] =>
    match readNumber t with
    | some ts => if name = "ALL_NOTES_OFF".toList then some (.allNotesOff ts) else none
    | none => none
  | [('@' :: t), name, n] =>
    match readNumber t, readNumber n with
    | some ts, some note => if name = "NOTE_OFF".toList then some (.noteOff ts note) else none
    | _, _ => none
  | [('@' :: t), name, n, [','], v] =>
    match readNumber t, readNumber n, readNumber v with
    | some ts, some note, some vel => if name = "NOTE_ON".toList then some (.noteOn ts note vel) else none
    | _, _, _ => none
  | _ => none

/-- An event line read from its text. -/
def EventLine.read (line : List Char) : Option EventLine := readEventWords (lineWords line)

/-- The words after the first one of a host line (R90, R91), by that first word. -/
def readHostWords (polls : Nat) (first : List Char) (rest : List (List Char)) : Option HostLine :=
  if first = "PREPARE".toList then (if rest = [] then some .prepare else none)
  else if first = "RENDER".toList then (if rest = [] then some .render else none)
  else if first = "WAIT".toList then (if rest = [] then some (.wait polls) else none)
  else if first = "WR".toList then
    match rest with
    | [o, [','], v] => (readOffset o).bind fun off => (readValue v).map fun x => .wr off x
    | _ => none
  else if first = "RD".toList then
    match rest with
    | [o, ['-', '>'], _] => (readOffset o).map fun off => .rd off
    | _ => none
  else if first = "EV".toList then
    match rest with
    | k :: [','] :: e => (readNumber k).bind fun n => (readEventWords e).map fun l => .ev n l
    | _ => none
  else if first = "CLEAR".toList then
    match rest with
    | [c, [','], n] => (readNumber c).bind fun ch => (readNumber n).map fun count => .clear ch count
    | _ => none
  else none

/-- A host line read from its text; a `WAIT` polls `polls` times. -/
def HostLine.read (polls : Nat) (line : List Char) : Option HostLine :=
  match lineWords line with
  | [] => none
  | first :: rest => readHostWords polls first rest

/-- The moves of a program given as lines of text, its writes posted or not (`writeMove`). -/
def assembleProgram (c : Config) (posted : Bool) (polls : Nat) (lines : List (List Char)) : Option (List Move) :=
  match lines.mapM (HostLine.read polls) with
  | some ls => programMoves c posted ls
  | none => none

/-! ### Text -/

/-- The character of a decimal digit. -/
def digitChar (d : Nat) : Char := Char.ofNat (48 + d)

/-- The decimal digits of n before the digits `acc`, for `fuel` more than their count. -/
def decimalFrom : Nat → Nat → List Char → List Char
  | 0, _, acc => acc
  | fuel + 1, n, acc => if n < 10 then digitChar n :: acc else decimalFrom fuel (n / 10) (digitChar (n % 10) :: acc)

/-- A number in decimal. -/
def decimal (n : Nat) : List Char := decimalFrom (n + 1) n []

/-- An event line as R89 writes it, its numbers in decimal. -/
def EventLine.text : EventLine → List Char
  | .noteOn ts note vel =>
    ['@'] ++ decimal ts ++ " NOTE_ON ".toList ++ decimal note ++ [',', ' '] ++ decimal vel
  | .noteOff ts note => ['@'] ++ decimal ts ++ " NOTE_OFF ".toList ++ decimal note
  | .allNotesOff ts => ['@'] ++ decimal ts ++ " ALL_NOTES_OFF".toList

end Sys2Proof.Machine
end

