-- ==== Sys2Proof/Safety.lean ====
section
/-! DEFINITION. What a good state is, in the terms the claims use: the invariants the spec gives for the voice file
(R22, R23, R118), the sequencer and the fault record (R31, R36, R40), and the RAMs (R52, R58). -/

namespace Sys2Proof.Machine

/-- A voice's registers in range (R22, R23): PHASE finite with sign bit 0 and below f32(L), INC finite with sign bit
0. -/
def Voice.inRange (c : Config) (v : Voice) : Bool :=
  isFinite v.phase && !signBit v.phase && decide (units v.phase < units (f32 c.L))
    && isFinite v.inc && !signBit v.inc

/-- The `FREQ` ROM gives increments that do not overflow at any legal sample rate: `fmul32(FREQ[n], f32(L))` is finite.
R118 has this of the default ROM ("the largest increment `NOTE_ON` can write is FREQ[127]·L/1.0 < 2^24"); R5 allows
ROMs that have it not (assumption log 7). -/
def tameFreq (c : Config) : Bool := c.freq.all fun w => isFinite (fmul32 w (f32 c.L))

/-- The pattern w is the quotient n/d units rounded to binary32 as R9 says: no finite pattern is nearer to it, and where
another value is as near, w is the one whose fraction is even (roundTiesToEven). -/
structure IsRounding (w : Word) (n : Int) (d : Nat) : Prop where
  finite : isFinite w = true
  nearest : ∀ x : Word, isFinite x = true → (value w * d - n).natAbs ≤ (value x * d - n).natAbs
  even : ∀ x : Word, isFinite x = true → (value x * d - n).natAbs = (value w * d - n).natAbs →
    value x = value w ∨ w.getLsbD 0 = false

/-- The magnitude from which on rounding to nearest gives an infinity, in units: half a step above the largest finite
value (R9, IEEE 754). -/
def overflowUnits : Nat := (2 ^ 25 - 1) * 2 ^ 252

/-- The causes that name an event (R200). -/
def Cause.ofEvent : Cause → Bool
  | .illegalEvent => true
  | .invalidNote => true
  | .eventRange => true
  | .eventOrder => true
  | .noFault => false
  | .illegalCommand => false
  | .notPrepared => false
  | .invalidSampleRate => false
  | .invalidBlockConfig => false

/-- The sequencer, the fault record and the latched sample rate agree. -/
structure SeqInv (s : State) : Prop where
  /-- `CAUSE` and `FINDEX` are 0 when `FAULT` = 0 (R31). -/
  no_fault : s.fault = false → s.cause = .noFault ∧ s.findex = 0#16
  /-- A held fault has a cause (R202), and an event index only for an event cause (R31). -/
  has_cause : s.fault = true → s.cause ≠ .noFault ∧ (s.cause.ofEvent = false → s.findex = 0#16)
  /-- Once prepared, `SRA` is a legal sample rate (R144). -/
  rate : s.prepared = true → sampleRateLegal s.sra = true
  /-- A `RENDER` is entered only with no fault held (R81). -/
  validating : s.mode = .validating → s.fault = false
  /-- A render in progress passed the checks of R160, and its position is inside the block (R36). -/
  rendering : s.mode = .rendering → s.fault = false ∧ s.prepared = true ∧ s.blockLegal = true
    ∧ s.k ≤ s.nev.toNat ∧ s.cur ≤ s.blen.toNat

/-- The RAM contents are in canonical form, inside the two windows of R52. -/
structure RamInv (s : State) : Prop where
  canonical : Memory.wf s.mem = true
  inside : ∀ cell ∈ s.mem, inRam s.cfg cell.1 = true

/-- Every voice is in range (R22, R23). -/
def VoiceInv (s : State) : Prop := ∀ n : Fin 128, (s.voice n).inRange s.cfg = true

/-- The event at index k of the block passes every check of R161. -/
def State.eventOk (s : State) (k : Nat) : Prop :=
  (evType (s.evq k) = 0x01#8 ∨ evType (s.evq k) = 0x02#8 ∨ evType (s.evq k) = 0x03#8)
    ∧ (evTs (s.evq k)).toNat ≤ s.blen.toNat
    ∧ (0 < k → (evTs (s.evq (k - 1))).toNat ≤ (evTs (s.evq k)).toNat)
    ∧ (evType (s.evq k) = 0x03#8 ∨ (evNote (s.evq k)).toNat < 128)

/-- A state from which `RENDER` renders (R233): no fault held, prepared, a legal block configuration, and every event
of the block legal. -/
structure Renderable (s : State) : Prop where
  noFault : s.fault = false
  prepared : s.prepared = true
  block : s.blockLegal = true
  events : ∀ k, k < s.nev.toNat → s.eventOk k

/-- Event k is the first of the block that fails R161, for the cause c: every event before it passes, and c is the
cause of the first check it fails, in the order of R204 (3). -/
inductive FirstBad (s : State) (k : Nat) : Cause → Prop where
  | type (before : ∀ j, j < k → s.eventOk j)
      (h : evType (s.evq k) ≠ 0x01#8 ∧ evType (s.evq k) ≠ 0x02#8 ∧ evType (s.evq k) ≠ 0x03#8) :
      FirstBad s k .illegalEvent
  | range (before : ∀ j, j < k → s.eventOk j)
      (t : evType (s.evq k) = 0x01#8 ∨ evType (s.evq k) = 0x02#8 ∨ evType (s.evq k) = 0x03#8)
      (h : s.blen.toNat < (evTs (s.evq k)).toNat) : FirstBad s k .eventRange
  | order (before : ∀ j, j < k → s.eventOk j)
      (t : evType (s.evq k) = 0x01#8 ∨ evType (s.evq k) = 0x02#8 ∨ evType (s.evq k) = 0x03#8)
      (r : (evTs (s.evq k)).toNat ≤ s.blen.toNat)
      (h : 0 < k ∧ (evTs (s.evq k)).toNat < (evTs (s.evq (k - 1))).toNat) : FirstBad s k .eventOrder
  | note (before : ∀ j, j < k → s.eventOk j)
      (t : evType (s.evq k) = 0x01#8 ∨ evType (s.evq k) = 0x02#8)
      (r : (evTs (s.evq k)).toNat ≤ s.blen.toNat)
      (o : 0 < k → (evTs (s.evq (k - 1))).toNat ≤ (evTs (s.evq k)).toNat)
      (h : 128 ≤ (evNote (s.evq k)).toNat) : FirstBad s k .invalidNote

/-- The effect of one event word at its boundary, by its TYPE (R170–R172). -/
def State.applyWord (s : State) (e : EventWord) : State :=
  if evType e = 0x01#8 then
    match slotOf (evNote e) with
    | some n => s.setFrequency n (noteToFreq s.cfg n)
    | none => s
  else if evType e = 0x02#8 then
    match slotOf (evNote e) with
    | some n => s.stop n
    | none => s
  else s.stopAll

/-- One turn of the loop of R162 on the state and the current sample: the sub-range before the event, its effect, and
`currentSample = event.timestamp`. -/
def blockTurn (p : State × Nat) (e : EventWord) : State × Nat :=
  ((p.1.renderRange p.2 (evTs e).toNat).applyWord e, (evTs e).toNat)

/-- The block as R162 gives it: the turns of its events in `EVQ` order from current sample 0, then the last
sub-range. K is left at NEV and CUR at the last timestamp (assumption log 8). -/
def State.blockResult (s : State) : State :=
  let p := ((List.range s.nev.toNat).map s.evq).foldl blockTurn (s, 0)
  { p.1.renderRange p.2 s.blen.toNat with mode := .idle, k := s.nev.toNat, cur := p.2 }

/-- The phase of a voice after j samples (R115). -/
def phaseAfter (c : Config) (v : Voice) : Nat → Word
  | 0 => v.phase
  | j + 1 => nextPhase c (phaseAfter c v j) v.inc

/-- The j-th sample of a voice (R114). -/
def sampleOf (c : Config) (v : Voice) (j : Nat) : Word := sampleAt c (phaseAfter c v j)

/-- The active slots in ascending order (R117, R164). -/
def State.activeSlots (s : State) : List (Fin 128) := slots.filter s.isActive

/-- The value R164 gives a frame that is j frames into a sub-range and held `old`: the samples of the active slots added
onto it in ascending slot order. -/
def State.mixed (s : State) (old : Word) (j : Nat) : Word :=
  s.activeSlots.foldl (fun acc n => fadd32 acc (sampleOf s.cfg (s.voice n) j)) old

/-- Nothing but the voice file differs: no register, no flag, no sequencer position, no byte of memory. -/
def OnlyVoices (s t : State) : Prop :=
  t = { s with voices := t.voices } ∧ ∀ a, t.readByte a = s.readByte a

/-- This step carries out a `PREPARE` that succeeds (R144): its unit of a posted command, or a `CMD` write of OP 0x01 to
the idle block, with a legal sample rate in `SR`. -/
def PreparesNow (s : State) : Prop :=
  sampleRateLegal s.sr = true
    ∧ ((s.mode = .preparing ∧ (s.moves = [] ∨ ∃ r, s.moves = .work :: r))
      ∨ (s.mode = .idle ∧ ∃ v r, s.moves = .write offCmd 4 v :: r ∧ cmdOp v = 0x01#8))

/-- This step is a reset (R230). -/
def ResetsNow (s : State) : Prop := ∃ r, s.moves = .reset :: r

/-- The offsets R52 leaves unmapped. -/
def Unmapped (c : Config) (a : Nat) : Prop :=
  (0x30 ≤ a ∧ a < 0x1000) ∨ (0x1400 ≤ a ∧ a < 0x2000) ∨ (0x2000 + 4 * c.L ≤ a ∧ a < 0x3000)
    ∨ (0x3200 ≤ a ∧ a < 0x8000) ∨ (0x8000 + 8 * c.maxEv ≤ a ∧ a < 0x100000)
    ∨ 0x100000 + 4 * (c.maxCh * c.maxBlen) ≤ a

/-- The state after an access that is answered without an error and changes nothing else. -/
def State.answered (s : State) (rest : List Move) (v : Word) : State :=
  { s with moves := rest, reply := some ⟨v, false⟩ }

/-- The state after a bus error (R56). -/
def State.refused (s : State) (rest : List Move) : State := { s with moves := rest, reply := some ⟨0, true⟩ }

/-- A fault record written over a state that held none (R202). -/
def State.faulted (s : State) (c : Cause) (index : Nat) : State :=
  { s with fault := true, cause := c, findex := BitVec.ofNat 16 index, mode := .idle }

end Sys2Proof.Machine
end

