-- ==== Sys2Proof/Certificates/Slice0/Obligations.lean ====
section
/-! DEFINITION. The statements about the machine, each from the rule of the spec its docstring names. -/

open Sys2Proof
open Sys2Proof.Machine

/-! ### Encoding -/

/-- R80–R85: decoding the bytes of an instruction's encoding gives the instruction, every field at every value. -/
def Obligations.DecodeOfEncodeIsIdentity : Prop :=
  ∀ i : Instr, decodeBytes (encode i) = .ok i

/-- R80–R87: every byte string that decodes is the encoding of what it decodes to, so no word has two readings and no
bit of a word is lost. -/
def Obligations.EncodeOfDecodeIsIdentity : Prop :=
  ∀ (bytes : List Byte) (i : Instr), decodeBytes bytes = .ok i → encode i = bytes

/-- R86 (1), (2): the decoders refuse exactly the opcodes the maps of R80 and R84 leave out, whatever the other bits
are, and say which opcode it was. -/
def Obligations.DecodersRefuseExactlyIllegalOpcodes : Prop :=
  (∀ (op : BitVec 8) (ign : BitVec 24),
    (op = 0x01#8 ∧ decodeCmd (cmdWord op ign) = .ok (.prepare ign))
      ∨ (op = 0x02#8 ∧ decodeCmd (cmdWord op ign) = .ok (.render ign))
      ∨ (op ≠ 0x01#8 ∧ op ≠ 0x02#8 ∧ decodeCmd (cmdWord op ign) = .error (.illegalCommand op)))
  ∧ (∀ (ty note vel ign : BitVec 8) (ts : Word),
    (ty = 0x01#8 ∧ decodeEvent (eventWord ty note vel ign ts) = .ok (.noteOn note vel ign ts))
      ∨ (ty = 0x02#8 ∧ decodeEvent (eventWord ty note vel ign ts) = .ok (.noteOff note vel ign ts))
      ∨ (ty = 0x03#8 ∧ decodeEvent (eventWord ty note vel ign ts) = .ok (.allNotesOff note vel ign ts))
      ∨ (ty ≠ 0x01#8 ∧ ty ≠ 0x02#8 ∧ ty ≠ 0x03#8
        ∧ decodeEvent (eventWord ty note vel ign ts) = .error (.illegalEvent ty)))

/-- The words of V-ENC-2, V-ENC-3, V-ENC-7, V-ENC-9 and V-ENC-13 decode to the instructions the spec's table gives. -/
def Obligations.SpecWordsDecode : Prop :=
  decodeTableWord 32 0xFFFFFF01 = some (.prepare 0xFFFFFF#24)
    ∧ decodeTableWord 32 0x00000102 = some (.render 0x000001#24)
    ∧ decodeTableWord 64 0x0000000A00403C01 = some (.noteOn 60#8 64#8 0#8 10#32)
    ∧ decodeTableWord 64 0x0000001E00003C02 = some (.noteOff 60#8 0#8 0#8 30#32)
    ∧ decodeTableWord 64 0x00000004AB007F03 = some (.allNotesOff 127#8 0#8 0xAB#8 4#32)

/-- R80, R82, R87: the length of every instruction's encoding, and its opcode in the byte at the lowest address. -/
def Obligations.EncodingHasItsLengthAndOpcodeByte : Prop :=
  ∀ i : Instr, Sys2Proof.Laws.OpcodeByte.Statement i

/-- R89: a line of the event syntax whose numbers fit assembles to a word that decodes to the event it names, the
omitted fields 0; a line with a number that does not fit is refused. -/
def Obligations.AssembledLineDecodesToItsEvent : Prop :=
  (∀ ts note vel : Nat,
    (ts < 2 ^ 32 ∧ note < 2 ^ 8 ∧ vel < 2 ^ 8 → ∃ w, (EventLine.noteOn ts note vel).assemble = some w
      ∧ decodeEvent w = .ok (.noteOn (BitVec.ofNat 8 note) (BitVec.ofNat 8 vel) 0#8 (BitVec.ofNat 32 ts)))
    ∧ (¬(ts < 2 ^ 32 ∧ note < 2 ^ 8 ∧ vel < 2 ^ 8) → (EventLine.noteOn ts note vel).assemble = none))
  ∧ (∀ ts note : Nat,
    (ts < 2 ^ 32 ∧ note < 2 ^ 8 → ∃ w, (EventLine.noteOff ts note).assemble = some w
      ∧ decodeEvent w = .ok (.noteOff (BitVec.ofNat 8 note) 0#8 0#8 (BitVec.ofNat 32 ts)))
    ∧ (¬(ts < 2 ^ 32 ∧ note < 2 ^ 8) → (EventLine.noteOff ts note).assemble = none))
  ∧ (∀ ts : Nat,
    (ts < 2 ^ 32 → ∃ w, (EventLine.allNotesOff ts).assemble = some w
      ∧ decodeEvent w = .ok (.allNotesOff 0#8 0#8 0#8 (BitVec.ofNat 32 ts)))
    ∧ (¬ts < 2 ^ 32 → (EventLine.allNotesOff ts).assemble = none))

/-- R89: the text of every event line, its numbers in decimal, reads back as the line (the lexical details are the model's
choice, assumption log 12). -/
def Obligations.EventTextReadsBack : Prop :=
  ∀ l : EventLine, EventLine.read l.text = some l

/-! ### Reset and invariants -/

/-- R230, R41: on reset every element takes its reset value, a command in progress is abandoned, the ROMs stay, and each
RAM byte is a new draw (the draw by reset number is the model's form of I3, assumption log 1). -/
def Obligations.ResetGivesEveryElementItsResetValue : Prop :=
  ∀ (s : State) (rest : List Move), s.moves = .reset :: rest →
    ∃ t, step s = .next t
      ∧ t.sr = 0x00000000#32 ∧ t.nch = 0x00000000#32 ∧ t.blen = 0x00000000#32 ∧ t.nev = 0x00000000#32
      ∧ t.sra = 0x00000000#32 ∧ t.status = 0x00000000#32 ∧ t.fault = false ∧ t.prepared = false
      ∧ t.cause = .noFault ∧ t.findex = 0#16 ∧ t.mode = .idle ∧ t.k = 0 ∧ t.cur = 0
      ∧ (∀ n, t.voice n = ⟨0x00000000#32, 0x00000000#32⟩)
      ∧ t.cfg = s.cfg ∧ (∀ a, t.readByte a = Config.ramDraw (s.epoch + 1) a) ∧ t.moves = rest

/-- R31, R22, R23, R52: the state after reset meets the three invariants, in every configuration. -/
def Obligations.ResetMeetsTheInvariants : Prop :=
  ∀ (c : Config) (e : Nat) (m : List Move),
    SeqInv (State.resetOf c e m) ∧ RamInv (State.resetOf c e m) ∧ VoiceInv (State.resetOf c e m)

/-- R31, R36, R81, R144, R160: every step keeps the agreement of the sequencer, the fault record and the latched sample
rate. -/
def Obligations.EveryStepKeepsSequencerInvariant : Prop :=
  ∀ s t : State, SeqInv s → step s = .next t → SeqInv t

/-- R52, R58: every step keeps the RAM contents in canonical form and inside the event and buffer windows. -/
def Obligations.EveryStepKeepsRamsCanonicalAndInside : Prop :=
  ∀ s t : State, SeqInv s → RamInv s → step s = .next t → RamInv t

/-- R22, R23, R118: every step keeps every PHASE finite, of sign 0 and below f32(L), and every INC finite and of sign 0,
for a `FREQ` ROM whose increments do not overflow. -/
def Obligations.EveryStepKeepsVoicesInRange : Prop :=
  ∀ s t : State, tameFreq s.cfg = true → SeqInv s → VoiceInv s → step s = .next t → VoiceInv t

/-- I14, R208: the block is never stuck: every step from every state answers a next state. -/
def Obligations.EveryStepAnswersANextState : Prop :=
  ∀ s : State, ∃ t, step s = .next t

/-- R34, R35, R112: no command, event, host access or reset writes a ROM or any other parameter. -/
def Obligations.NoStepWritesTheConfiguration : Prop :=
  ∀ s t : State, step s = .next t → t.cfg = s.cfg

/-! ### The events -/

/-- R170, R113: `NOTE_ON` completes; the slot's increment becomes fdiv32(fmul32(FREQ[NOTE], f32(L)), SRA), its phase is
kept, and nothing else changes. -/
def Obligations.NoteOnWritesTheIncrementOnly : Prop :=
  ∀ (s : State) (note vel ign : BitVec 8) (ts : Word) (n : Fin 128) (f : Word),
    note.toNat = n.val → s.cfg.freq[n.val]? = some f →
    ∃ t, exec (.noteOn note vel ign ts) s = .next t
      ∧ t.voice n = ⟨(s.voice n).phase, fdiv32 (fmul32 f (f32 s.cfg.L)) s.sra⟩
      ∧ (∀ m, m ≠ n → t.voice m = s.voice m) ∧ OnlyVoices s t

/-- R171, R116: `NOTE_OFF` completes; the slot's phase and increment become +0.0 and nothing else changes. -/
def Obligations.NoteOffStopsItsVoiceOnly : Prop :=
  ∀ (s : State) (note vel ign : BitVec 8) (ts : Word) (n : Fin 128), note.toNat = n.val →
    ∃ t, exec (.noteOff note vel ign ts) s = .next t
      ∧ t.voice n = ⟨0x00000000#32, 0x00000000#32⟩ ∧ t.isActive n = false
      ∧ (∀ m, m ≠ n → t.voice m = s.voice m) ∧ OnlyVoices s t

/-- R172: `ALL_NOTES_OFF` completes on every operand; every slot's phase and increment become +0.0 and nothing else
changes. -/
def Obligations.AllNotesOffStopsEveryVoice : Prop :=
  ∀ (s : State) (note vel ign : BitVec 8) (ts : Word),
    ∃ t, exec (.allNotesOff note vel ign ts) s = .next t
      ∧ (∀ n, t.voice n = ⟨0x00000000#32, 0x00000000#32⟩ ∧ t.isActive n = false) ∧ OnlyVoices s t

/-- Assumption log 4 (the model's choice where no run reaches): applied to a NOTE of 128..255, `NOTE_ON` and `NOTE_OFF`
take the fault the opcode table names for it, at the sequencer's event index. -/
def Obligations.EventNoteOutOfRangeTakesItsFault : Prop :=
  ∀ (s : State) (note vel ign : BitVec 8) (ts : Word), 128 ≤ note.toNat → s.fault = false →
    exec (.noteOn note vel ign ts) s = .next (s.faulted .invalidNote s.k)
      ∧ exec (.noteOff note vel ign ts) s = .next (s.faulted .invalidNote s.k)

/-- R80, R85: the ignored fields have no effect: VEL and bits [31:24] of every event, NOTE of an `ALL_NOTES_OFF`, bits
[31:8] of a command; and in the meaning of an event, which is applied at TS, neither has TS. -/
def Obligations.IgnoredFieldsHaveNoEffect : Prop :=
  (∀ (s : State) (note vel vel' ign ign' : BitVec 8) (ts ts' : Word),
    exec (.noteOn note vel ign ts) s = exec (.noteOn note vel' ign' ts') s
      ∧ exec (.noteOff note vel ign ts) s = exec (.noteOff note vel' ign' ts') s)
  ∧ (∀ (s : State) (note note' vel vel' ign ign' : BitVec 8) (ts ts' : Word),
    exec (.allNotesOff note vel ign ts) s = exec (.allNotesOff note' vel' ign' ts') s)
  ∧ (∀ (s : State) (ign ign' : BitVec 24),
    exec (.prepare ign) s = exec (.prepare ign') s ∧ exec (.render ign) s = exec (.render ign') s)

/-- R173: events with equal timestamps are applied in `EVQ` order: a `NOTE_ON` followed by a `NOTE_OFF` of its note leaves
the slot stopped, and the reverse order leaves it with the note's increment. -/
def Obligations.EqualTimestampsApplyInQueueOrder : Prop :=
  ∀ (s : State) (g : BitVec 24) (n : Fin 128), Renderable s → s.nev = 2#32 →
    (evNote (s.evq 0)).toNat = n.val → (evNote (s.evq 1)).toNat = n.val → evTs (s.evq 0) = evTs (s.evq 1) →
    (evType (s.evq 0) = 0x01#8 → evType (s.evq 1) = 0x02#8 →
      ∃ t, exec (.render g) s = .next t ∧ t.voice n = ⟨0x00000000#32, 0x00000000#32⟩)
    ∧ (evType (s.evq 0) = 0x02#8 → evType (s.evq 1) = 0x01#8 →
      ∃ t, exec (.render g) s = .next t ∧ (t.voice n).inc = incrementOf s.cfg (noteToFreq s.cfg n) s.sra)

/-! ### PREPARE -/

/-- R144: with `SR` finite and at least 1.0 `PREPARE` completes: `SRA` is loaded, every voice is silenced, `PREPARED` is
set, a held fault is cleared, `BUSY` is 0, and nothing else changes. (That K and CUR too stay as they were is the model's
choice, assumption log 8.) -/
def Obligations.PrepareLatchesALegalRate : Prop :=
  ∀ (s : State) (g : BitVec 24), isFinite s.sr = true → value 0x3F800000#32 ≤ value s.sr →
    ∃ t, exec (.prepare g) s = .next t
      ∧ t = { s with sra := s.sr, voices := t.voices, prepared := true, fault := false, cause := .noFault,
                     findex := 0#16, mode := .idle }
      ∧ (∀ n, t.voice n = ⟨0x00000000#32, 0x00000000#32⟩) ∧ t.status = 0x00000002#32
      ∧ ∀ a, t.readByte a = s.readByte a

/-- R144, R200: with `SR` a NaN, an infinity or below 1.0 `PREPARE` raises `INVALID_SAMPLE_RATE` and changes nothing else;
a fault already held stays (R206). -/
def Obligations.PrepareFaultsOnAnIllegalRate : Prop :=
  ∀ (s : State) (g : BitVec 24), isNaN s.sr = true ∨ isInf s.sr = true ∨ value s.sr < value 0x3F800000#32 →
    (s.fault = false → exec (.prepare g) s = .next (s.faulted .invalidSampleRate 0))
    ∧ (s.fault = true → exec (.prepare g) s = .next { s with mode := .idle })

/-- R30, R31, R206: only a `PREPARE` that succeeds and a reset change `SRA`, set or clear `PREPARED` or clear a held fault;
such a `PREPARE` also silences every voice, and no step but a reset clears `PREPARED`. -/
def Obligations.OnlyPrepareAndResetChangeRateAndRecover : Prop :=
  ∀ s t : State, step s = .next t → ¬ResetsNow s →
    (s.prepared = true → t.prepared = true)
    ∧ (PreparesNow s → t.sra = s.sr ∧ t.prepared = true ∧ t.fault = false
        ∧ ∀ n, t.voice n = ⟨0x00000000#32, 0x00000000#32⟩)
    ∧ (¬PreparesNow s → t.sra = s.sra ∧ t.prepared = s.prepared
        ∧ (s.fault = true → t.fault = true ∧ t.cause = s.cause ∧ t.findex = s.findex))

/-! ### RENDER: checks and faults -/

/-- R160, R204 (1): the checks of `RENDER` before its events: `NOT_PREPARED` first, then `INVALID_BLOCK_CONFIG`; each fault
changes nothing but the fault record and completes the command. -/
def Obligations.RenderChecksPreparationThenBlock : Prop :=
  ∀ (s : State) (g : BitVec 24), s.fault = false →
    (s.prepared = false → exec (.render g) s = .next (s.faulted .notPrepared 0))
    ∧ (s.prepared = true →
        (s.nch.toNat = 0 ∨ s.cfg.maxCh < s.nch.toNat ∨ s.cfg.maxBlen < s.blen.toNat ∨ s.cfg.maxEv < s.nev.toNat) →
        exec (.render g) s = .next (s.faulted .invalidBlockConfig 0))

/-- R161, R204 (2)–(4): of a block's events the first that fails a check faults the whole command with the cause of its
first failing check and its index; nothing is rendered and no event is applied. -/
def Obligations.RenderFaultsOnTheFirstBadEvent : Prop :=
  ∀ (s : State) (g : BitVec 24) (k : Nat) (c : Cause), s.fault = false → s.prepared = true → s.blockLegal = true →
    k < s.nev.toNat → FirstBad s k c → exec (.render g) s = .next (s.faulted c k)

/-- R81, R205: while a fault is held a written or posted `RENDER` and an illegal command have no effect at all: the block is as
before and `BUSY` is not set. (That the write is answered without an error is the model's reading of R208's list of bus errors,
DEDUCED, assumption log 14.) -/
def Obligations.HeldFaultDropsRenderAndIllegalCommands : Prop :=
  ∀ (s : State) (v : Word) (rest : List Move), s.fault = true → s.mode = .idle → cmdOp v ≠ 0x01#8 →
    (s.moves = .write offCmd 4 v :: rest ∨ s.moves = .post offCmd 4 v :: rest) →
    step s = .next (s.answered rest 0)

/-- R81, R86 (1), R200: an illegal command written to the idle, unfaulted block raises `ILLEGAL_COMMAND` with FINDEX 0 and changes
no other state of the block. (That the write is answered without an error is the model's reading of R208's list of bus errors,
DEDUCED, assumption log 14.) -/
def Obligations.IllegalCommandFaults : Prop :=
  ∀ (s : State) (v : Word) (rest : List Move), s.fault = false → s.mode = .idle →
    cmdOp v ≠ 0x01#8 → cmdOp v ≠ 0x02#8 →
    (s.moves = .write offCmd 4 v :: rest ∨ s.moves = .post offCmd 4 v :: rest) →
    step s = .next ((s.answered rest 0).faulted .illegalCommand 0)

/-- R202, R203: faults are precise: a step that raises one changes nothing but `FAULT`, `CAUSE` and `FINDEX`, `BUSY` (which falls)
and the bus response; the cause is one of R200's. (That K and CUR too stay as they were is the model's choice, assumption
log 8.) -/
def Obligations.FaultingStepWritesOnlyTheFaultRecord : Prop :=
  ∀ s t : State, step s = .next t → s.fault = false → t.fault = true →
    t.cause ≠ .noFault
    ∧ t = { s with moves := s.moves.tail, reply := t.reply, fault := true, cause := t.cause, findex := t.findex,
                   mode := .idle }

/-! ### RENDER: the block -/

/-- R160, R162: a `RENDER` of a legal block completes with the block rendered: the sub-range up to each event's timestamp,
then the event's effect, in `EVQ` order, then the last sub-range; no fault is raised and `BUSY` is 0. (The K and CUR it leaves are
the model's choice, assumption log 8.) -/
def Obligations.RenderRendersTheBlock : Prop :=
  ∀ (s : State) (g : BitVec 24), Renderable s →
    exec (.render g) s = .next s.blockResult ∧ s.blockResult.fault = false ∧ s.blockResult.mode = .idle

/-- R164, R166: within a sub-range that fits the buffer, each frame of channel 0 becomes the samples of the active slots
added in ascending slot order onto what it held. -/
def Obligations.RangeMixesActiveSlotsInOrder : Prop :=
  ∀ (s : State) (a b f : Nat), b ≤ s.cfg.maxBlen → a ≤ f → f < b →
    (s.renderRange a b).buf 0 f = s.mixed (s.buf 0 f) (f - a)

/-- R115, R164, R174: a sub-range advances each active voice by one sample for each frame and leaves its increment, and leaves
every inactive voice as it is. -/
def Obligations.RangeAdvancesActiveVoices : Prop :=
  ∀ (s : State) (a b : Nat), a ≤ b → ∀ n : Fin 128,
    (s.isActive n = true →
      (s.renderRange a b).voice n = ⟨phaseAfter s.cfg (s.voice n) (b - a), (s.voice n).inc⟩)
    ∧ (s.isActive n = false → (s.renderRange a b).voice n = s.voice n)

/-- R165: after a sub-range that fits the buffer every channel below `NCH` holds channel 0's words over the range, whatever
it held before. -/
def Obligations.RangeCopiesChannelZero : Prop :=
  ∀ (s : State) (a b f c : Nat), b ≤ s.cfg.maxBlen → a ≤ f → f < b → c < s.nch.toNat →
    (s.renderRange a b).buf c f = (s.renderRange a b).buf 0 f

/-- R165 and the source's property: after a `RENDER` of a legal block every channel below `NCH` is word for word channel 0 over
the whole block. -/
def Obligations.RenderedChannelsAreIdentical : Prop :=
  ∀ (s : State) (g : BitVec 24), Renderable s →
    ∃ t, exec (.render g) s = .next t ∧
      ∀ c f, c < s.nch.toNat → f < s.blen.toNat → t.buf c f = t.buf 0 f

/-- R58: a `RENDER` writes no byte outside `BUF[c][f]` for c < NCH and f < BLEN, so no word of `EVQ`, and no register but the
voice file, the sequencer's position and mode, and the fault record. -/
def Obligations.RenderWritesOnlyItsBlock : Prop :=
  ∀ (s t : State) (g : BitVec 24), exec (.render g) s = .next t →
    t = { s with fault := t.fault, cause := t.cause, findex := t.findex, mode := t.mode, k := t.k, cur := t.cur,
                 voices := t.voices, mem := t.mem }
    ∧ (∀ x, (∀ c f, c < s.nch.toNat → f < s.blen.toNat → x < bufAddr s.cfg c f ∨ bufAddr s.cfg c f + 4 ≤ x) →
        t.readByte x = s.readByte x)
    ∧ ∀ k, k < s.cfg.maxEv → t.evq k = s.evq k

/-- R160–R166, R174: a block without events is one sub-range [0, BLEN): every frame of every channel below `NCH` is the samples of the
active slots added in slot order onto channel 0's old content, and the voices go on from where they were. -/
def Obligations.EventFreeBlockIsOneSubRange : Prop :=
  ∀ (s : State) (g : BitVec 24), s.fault = false → s.prepared = true → s.blockLegal = true → s.nev = 0#32 →
    ∃ t, exec (.render g) s = .next t
      ∧ (∀ c f, c < s.nch.toNat → f < s.blen.toNat → t.buf c f = s.mixed (s.buf 0 f) f)
      ∧ (∀ n, s.isActive n = true → t.voice n = ⟨phaseAfter s.cfg (s.voice n) s.blen.toNat, (s.voice n).inc⟩)
      ∧ (∀ n, s.isActive n = false → t.voice n = s.voice n)
      ∧ t.mode = .idle ∧ t.fault = false

/-! ### Arithmetic -/

/-- R9: `fadd32` of finite operands is their sum rounded to nearest, ties to even; from the overflow bound on it is the
infinity of the sum's sign; an exact zero sum is +0.0 unless both operands are negative. (The sign of a zero sum and the
overflow to an infinity are IEEE 754's, which R9 names without spelling them out: DEDUCED, assumption log 15.) -/
def Obligations.AdditionRoundsToNearestEven : Prop :=
  ∀ a b : Word, isFinite a = true → isFinite b = true →
    ((value a + value b).natAbs < overflowUnits → IsRounding (fadd32 a b) (value a + value b) 1)
    ∧ (overflowUnits ≤ (value a + value b).natAbs →
        fadd32 a b = if value a + value b < 0 then 0xFF800000#32 else 0x7F800000#32)
    ∧ (value a + value b = 0 →
        fadd32 a b = if signBit a = true ∧ signBit b = true then 0x80000000#32 else 0x00000000#32)

/-- R9: `fmul32` and `fdiv32` of finite operands, the divisor not zero, are the product and the quotient rounded to nearest,
ties to even, and from the overflow bound on an infinity; the sign is minus exactly when the operands' signs differ.
(The rule of signs and the overflow to an infinity are IEEE 754's, which R9 names without spelling them out: DEDUCED, assumption
log 15.) -/
def Obligations.ProductsAndQuotientsRoundToNearestEven : Prop :=
  ∀ a b : Word, isFinite a = true → isFinite b = true →
    ((units a * units b < overflowUnits * 2 ^ 149 → IsRounding (fmul32 a b) (value a * value b) (2 ^ 149))
      ∧ (overflowUnits * 2 ^ 149 ≤ units a * units b → isInf (fmul32 a b) = true)
      ∧ (signBit (fmul32 a b) = true ↔ signBit a ≠ signBit b))
    ∧ (isZero b = false →
      (units a * 2 ^ 149 < overflowUnits * units b →
        IsRounding (fdiv32 a b) (if signBit b then -(value a) * 2 ^ 149 else value a * 2 ^ 149) (units b))
      ∧ (overflowUnits * units b ≤ units a * 2 ^ 149 → isInf (fdiv32 a b) = true)
      ∧ (signBit (fdiv32 a b) = true ↔ signBit a ≠ signBit b))

/-- R9: `fmod32` of finite operands, the divisor not zero, is exactly a − n·b for the quotient n truncated toward zero, and
has the sign of a. -/
def Obligations.RemainderIsExact : Prop :=
  ∀ a b : Word, isFinite a = true → isFinite b = true → isZero b = false →
    isFinite (fmod32 a b) = true ∧ value (fmod32 a b) = value a - (value a).tdiv (value b) * value b
      ∧ signBit (fmod32 a b) = signBit a

/-! ### The oscillator -/

/-- R120: with the default `TABLE` every sample at a phase in range is finite and at most 1.0 in magnitude. -/
def Obligations.DefaultTableOutputStaysInUnitRange : Prop :=
  ∀ v : Voice, v.inRange Config.default = true →
    isFinite (sampleAt Config.default v.phase) = true
      ∧ (value (sampleAt Config.default v.phase)).natAbs ≤ units 0x3F800000#32

/-- R118: `GET_SAMPLE` keeps a voice in range. -/
def Obligations.GetSampleKeepsItsVoiceInRange : Prop :=
  ∀ (s : State) (n : Fin 128), (s.voice n).inRange s.cfg = true →
    ((s.getSample n).2.voice n).inRange s.cfg = true

/-- R119: for a phase in range i0 = floor(p) and i1 = (i0 + 1) mod L index the table, and f32(i0) is exact. -/
def Obligations.PhaseInRangeIndexesTheTable : Prop :=
  ∀ (c : Config) (v : Voice), v.inRange c = true →
    0 ≤ floor32 v.phase ∧ floor32 v.phase < c.L
      ∧ 0 ≤ (floor32 v.phase + 1) % (c.L : Int) ∧ (floor32 v.phase + 1) % (c.L : Int) < c.L
      ∧ isFinite (f32 (floor32 v.phase)) = true ∧ value (f32 (floor32 v.phase)) = floor32 v.phase * 2 ^ 149

/-- R115 corner case (e), W4: at an integer phase the sample is the table entry itself, unless the entry is −0.0. -/
def Obligations.IntegerPhaseGivesTheTableEntry : Prop :=
  ∀ (c : Config) (i : Nat) (y : Word), c.table[i]? = some y → y ≠ 0x80000000#32 → sampleAt c (f32 i) = y

/-- R115 corner case (f), W2: a stopped voice's `GET_SAMPLE` gives TABLE[0] and leaves the voice as it is, so it does for ever,
unless TABLE[0] is −0.0. -/
def Obligations.StoppedVoiceStaysAtTableZero : Prop :=
  ∀ (s : State) (n : Fin 128) (y : Word), s.cfg.table[0]? = some y → y ≠ 0x80000000#32 →
    s.voice n = ⟨0x00000000#32, 0x00000000#32⟩ → (s.getSample n).1 = y ∧ (s.getSample n).2 = s

/-- R117: for a voice in range `IS_ACTIVE` is a test of the increment's bit pattern against zero. -/
def Obligations.ActiveIsANonzeroIncrementPattern : Prop :=
  ∀ (s : State) (n : Fin 128), (s.voice n).inRange s.cfg = true →
    (s.isActive n = true ↔ (s.voice n).inc ≠ 0x00000000#32)

/-- R113 corner case (b), R170: with the spec's own configuration and a legal `SRA`, every `NOTE_ON` makes its voice active. -/
def Obligations.NoteOnActivatesItsVoice : Prop :=
  ∀ (s : State) (note vel ign : BitVec 8) (ts : Word) (n : Fin 128), s.cfg = Config.default →
    sampleRateLegal s.sra = true → note.toNat = n.val →
    ∃ t, exec (.noteOn note vel ign ts) s = .next t ∧ t.isActive n = true ∧ isFinite (t.voice n).inc = true
      ∧ signBit (t.voice n).inc = false

/-! ### The host bus -/

/-- R31: the `STATUS` word: BUSY at bit 0, PREPARED at 1, FAULT at 2, CAUSE from 8, FINDEX from 16, all else 0. -/
def Obligations.StatusWordLayout : Prop :=
  ∀ s : State, s.status.toNat
    = s.findex.toNat * 2 ^ 16 + s.cause.code.toNat * 2 ^ 8 + (if s.fault then 4 else 0)
      + (if s.prepared then 2 else 0) + (if s.mode = .idle then 0 else 1)

/-- R52, R55: on the idle block a 4-byte read of each mapped offset answers the element there and changes nothing else. -/
def Obligations.ReadsFollowTheAddressMap : Prop :=
  ∀ (s : State) (off : Word) (rest : List Move), s.mode = .idle → s.moves = .read off 4 :: rest →
    (off = 0x0000#32 → step s = .next (s.answered rest 0x00000000#32))
    ∧ (off = 0x0004#32 → step s = .next (s.answered rest s.status))
    ∧ (off = 0x0008#32 → step s = .next (s.answered rest s.sr))
    ∧ (off = 0x000C#32 → step s = .next (s.answered rest s.nch))
    ∧ (off = 0x0010#32 → step s = .next (s.answered rest s.blen))
    ∧ (off = 0x0014#32 → step s = .next (s.answered rest s.nev))
    ∧ (off = 0x0018#32 → step s = .next (s.answered rest s.sra))
    ∧ (off = 0x001C#32 → step s = .next (s.answered rest (BitVec.ofNat 32 s.cfg.L)))
    ∧ (off = 0x0020#32 → step s = .next (s.answered rest 128#32))
    ∧ (off = 0x0024#32 → step s = .next (s.answered rest (BitVec.ofNat 32 s.cfg.maxCh)))
    ∧ (off = 0x0028#32 → step s = .next (s.answered rest (BitVec.ofNat 32 s.cfg.maxBlen)))
    ∧ (off = 0x002C#32 → step s = .next (s.answered rest (BitVec.ofNat 32 s.cfg.maxEv)))
    ∧ (∀ n : Fin 128, off.toNat = 0x1000 + 8 * n.val → step s = .next (s.answered rest (s.voice n).phase))
    ∧ (∀ n : Fin 128, off.toNat = 0x1004 + 8 * n.val → step s = .next (s.answered rest (s.voice n).inc))
    ∧ (∀ (i : Nat) (y : Word), s.cfg.table[i]? = some y → off.toNat = 0x2000 + 4 * i →
        step s = .next (s.answered rest y))
    ∧ (∀ (n : Nat) (y : Word), s.cfg.freq[n]? = some y → off.toNat = 0x3000 + 4 * n →
        step s = .next (s.answered rest y))
    ∧ (∀ k, k < s.cfg.maxEv → off.toNat = 0x8000 + 8 * k →
        step s = .next (s.answered rest ((s.evq k).extractLsb' 0 32)))
    ∧ (∀ k, k < s.cfg.maxEv → off.toNat = 0x8004 + 8 * k →
        step s = .next (s.answered rest ((s.evq k).extractLsb' 32 32)))
    ∧ (∀ c f, c < s.cfg.maxCh → f < s.cfg.maxBlen → off.toNat = 0x100000 + 4 * (c * s.cfg.maxBlen + f) →
        step s = .next (s.answered rest (s.buf c f)))

/-- R54, R56: an access of another width than 4 bytes, at an offset that is not a multiple of 4, or at an unmapped offset gets a bus
error and has no effect on the block, busy or idle. -/
def Obligations.BadAccessesGetBusErrors : Prop :=
  ∀ (s : State) (off v : Word) (width : Nat) (rest : List Move),
    (width ≠ 4 ∨ off.toNat % 4 ≠ 0 ∨ Unmapped s.cfg off.toNat) →
    (s.moves = .read off width :: rest ∨ s.moves = .write off width v :: rest ∨ s.moves = .post off width v :: rest) →
    step s = .next (s.refused rest)

/-- R56, R21: on the idle block a write of a read-only element is accepted and ignored; no host write reaches the voice file. -/
def Obligations.ReadOnlyWritesAreIgnored : Prop :=
  ∀ (s : State) (off v : Word) (rest : List Move), s.mode = .idle → off.toNat % 4 = 0 →
    (off.toNat = 0x04 ∨ (0x18 ≤ off.toNat ∧ off.toNat < 0x30) ∨ (0x1000 ≤ off.toNat ∧ off.toNat < 0x1400)
      ∨ (0x2000 ≤ off.toNat ∧ off.toNat < 0x2000 + 4 * s.cfg.L) ∨ (0x3000 ≤ off.toNat ∧ off.toNat < 0x3200)) →
    (s.moves = .write off 4 v :: rest ∨ s.moves = .post off 4 v :: rest) →
    step s = .next (s.answered rest 0)

/-- R26–R29, R55: a write of a configuration register, written or posted, loads all 32 bits, any pattern, and does nothing
else. -/
def Obligations.RegisterWritesLoadAnyPattern : Prop :=
  ∀ (s : State) (v : Word) (rest : List Move), s.mode = .idle →
    (s.moves = .write 0x0008#32 4 v :: rest ∨ s.moves = .post 0x0008#32 4 v :: rest →
        step s = .next { s.answered rest 0 with sr := v })
    ∧ (s.moves = .write 0x000C#32 4 v :: rest ∨ s.moves = .post 0x000C#32 4 v :: rest →
        step s = .next { s.answered rest 0 with nch := v })
    ∧ (s.moves = .write 0x0010#32 4 v :: rest ∨ s.moves = .post 0x0010#32 4 v :: rest →
        step s = .next { s.answered rest 0 with blen := v })
    ∧ (s.moves = .write 0x0014#32 4 v :: rest ∨ s.moves = .post 0x0014#32 4 v :: rest →
        step s = .next { s.answered rest 0 with nev := v })

/-- R53, R55: a write of a word of `EVQ` or `BUF`, written or posted, stores its four bytes little-endian at the offset and changes no other byte and
no register. -/
def Obligations.RamWritesStoreLittleEndianWords : Prop :=
  ∀ (s : State) (off v : Word) (rest : List Move), s.mode = .idle → off.toNat % 4 = 0 → inRam s.cfg off.toNat = true →
    (s.moves = .write off 4 v :: rest ∨ s.moves = .post off 4 v :: rest) →
    ∃ t, step s = .next t ∧ t = { s.answered rest 0 with mem := t.mem }
      ∧ (∀ j, j < 4 → t.readByte (off.toNat + j) = v.extractLsb' (8 * j) 8)
      ∧ ∀ x, x < off.toNat ∨ off.toNat + 4 ≤ x → t.readByte x = s.readByte x

/-- R59: after the two RAM words of event k were written or posted, low half at 0x8000+8k and high half at 0x8004+8k, the event word is the high
half over the low half. -/
def Obligations.EventWordIsItsTwoRamWords : Prop :=
  ∀ (s : State) (k : Nat) (lo hi : Word) (m m' : Move) (rest : List Move), s.mode = .idle → k < s.cfg.maxEv →
    (m = .write (BitVec.ofNat 32 (0x8000 + 8 * k)) 4 lo ∨ m = .post (BitVec.ofNat 32 (0x8000 + 8 * k)) 4 lo) →
    (m' = .write (BitVec.ofNat 32 (0x8004 + 8 * k)) 4 hi ∨ m' = .post (BitVec.ofNat 32 (0x8004 + 8 * k)) 4 hi) →
    s.moves = m :: m' :: rest →
    ∃ t u, step s = .next t ∧ step t = .next u ∧ u.evq k = hi ++ lo
      ∧ ∀ j, j ≠ k → j < s.cfg.maxEv → u.evq j = s.evq j

/-- R57: while `BUSY` = 1 the host may read `STATUS`, the constants, `TABLE` and `FREQ`; every other read and every write, to `CMD` too,
gets a bus error and has no effect. -/
def Obligations.BusyRefusesTheHost : Prop :=
  ∀ (s : State) (off v : Word) (width : Nat) (rest : List Move), s.mode ≠ .idle →
    (s.moves = .write off width v :: rest ∨ s.moves = .post off width v :: rest → step s = .next (s.refused rest))
    ∧ (s.moves = .read off 4 :: rest →
        (off = 0x0004#32 → step s = .next (s.answered rest s.status))
        ∧ (off = 0x001C#32 → step s = .next (s.answered rest (BitVec.ofNat 32 s.cfg.L)))
        ∧ (off = 0x0020#32 → step s = .next (s.answered rest 128#32))
        ∧ (off = 0x0024#32 → step s = .next (s.answered rest (BitVec.ofNat 32 s.cfg.maxCh)))
        ∧ (off = 0x0028#32 → step s = .next (s.answered rest (BitVec.ofNat 32 s.cfg.maxBlen)))
        ∧ (off = 0x002C#32 → step s = .next (s.answered rest (BitVec.ofNat 32 s.cfg.maxEv)))
        ∧ (∀ (i : Nat) (y : Word), s.cfg.table[i]? = some y → off.toNat = 0x2000 + 4 * i →
            step s = .next (s.answered rest y))
        ∧ (∀ (n : Nat) (y : Word), s.cfg.freq[n]? = some y → off.toNat = 0x3000 + 4 * n →
            step s = .next (s.answered rest y))
        ∧ (off.toNat = 0x0000 ∨ (0x0008 ≤ off.toNat ∧ off.toNat < 0x001C)
            ∨ (0x1000 ≤ off.toNat ∧ off.toNat < 0x1400) ∨ 0x8000 ≤ off.toNat →
            step s = .next (s.refused rest)))

/-- R63: while `BUSY` = 1 the host can observe no intermediate state: any access is answered alike in any two busy states of one
configuration with the same `STATUS` word, whatever else of the command's work differs. -/
def Obligations.BusyHidesTheCommandsWork : Prop :=
  ∀ (s s' t t' : State) (m : Move) (rest rest' : List Move), s.mode ≠ .idle → s'.mode ≠ .idle → s.cfg = s'.cfg →
    s.status = s'.status → s.moves = m :: rest → s'.moves = m :: rest' → m ≠ .work → m ≠ .reset →
    step s = .next t → step s' = .next t' → t.reply = t'.reply

/-! ### The step -/

/-- R162: when a render stands at an event that passes its checks, one step of the sequencer renders the sub-range up to the event's
timestamp, runs the instruction the event word decodes to, and moves on. (That one step is one event with its sub-range is the
model's choice, assumption log 13.) -/
def Obligations.StepRunsTheFetchedEvent : Prop :=
  ∀ (s : State) (i : Instr) (rest : List Move), s.mode = .rendering → s.k < s.nev.toNat →
    (s.moves = [] ∧ rest = [] ∨ s.moves = .work :: rest) →
    eventFault s.blen.toNat s.cur (s.evq s.k) = none → decodeEvent (s.evq s.k) = .ok i →
    step s = thenNext (exec i (({ s with moves := rest } : State).renderRange s.cur i.ts.toNat))
      (fun t => .next { t with k := t.k + 1, cur := i.ts.toNat })

/-- R81: a `CMD` write to the idle block whose value decodes runs that command: a `write` move carries it out whole in its
step; a `post` move starts it, so that `BUSY` is 1 from the write on (R40, R144, R160) with MODE PREPARING for a `PREPARE` and,
with no fault held, MODE VALIDATING for a `RENDER`, and nothing else changed. (The two moves are the model's form of the host's
timing, assumption log 2; that a `RENDER` is VALIDATING from its write on is the model's choice, assumption log 19; that the
write is answered without an error is DEDUCED from R208, assumption log 14.) -/
def Obligations.StepRunsTheWrittenCommand : Prop :=
  ∀ (s : State) (v : Word) (rest : List Move), s.mode = .idle →
    (∀ i, s.moves = .write offCmd 4 v :: rest → decodeCmd v = .ok i → step s = exec i (s.answered rest 0))
    ∧ (∀ g, s.moves = .post offCmd 4 v :: rest → decodeCmd v = .ok (.prepare g) →
        step s = .next { s.answered rest 0 with mode := .preparing })
    ∧ (∀ g, s.moves = .post offCmd 4 v :: rest → decodeCmd v = .ok (.render g) → s.fault = false →
        step s = .next { s.answered rest 0 with mode := .validating })

/-- R63, R162: a command posted and then worked off unit by unit, its events one a step, leaves the block in the state in which the
same command written and carried out at one point leaves it. (The size of a unit and the K and CUR left are the model's choice,
assumption logs 13 and 8; the two moves are its form of the host's timing, assumption log 2.) -/
def Obligations.PostedCommandEqualsWrittenCommand : Prop :=
  ∀ (s : State) (v : Word) (rest : List Move), s.mode = .idle →
    Sys2Proof.core.run (s.nev.toNat + 3)
        { s with moves := .post offCmd 4 v :: (List.replicate (s.nev.toNat + 2) .work ++ rest) }
      = step { s with moves := .write offCmd 4 v :: rest }

/-- R239, R176: every command completes: with no host access waiting the sequencer reaches `BUSY` = 0 within NEV + 2 units of work.
(R239 gives no count: NEV + 2 counts the model's units, whose size is its choice, assumption log 13.) -/
def Obligations.EveryCommandCompletes : Prop :=
  ∀ s : State, s.moves = [] →
    ∃ n t, n ≤ s.nev.toNat + 2 ∧ Sys2Proof.core.run n s = .next t ∧ t.mode = .idle
end

