-- ==== Sys2Proof/Laws/Binary32.lean ====
section
/-! SUPPORT. The laws of binary32 rounding (R6, R9): the fields of a rounded pattern, that rounding is exact on a
representable magnitude, and that rounding is monotone. Bounds on results follow from these three. -/

namespace Sys2Proof.Machine

/-! ### Fields -/

/-- Bits [30:0] of a pattern. -/
def magBits (w : Word) : Nat := expField w * 2 ^ 23 + fracField w

theorem expField_lt (w : Word) : expField w < 256 := (w.extractLsb' 23 8).isLt

theorem fracField_lt (w : Word) : fracField w < 2 ^ 23 := (w.extractLsb' 0 23).isLt

theorem expField_eq (w : Word) : expField w = w.toNat / 2 ^ 23 % 256 := by
  simp [expField, BitVec.extractLsb'_toNat, Nat.shiftRight_eq_div_pow]

theorem fracField_eq (w : Word) : fracField w = w.toNat % 2 ^ 23 := by
  simp [fracField, BitVec.extractLsb'_toNat]

theorem signBit_eq (w : Word) : signBit w = decide (2 ^ 31 ≤ w.toNat) := by
  have h := w.isLt
  simp only [signBit, BitVec.getLsbD, Nat.testBit_eq_decide_div_mod_eq]
  congr 1
  apply propext
  constructor <;> intro h' <;> omega

/-- A pattern is its sign bit over its other bits. -/
theorem toNat_eq (w : Word) : w.toNat = magBits w + if signBit w then 2 ^ 31 else 0 := by
  have h := w.isLt
  rw [signBit_eq, magBits, expField_eq, fracField_eq]
  split <;> simp_all only [not_le, decide_eq_true_eq] <;> omega

theorem expField_ofNat {m : Nat} (h : m < 2 ^ 31) (neg : Bool) :
    expField (BitVec.ofNat 32 (m + if neg then 2 ^ 31 else 0)) = m / 2 ^ 23 := by
  rw [expField_eq, BitVec.toNat_ofNat]
  cases neg <;> simp <;> omega

theorem fracField_ofNat {m : Nat} (neg : Bool) :
    fracField (BitVec.ofNat 32 (m + if neg then 2 ^ 31 else 0)) = m % 2 ^ 23 := by
  rw [fracField_eq, BitVec.toNat_ofNat]
  cases neg
  all_goals simp
  all_goals omega

theorem signBit_ofNat {m : Nat} (h : m < 2 ^ 31) (neg : Bool) :
    signBit (BitVec.ofNat 32 (m + if neg then 2 ^ 31 else 0)) = neg := by
  rw [signBit_eq, BitVec.toNat_ofNat]
  cases neg <;> simp <;> omega

theorem magBits_ofNat {m : Nat} (h : m < 2 ^ 31) (neg : Bool) :
    magBits (BitVec.ofNat 32 (m + if neg then 2 ^ 31 else 0)) = m := by
  rw [magBits, expField_ofNat h, fracField_ofNat]
  omega

theorem isFinite_iff (w : Word) : isFinite w = true ↔ magBits w < 0x7F800000 := by
  have h1 := expField_lt w
  have h2 := fracField_lt w
  simp only [isFinite, magBits, bne_iff_ne]
  omega

theorem isNaN_iff (w : Word) : isNaN w = true ↔ 0x7F800000 < magBits w := by
  have h1 := expField_lt w
  have h2 := fracField_lt w
  simp only [isNaN, magBits, Bool.and_eq_true, beq_iff_eq, bne_iff_ne]
  omega

theorem isInf_iff (w : Word) : isInf w = true ↔ magBits w = 0x7F800000 := by
  have h1 := expField_lt w
  have h2 := fracField_lt w
  simp only [isInf, magBits, Bool.and_eq_true, beq_iff_eq]
  omega

theorem isZero_iff (w : Word) : isZero w = true ↔ magBits w = 0 := by
  simp only [isZero, magBits, Bool.and_eq_true, beq_iff_eq]
  omega

theorem isNaN_of_isFinite {w : Word} (h : isFinite w = true) : isNaN w = false := by
  rw [isFinite_iff] at h
  rw [Bool.eq_false_iff, Ne, isNaN_iff]
  omega

theorem isInf_of_isFinite {w : Word} (h : isFinite w = true) : isInf w = false := by
  rw [isFinite_iff] at h
  rw [Bool.eq_false_iff, Ne, isInf_iff]
  omega

/-! ### Magnitudes -/

/-- The magnitude of bits [30:0], in units of 2^-149. -/
def magUnits (m : Nat) : Nat := if m < 2 ^ 23 then m else (2 ^ 23 + m % 2 ^ 23) * 2 ^ (m / 2 ^ 23 - 1)

theorem units_eq (w : Word) : units w = magUnits (magBits w) := by
  have h2 := fracField_lt w
  have hd : magBits w / 2 ^ 23 = expField w := by unfold magBits; omega
  have hm : magBits w % 2 ^ 23 = fracField w := by unfold magBits; omega
  unfold units magUnits
  rw [hd, hm]
  by_cases h : expField w = 0
  · have : magBits w = fracField w := by unfold magBits; omega
    rw [if_pos h, if_pos (by omega), this]
  · have : ¬ magBits w < 2 ^ 23 := by unfold magBits; omega
    rw [if_neg h, if_neg this]

theorem magUnits_lt_succ (m : Nat) : magUnits m < magUnits (m + 1) := by
  unfold magUnits
  by_cases h1 : m + 1 < 2 ^ 23
  · rw [if_pos h1, if_pos (by omega)]
    omega
  · by_cases h0 : m < 2 ^ 23
    · have : m = 2 ^ 23 - 1 := by omega
      subst this
      decide
    · rw [if_neg h0, if_neg h1]
      by_cases hc : (m + 1) % 2 ^ 23 = 0
      · have e1 : (m + 1) / 2 ^ 23 - 1 = (m / 2 ^ 23 - 1) + 1 := by omega
        have e2 : m % 2 ^ 23 = 2 ^ 23 - 1 := by omega
        have e3 : 2 ^ (m / 2 ^ 23 - 1 + 1) = 2 ^ (m / 2 ^ 23 - 1) * 2 := Nat.pow_succ ..
        rw [hc, e1, e2, e3]
        have hp : 0 < 2 ^ (m / 2 ^ 23 - 1) := Nat.two_pow_pos _
        generalize 2 ^ (m / 2 ^ 23 - 1) = p at hp
        omega
      · have e1 : (m + 1) / 2 ^ 23 - 1 = m / 2 ^ 23 - 1 := by omega
        rw [e1]
        exact Nat.mul_lt_mul_of_pos_right (by omega) (Nat.two_pow_pos _)

theorem magUnits_strictMono : StrictMono magUnits := strictMono_nat_of_lt_succ magUnits_lt_succ

theorem magUnits_zero : magUnits 0 = 0 := by decide

/-- A finite pattern of magnitude zero is a zero. -/
theorem units_eq_zero (w : Word) : units w = 0 ↔ isZero w = true := by
  rw [units_eq, isZero_iff]
  constructor
  · intro h
    by_contra hne
    have := magUnits_strictMono (Nat.pos_of_ne_zero hne)
    rw [magUnits_zero] at this
    omega
  · intro h
    rw [h, magUnits_zero]

/-! ### Rounding to the nearest integer -/

theorem roundHalfEven_le {n d m : Nat} (hd : 0 < d) (h : n ≤ m * d) : roundHalfEven n d ≤ m := by
  have hm := Nat.div_add_mod n d
  have hr := Nat.mod_lt n hd
  have hq : n / d ≤ m := Nat.div_le_of_le_mul (by rwa [Nat.mul_comm])
  rcases Nat.lt_or_ge (n / d) m with hlt | hge
  · unfold roundHalfEven
    dsimp only
    split_ifs <;> omega
  · have he : n / d = m := by omega
    rw [he] at hm
    have h0 : n % d = 0 := by rw [Nat.mul_comm] at h; omega
    simp only [roundHalfEven, h0, he]
    simp [hd]

theorem le_roundHalfEven {n d m : Nat} (hd : 0 < d) (h : m * d ≤ n) : m ≤ roundHalfEven n d := by
  have hq : m ≤ n / d := (Nat.le_div_iff_mul_le hd).2 h
  unfold roundHalfEven
  dsimp only
  split_ifs <;> omega

theorem roundHalfEven_exact {d : Nat} (m : Nat) (hd : 0 < d) : roundHalfEven (m * d) d = m :=
  Nat.le_antisymm (roundHalfEven_le hd (Nat.le_refl _)) (le_roundHalfEven hd (Nat.le_refl _))

/-- Rounding to the nearest integer is monotone in the ratio. -/
theorem roundHalfEven_mono {n₁ d₁ n₂ d₂ : Nat} (h₁ : 0 < d₁) (h₂ : 0 < d₂) (h : n₁ * d₂ ≤ n₂ * d₁) :
    roundHalfEven n₁ d₁ ≤ roundHalfEven n₂ d₂ := by
  have e₁ := Nat.div_add_mod n₁ d₁
  have e₂ := Nat.div_add_mod n₂ d₂
  have r₁ := Nat.mod_lt n₁ h₁
  have r₂ := Nat.mod_lt n₂ h₂
  have hq : n₁ / d₁ ≤ n₂ / d₂ := by
    rw [Nat.le_div_iff_mul_le h₂]
    have : n₁ / d₁ * d₂ * d₁ ≤ n₂ * d₁ := by
      calc n₁ / d₁ * d₂ * d₁ = (d₁ * (n₁ / d₁)) * d₂ := by ring
        _ ≤ n₁ * d₂ := Nat.mul_le_mul_right _ (by omega)
        _ ≤ n₂ * d₁ := h
    exact Nat.le_of_mul_le_mul_right this h₁
  rcases Nat.lt_or_ge (n₁ / d₁) (n₂ / d₂) with hlt | hge
  · unfold roundHalfEven
    dsimp only
    split_ifs <;> omega
  · have he : n₁ / d₁ = n₂ / d₂ := by omega
    have hr : (n₁ % d₁) * d₂ ≤ (n₂ % d₂) * d₁ := by
      rw [he] at e₁
      generalize n₂ / d₂ = q at *
      generalize n₁ % d₁ = a at *
      generalize n₂ % d₂ = b at *
      rw [← e₁, ← e₂] at h
      nlinarith
    have up : d₁ ≤ 2 * (n₁ % d₁) → d₂ ≤ 2 * (n₂ % d₂) := by
      intro hu
      by_contra hc
      have : 2 * (n₂ % d₂) * d₁ < d₂ * d₁ := Nat.mul_lt_mul_of_pos_right (by omega) h₁
      nlinarith
    have ups : d₁ < 2 * (n₁ % d₁) → d₂ < 2 * (n₂ % d₂) := by
      intro hu
      by_contra hc
      have : d₁ * d₂ < 2 * (n₁ % d₁) * d₂ := Nat.mul_lt_mul_of_pos_right hu h₂
      have : 2 * (n₂ % d₂) * d₁ ≤ d₂ * d₁ := Nat.mul_le_mul_right _ (by omega)
      nlinarith
    unfold roundHalfEven
    dsimp only
    rw [he]
    split_ifs <;> omega

/-! ### Rounding to binary32 -/

theorem roundMag_le_inf (n d : Nat) : roundMag n d ≤ 0x7F800000 := Nat.min_le_right _ _

theorem roundMag_lt (n d : Nat) : roundMag n d < 2 ^ 31 :=
  Nat.lt_of_le_of_lt (roundMag_le_inf n d) (by decide)

theorem scale_pos {d : Nat} (hd : 0 < d) (k : Nat) : 0 < d * 2 ^ k := Nat.mul_pos hd (Nat.two_pow_pos k)

/-- Beyond 24 bits of quotient the rounded significand keeps its leading bit. -/
theorem significand_ge {n d : Nat} (hd : 0 < d) (hk : 0 < Nat.log2 (n / d) - 23) :
    2 ^ 23 ≤ roundHalfEven n (d * 2 ^ (Nat.log2 (n / d) - 23)) := by
  apply le_roundHalfEven (scale_pos hd _)
  have hne : n / d ≠ 0 := by intro h; rw [h] at hk; simp at hk
  have h1 := Nat.log2_self_le hne
  have h2 : 2 ^ 23 * 2 ^ (Nat.log2 (n / d) - 23) = 2 ^ Nat.log2 (n / d) := by
    rw [← Nat.pow_add]; congr 1; omega
  calc 2 ^ 23 * (d * 2 ^ (Nat.log2 (n / d) - 23)) = 2 ^ Nat.log2 (n / d) * d := by rw [← h2]; ring
    _ ≤ n / d * d := Nat.mul_le_mul_right _ h1
    _ ≤ n := Nat.div_mul_le_self n d

theorem significand_le {n d : Nat} (hd : 0 < d) :
    roundHalfEven n (d * 2 ^ (Nat.log2 (n / d) - 23)) ≤ 2 ^ 24 := by
  apply roundHalfEven_le (scale_pos hd _)
  have h1 : n / d < 2 ^ (Nat.log2 (n / d) + 1) := Nat.lt_log2_self
  have h2 : 2 ^ (Nat.log2 (n / d) + 1) ≤ 2 ^ 24 * 2 ^ (Nat.log2 (n / d) - 23) := by
    rw [← Nat.pow_add]; exact Nat.pow_le_pow_right (by decide) (by omega)
  have h3 : n < d * (n / d + 1) := Nat.lt_mul_div_succ n hd
  calc n ≤ d * (n / d + 1) := Nat.le_of_lt h3
    _ ≤ d * (2 ^ 24 * 2 ^ (Nat.log2 (n / d) - 23)) := Nat.mul_le_mul_left _ (by omega)
    _ = 2 ^ 24 * (d * 2 ^ (Nat.log2 (n / d) - 23)) := by ring

/-- Rounding to binary32 is monotone in the ratio. -/
theorem roundMag_mono {n₁ d₁ n₂ d₂ : Nat} (h₁ : 0 < d₁) (h₂ : 0 < d₂) (h : n₁ * d₂ ≤ n₂ * d₁) :
    roundMag n₁ d₁ ≤ roundMag n₂ d₂ := by
  have hq : n₁ / d₁ ≤ n₂ / d₂ := by
    rw [Nat.le_div_iff_mul_le h₂]
    have : n₁ / d₁ * d₂ * d₁ ≤ n₂ * d₁ := by
      calc n₁ / d₁ * d₂ * d₁ = (n₁ / d₁ * d₁) * d₂ := by ring
        _ ≤ n₁ * d₂ := Nat.mul_le_mul_right _ (Nat.div_mul_le_self _ _)
        _ ≤ n₂ * d₁ := h
    exact Nat.le_of_mul_le_mul_right this h₁
  have hl : Nat.log2 (n₁ / d₁) ≤ Nat.log2 (n₂ / d₂) := by
    rw [Nat.log2_eq_log_two, Nat.log2_eq_log_two]
    exact Nat.log_mono_right hq
  have key : (Nat.log2 (n₁ / d₁) - 23) * 2 ^ 23 + roundHalfEven n₁ (d₁ * 2 ^ (Nat.log2 (n₁ / d₁) - 23))
      ≤ (Nat.log2 (n₂ / d₂) - 23) * 2 ^ 23 + roundHalfEven n₂ (d₂ * 2 ^ (Nat.log2 (n₂ / d₂) - 23)) := by
    rcases Nat.lt_or_ge (Nat.log2 (n₁ / d₁) - 23) (Nat.log2 (n₂ / d₂) - 23) with hlt | hge
    · have a := significand_le (n := n₁) h₁
      have b := significand_ge (n := n₂) h₂ (by omega)
      omega
    · have he : Nat.log2 (n₁ / d₁) - 23 = Nat.log2 (n₂ / d₂) - 23 := by omega
      rw [he]
      refine Nat.add_le_add_left (roundHalfEven_mono (scale_pos h₁ _) (scale_pos h₂ _) ?_) _
      calc n₁ * (d₂ * 2 ^ (Nat.log2 (n₂ / d₂) - 23)) = (n₁ * d₂) * 2 ^ (Nat.log2 (n₂ / d₂) - 23) := by ring
        _ ≤ (n₂ * d₁) * 2 ^ (Nat.log2 (n₂ / d₂) - 23) := Nat.mul_le_mul_right _ h
        _ = n₂ * (d₁ * 2 ^ (Nat.log2 (n₂ / d₂) - 23)) := by ring
  exact Nat.le_min.2 ⟨Nat.le_trans (Nat.min_le_left _ _) key, Nat.min_le_right _ _⟩

/-- A representable magnitude is rounded to itself. -/
theorem roundMag_magUnits {m : Nat} (hm : m ≤ 0x7F800000) : roundMag (magUnits m) 1 = m := by
  unfold roundMag
  simp only [Nat.div_one, Nat.one_mul]
  by_cases h : m < 2 ^ 23
  · have hu : magUnits m = m := by unfold magUnits; rw [if_pos h]
    have hk : Nat.log2 m - 23 = 0 := by
      have : Nat.log2 m < 24 := by
        rcases Nat.eq_zero_or_pos m with rfl | hp
        · decide
        · exact (Nat.log2_lt (by omega)).2 (by omega)
      omega
    rw [hu, hk]
    have := roundHalfEven_exact (d := 1) m (by decide)
    simp only [Nat.mul_one] at this
    simp [this]
    omega
  · have hu : magUnits m = (2 ^ 23 + m % 2 ^ 23) * 2 ^ (m / 2 ^ 23 - 1) := by
      unfold magUnits; rw [if_neg h]
    have hf : m % 2 ^ 23 < 2 ^ 23 := Nat.mod_lt _ (by decide)
    have hk : Nat.log2 (magUnits m) = 23 + (m / 2 ^ 23 - 1) := by
      rw [hu, Nat.log2_eq_iff (by positivity)]
      have hp : 0 < 2 ^ (m / 2 ^ 23 - 1) := Nat.two_pow_pos _
      constructor
      · rw [Nat.pow_add]; exact Nat.mul_le_mul_right _ (by omega)
      · rw [show 23 + (m / 2 ^ 23 - 1) + 1 = 24 + (m / 2 ^ 23 - 1) by omega, Nat.pow_add]
        exact Nat.mul_lt_mul_of_pos_right (by omega) hp
    rw [hk, show 23 + (m / 2 ^ 23 - 1) - 23 = m / 2 ^ 23 - 1 by omega, hu,
      roundHalfEven_exact _ (Nat.two_pow_pos _)]
    omega

/-- A magnitude no larger than a representable one is rounded to one no larger. -/
theorem roundMag_le_of_le {n d m : Nat} (hd : 0 < d) (hm : m ≤ 0x7F800000) (h : n ≤ magUnits m * d) :
    roundMag n d ≤ m := by
  rw [← roundMag_magUnits hm]
  exact roundMag_mono hd (by decide) (by simpa using h)

/-- A magnitude no smaller than a representable one is rounded to one no smaller. -/
theorem le_roundMag_of_le {n d m : Nat} (hd : 0 < d) (hm : m ≤ 0x7F800000) (h : magUnits m * d ≤ n) :
    m ≤ roundMag n d := by
  rw [← roundMag_magUnits hm]
  exact roundMag_mono (by decide) hd (by simpa using h)

@[simp] theorem signBit_roundWord (neg : Bool) (n d : Nat) : signBit (roundWord neg n d) = neg :=
  signBit_ofNat (roundMag_lt n d) neg

@[simp] theorem magBits_roundWord (neg : Bool) (n d : Nat) : magBits (roundWord neg n d) = roundMag n d :=
  magBits_ofNat (roundMag_lt n d) neg

theorem units_roundWord (neg : Bool) (n d : Nat) : units (roundWord neg n d) = magUnits (roundMag n d) := by
  rw [units_eq, magBits_roundWord]

/-- A rounded pattern is no NaN. -/
theorem isNaN_roundWord (neg : Bool) (n d : Nat) : isNaN (roundWord neg n d) = false := by
  rw [Bool.eq_false_iff, Ne, isNaN_iff, magBits_roundWord]
  have := roundMag_le_inf n d
  omega

theorem isFinite_roundWord (neg : Bool) (n d : Nat) :
    isFinite (roundWord neg n d) = true ↔ roundMag n d < 0x7F800000 := by
  rw [isFinite_iff, magBits_roundWord]

/-- Rounding the magnitude of a finite pattern under its own sign gives the pattern. -/
theorem roundWord_units {w : Word} (h : isFinite w = true) : roundWord (signBit w) (units w) 1 = w := by
  rw [isFinite_iff] at h
  apply BitVec.eq_of_toNat_eq
  rw [toNat_eq, toNat_eq w, magBits_roundWord, signBit_roundWord, units_eq, roundMag_magUnits (by omega)]

/-- Two patterns with the same sign and the same other bits are equal. -/
theorem word_ext {a b : Word} (hs : signBit a = signBit b) (hm : magBits a = magBits b) : a = b := by
  apply BitVec.eq_of_toNat_eq
  rw [toNat_eq, toNat_eq b, hs, hm]

end Sys2Proof.Machine
end

