-- ==== Sys2Proof/Laws/Arith.lean ====
section
/-! SUPPORT. One lemma for each numeric primitive of R9 on the operands the block's rules give it: what the result's
sign and magnitude are, and which results are exact. -/

namespace Sys2Proof.Machine

/-! ### Representable magnitudes -/

/-- A 24-bit significand at any exponent is a magnitude of the format. -/
theorem representable {m : Nat} (hm : m < 2 ^ 24) (e : Nat) : ∃ b, magUnits b = m * 2 ^ e := by
  induction e generalizing m with
  | zero =>
    by_cases h : m < 2 ^ 23
    · exact ⟨m, by unfold magUnits; rw [if_pos h]; simp⟩
    · refine ⟨m, ?_⟩
      unfold magUnits
      rw [if_neg h, show m / 2 ^ 23 - 1 = 0 by omega]
      omega
  | succ e ih =>
    by_cases h : m < 2 ^ 23
    · obtain ⟨b, hb⟩ := ih (m := 2 * m) (by omega)
      exact ⟨b, by rw [hb, Nat.pow_succ]; ring⟩
    · refine ⟨(e + 2) * 2 ^ 23 + (m - 2 ^ 23), ?_⟩
      unfold magUnits
      rw [if_neg (by omega), show ((e + 2) * 2 ^ 23 + (m - 2 ^ 23)) % 2 ^ 23 = m - 2 ^ 23 by omega,
        show ((e + 2) * 2 ^ 23 + (m - 2 ^ 23)) / 2 ^ 23 - 1 = e + 1 by omega,
        show 2 ^ 23 + (m - 2 ^ 23) = m by omega]

/-- A finite pattern's magnitude is a 24-bit significand at an exponent. -/
theorem units_significand (w : Word) : ∃ m e, m < 2 ^ 24 ∧ units w = m * 2 ^ e := by
  have h2 := fracField_lt w
  unfold units
  split
  · exact ⟨fracField w, 0, by omega, by simp⟩
  · exact ⟨2 ^ 23 + fracField w, expField w - 1, by omega, rfl⟩

/-- The magnitude of the infinities: above every finite one. -/
theorem units_lt_inf {w : Word} (h : isFinite w = true) : units w < magUnits 0x7F800000 := by
  rw [units_eq]
  exact magUnits_strictMono ((isFinite_iff w).1 h)

/-- Rounding is exact on a significand of the format below infinity. -/
theorem roundMag_exact {m e : Nat} (hm : m < 2 ^ 24) (hlt : m * 2 ^ e < magUnits 0x7F800000) :
    magUnits (roundMag (m * 2 ^ e) 1) = m * 2 ^ e ∧ roundMag (m * 2 ^ e) 1 < 0x7F800000 := by
  obtain ⟨b, hb⟩ := representable hm e
  have hb' : b < 0x7F800000 := by rw [← hb] at hlt; exact magUnits_strictMono.lt_iff_lt.1 hlt
  rw [← hb, roundMag_magUnits (by omega)]
  exact ⟨rfl, hb'⟩

/-! ### The primitives -/

theorem value_of_nonneg {w : Word} (h : signBit w = false) : value w = units w := by simp [value, h]

/-- The sum of two finite patterns with sign bit 0. -/
theorem fadd32_nonneg {a b : Word} (fa : isFinite a = true) (fb : isFinite b = true) (sa : signBit a = false)
    (sb : signBit b = false) : fadd32 a b = roundWord false (units a + units b) 1 := by
  unfold fadd32
  simp only [isNaN_of_isFinite fa, isNaN_of_isFinite fb, isInf_of_isFinite fa, isInf_of_isFinite fb, Bool.or_self,
    Bool.false_eq_true, if_false, value_of_nonneg sa, value_of_nonneg sb, sa, sb, Bool.and_self]
  by_cases h : (units a : Int) + (units b : Int) = 0
  · have h0 : units a + units b = 0 := by omega
    rw [if_pos h, h0]
    decide
  · rw [if_neg h, decide_eq_false (by omega)]
    congr 1

/-- The product of two finite patterns. -/
theorem fmul32_finite {a b : Word} (fa : isFinite a = true) (fb : isFinite b = true) :
    fmul32 a b = roundWord (signBit a != signBit b) (units a * units b) (2 ^ 149) := by
  simp [fmul32, isNaN_of_isFinite fa, isNaN_of_isFinite fb, isInf_of_isFinite fa, isInf_of_isFinite fb]

/-- The quotient of a finite pattern by a finite one that is not zero. -/
theorem fdiv32_finite {a b : Word} (fa : isFinite a = true) (fb : isFinite b = true) (hb : isZero b = false) :
    fdiv32 a b = roundWord (signBit a != signBit b) (units a * 2 ^ 149) (units b) := by
  simp [fdiv32, isNaN_of_isFinite fa, isNaN_of_isFinite fb, isInf_of_isFinite fa, isInf_of_isFinite fb, hb]

/-- The modulo of a finite pattern by a finite one that is not zero is exact, with the dividend's sign. -/
theorem fmod32_finite {a b : Word} (fa : isFinite a = true) (fb : isFinite b = true) (hb : isZero b = false) :
    isFinite (fmod32 a b) = true ∧ signBit (fmod32 a b) = signBit a ∧ units (fmod32 a b) = units a % units b := by
  have hdef : fmod32 a b = roundWord (signBit a) (units a % units b) 1 := by
    simp [fmod32, isNaN_of_isFinite fa, isNaN_of_isFinite fb, isInf_of_isFinite fa, isInf_of_isFinite fb, hb]
  have hpos : 0 < units b := by
    rcases Nat.eq_zero_or_pos (units b) with h | h
    · rw [(units_eq_zero b).1 h] at hb; simp at hb
    · exact h
  have hlt : units a % units b < magUnits 0x7F800000 :=
    Nat.lt_of_le_of_lt (Nat.mod_le _ _) (units_lt_inf fa)
  obtain ⟨ma, ea, hma, ha⟩ := units_significand a
  obtain ⟨mb, eb, hmb, hbu⟩ := units_significand b
  have hrep : ∃ m e, m < 2 ^ 24 ∧ units a % units b = m * 2 ^ e := by
    rcases Nat.le_total eb ea with h | h
    · have hd : 2 ^ eb ∣ units a % units b := by
        rw [Nat.dvd_mod_iff (by rw [hbu]; exact Nat.dvd_mul_left _ _), ha]
        exact Nat.dvd_mul_left_of_dvd (Nat.pow_dvd_pow 2 h) _
      obtain ⟨m, hm⟩ := hd
      refine ⟨m, eb, ?_, by rw [hm, Nat.mul_comm]⟩
      have h1 := Nat.mod_lt (units a) hpos
      have h2 : 2 ^ eb * m < 2 ^ eb * mb := by
        rw [← hm, Nat.mul_comm (2 ^ eb) mb, ← hbu]
        exact h1
      have := Nat.lt_of_mul_lt_mul_left h2
      omega
    · have hd : 2 ^ ea ∣ units a % units b := by
        rw [Nat.dvd_mod_iff (by rw [hbu]; exact Nat.dvd_mul_left_of_dvd (Nat.pow_dvd_pow 2 h) _), ha]
        exact Nat.dvd_mul_left _ _
      obtain ⟨m, hm⟩ := hd
      refine ⟨m, ea, ?_, by rw [hm, Nat.mul_comm]⟩
      have h1 : units a % units b ≤ units a := Nat.mod_le _ _
      have h2 : 2 ^ ea * m ≤ 2 ^ ea * ma := by
        rw [← hm, Nat.mul_comm (2 ^ ea) ma, ← ha]
        exact h1
      have := Nat.le_of_mul_le_mul_left h2 (Nat.two_pow_pos _)
      omega
  obtain ⟨m, e, hm, he⟩ := hrep
  have hx := roundMag_exact hm (he ▸ hlt)
  rw [hdef]
  refine ⟨?_, signBit_roundWord _ _ _, ?_⟩
  · rw [isFinite_roundWord, he]
    exact hx.2
  · rw [units_roundWord, he]
    exact hx.1

/-- Integers below 2^24 are exact in binary32 (R9). -/
theorem f32_nat {i : Nat} (hi : i < 2 ^ 24) :
    isFinite (f32 i) = true ∧ signBit (f32 i) = false ∧ units (f32 i) = i * 2 ^ 149 := by
  have hlt : i * 2 ^ 149 < magUnits 0x7F800000 := by
    have h1 : i * 2 ^ 149 < 2 ^ 24 * 2 ^ 149 := Nat.mul_lt_mul_of_pos_right hi (by decide)
    have h2 : 2 ^ 24 * 2 ^ 149 ≤ magUnits 0x7F800000 := by decide
    omega
  have hx := roundMag_exact hi hlt
  have hdef : f32 (i : Int) = roundWord false (i * 2 ^ 149) 1 := by
    unfold f32
    rw [decide_eq_false (by omega), Int.natAbs_natCast]
  rw [hdef]
  exact ⟨(isFinite_roundWord _ _ _).2 hx.2, signBit_roundWord _ _ _, by rw [units_roundWord]; exact hx.1⟩

/-- The floor of a finite pattern with sign bit 0. -/
theorem floor32_nonneg {a : Word} (fa : isFinite a = true) (sa : signBit a = false) :
    floor32 a = ((units a / 2 ^ 149 : Nat) : Int) := by
  unfold floor32
  rw [if_pos fa, value_of_nonneg sa]
  norm_num

/-- The table length as a binary32 value: exact, finite and greater than zero (R5, R119). -/
theorem f32_L (c : Config) :
    isFinite (f32 c.L) = true ∧ signBit (f32 c.L) = false ∧ units (f32 c.L) = c.L * 2 ^ 149
      ∧ isZero (f32 c.L) = false := by
  have hL := c.L_range
  obtain ⟨h1, h2, h3⟩ := f32_nat (i := c.L) (by omega)
  refine ⟨h1, h2, h3, ?_⟩
  rw [Bool.eq_false_iff, Ne, ← units_eq_zero, h3]
  have : 0 < c.L * 2 ^ 149 := Nat.mul_pos (by omega) (by decide)
  omega

end Sys2Proof.Machine
end

