-- ==== Sys2Proof/Laws/State.lean ====
section
/-! SUPPORT. One lemma for each field an operation leaves alone and for each it writes, so that no proof unfolds a
record update. -/

namespace Sys2Proof.Machine

@[simp] theorem State.writeWord_cfg (s : State) (a : Nat) (w : Word) : (s.writeWord a w).cfg = s.cfg := rfl
@[simp] theorem State.writeWord_sr (s : State) (a : Nat) (w : Word) : (s.writeWord a w).sr = s.sr := rfl
@[simp] theorem State.writeWord_nch (s : State) (a : Nat) (w : Word) : (s.writeWord a w).nch = s.nch := rfl
@[simp] theorem State.writeWord_blen (s : State) (a : Nat) (w : Word) : (s.writeWord a w).blen = s.blen := rfl
@[simp] theorem State.writeWord_nev (s : State) (a : Nat) (w : Word) : (s.writeWord a w).nev = s.nev := rfl
@[simp] theorem State.writeWord_sra (s : State) (a : Nat) (w : Word) : (s.writeWord a w).sra = s.sra := rfl
@[simp] theorem State.writeWord_prepared (s : State) (a : Nat) (w : Word) : (s.writeWord a w).prepared = s.prepared := rfl
@[simp] theorem State.writeWord_fault (s : State) (a : Nat) (w : Word) : (s.writeWord a w).fault = s.fault := rfl
@[simp] theorem State.writeWord_cause (s : State) (a : Nat) (w : Word) : (s.writeWord a w).cause = s.cause := rfl
@[simp] theorem State.writeWord_findex (s : State) (a : Nat) (w : Word) : (s.writeWord a w).findex = s.findex := rfl
@[simp] theorem State.writeWord_mode (s : State) (a : Nat) (w : Word) : (s.writeWord a w).mode = s.mode := rfl
@[simp] theorem State.writeWord_k (s : State) (a : Nat) (w : Word) : (s.writeWord a w).k = s.k := rfl
@[simp] theorem State.writeWord_cur (s : State) (a : Nat) (w : Word) : (s.writeWord a w).cur = s.cur := rfl
@[simp] theorem State.writeWord_voices (s : State) (a : Nat) (w : Word) : (s.writeWord a w).voices = s.voices := rfl
@[simp] theorem State.writeWord_epoch (s : State) (a : Nat) (w : Word) : (s.writeWord a w).epoch = s.epoch := rfl
@[simp] theorem State.writeWord_moves (s : State) (a : Nat) (w : Word) : (s.writeWord a w).moves = s.moves := rfl
@[simp] theorem State.writeWord_reply (s : State) (a : Nat) (w : Word) : (s.writeWord a w).reply = s.reply := rfl

@[simp] theorem State.setBuf_cfg (s : State) (c f : Nat) (w : Word) : (s.setBuf c f w).cfg = s.cfg := rfl
@[simp] theorem State.setBuf_sr (s : State) (c f : Nat) (w : Word) : (s.setBuf c f w).sr = s.sr := rfl
@[simp] theorem State.setBuf_nch (s : State) (c f : Nat) (w : Word) : (s.setBuf c f w).nch = s.nch := rfl
@[simp] theorem State.setBuf_blen (s : State) (c f : Nat) (w : Word) : (s.setBuf c f w).blen = s.blen := rfl
@[simp] theorem State.setBuf_nev (s : State) (c f : Nat) (w : Word) : (s.setBuf c f w).nev = s.nev := rfl
@[simp] theorem State.setBuf_sra (s : State) (c f : Nat) (w : Word) : (s.setBuf c f w).sra = s.sra := rfl
@[simp] theorem State.setBuf_prepared (s : State) (c f : Nat) (w : Word) : (s.setBuf c f w).prepared = s.prepared := rfl
@[simp] theorem State.setBuf_fault (s : State) (c f : Nat) (w : Word) : (s.setBuf c f w).fault = s.fault := rfl
@[simp] theorem State.setBuf_cause (s : State) (c f : Nat) (w : Word) : (s.setBuf c f w).cause = s.cause := rfl
@[simp] theorem State.setBuf_findex (s : State) (c f : Nat) (w : Word) : (s.setBuf c f w).findex = s.findex := rfl
@[simp] theorem State.setBuf_mode (s : State) (c f : Nat) (w : Word) : (s.setBuf c f w).mode = s.mode := rfl
@[simp] theorem State.setBuf_k (s : State) (c f : Nat) (w : Word) : (s.setBuf c f w).k = s.k := rfl
@[simp] theorem State.setBuf_cur (s : State) (c f : Nat) (w : Word) : (s.setBuf c f w).cur = s.cur := rfl
@[simp] theorem State.setBuf_voices (s : State) (c f : Nat) (w : Word) : (s.setBuf c f w).voices = s.voices := rfl
@[simp] theorem State.setBuf_epoch (s : State) (c f : Nat) (w : Word) : (s.setBuf c f w).epoch = s.epoch := rfl
@[simp] theorem State.setBuf_moves (s : State) (c f : Nat) (w : Word) : (s.setBuf c f w).moves = s.moves := rfl
@[simp] theorem State.setBuf_reply (s : State) (c f : Nat) (w : Word) : (s.setBuf c f w).reply = s.reply := rfl

@[simp] theorem State.setVoice_cfg (s : State) (n : Fin 128) (v : Voice) : (s.setVoice n v).cfg = s.cfg := rfl
@[simp] theorem State.setVoice_sr (s : State) (n : Fin 128) (v : Voice) : (s.setVoice n v).sr = s.sr := rfl
@[simp] theorem State.setVoice_nch (s : State) (n : Fin 128) (v : Voice) : (s.setVoice n v).nch = s.nch := rfl
@[simp] theorem State.setVoice_blen (s : State) (n : Fin 128) (v : Voice) : (s.setVoice n v).blen = s.blen := rfl
@[simp] theorem State.setVoice_nev (s : State) (n : Fin 128) (v : Voice) : (s.setVoice n v).nev = s.nev := rfl
@[simp] theorem State.setVoice_sra (s : State) (n : Fin 128) (v : Voice) : (s.setVoice n v).sra = s.sra := rfl
@[simp] theorem State.setVoice_prepared (s : State) (n : Fin 128) (v : Voice) : (s.setVoice n v).prepared = s.prepared := rfl
@[simp] theorem State.setVoice_fault (s : State) (n : Fin 128) (v : Voice) : (s.setVoice n v).fault = s.fault := rfl
@[simp] theorem State.setVoice_cause (s : State) (n : Fin 128) (v : Voice) : (s.setVoice n v).cause = s.cause := rfl
@[simp] theorem State.setVoice_findex (s : State) (n : Fin 128) (v : Voice) : (s.setVoice n v).findex = s.findex := rfl
@[simp] theorem State.setVoice_mode (s : State) (n : Fin 128) (v : Voice) : (s.setVoice n v).mode = s.mode := rfl
@[simp] theorem State.setVoice_k (s : State) (n : Fin 128) (v : Voice) : (s.setVoice n v).k = s.k := rfl
@[simp] theorem State.setVoice_cur (s : State) (n : Fin 128) (v : Voice) : (s.setVoice n v).cur = s.cur := rfl
@[simp] theorem State.setVoice_mem (s : State) (n : Fin 128) (v : Voice) : (s.setVoice n v).mem = s.mem := rfl
@[simp] theorem State.setVoice_epoch (s : State) (n : Fin 128) (v : Voice) : (s.setVoice n v).epoch = s.epoch := rfl
@[simp] theorem State.setVoice_moves (s : State) (n : Fin 128) (v : Voice) : (s.setVoice n v).moves = s.moves := rfl
@[simp] theorem State.setVoice_reply (s : State) (n : Fin 128) (v : Voice) : (s.setVoice n v).reply = s.reply := rfl

@[simp] theorem State.stop_cfg (s : State) (n : Fin 128) : (s.stop n).cfg = s.cfg := rfl
@[simp] theorem State.stop_sr (s : State) (n : Fin 128) : (s.stop n).sr = s.sr := rfl
@[simp] theorem State.stop_nch (s : State) (n : Fin 128) : (s.stop n).nch = s.nch := rfl
@[simp] theorem State.stop_blen (s : State) (n : Fin 128) : (s.stop n).blen = s.blen := rfl
@[simp] theorem State.stop_nev (s : State) (n : Fin 128) : (s.stop n).nev = s.nev := rfl
@[simp] theorem State.stop_sra (s : State) (n : Fin 128) : (s.stop n).sra = s.sra := rfl
@[simp] theorem State.stop_prepared (s : State) (n : Fin 128) : (s.stop n).prepared = s.prepared := rfl
@[simp] theorem State.stop_fault (s : State) (n : Fin 128) : (s.stop n).fault = s.fault := rfl
@[simp] theorem State.stop_cause (s : State) (n : Fin 128) : (s.stop n).cause = s.cause := rfl
@[simp] theorem State.stop_findex (s : State) (n : Fin 128) : (s.stop n).findex = s.findex := rfl
@[simp] theorem State.stop_mode (s : State) (n : Fin 128) : (s.stop n).mode = s.mode := rfl
@[simp] theorem State.stop_k (s : State) (n : Fin 128) : (s.stop n).k = s.k := rfl
@[simp] theorem State.stop_cur (s : State) (n : Fin 128) : (s.stop n).cur = s.cur := rfl
@[simp] theorem State.stop_mem (s : State) (n : Fin 128) : (s.stop n).mem = s.mem := rfl
@[simp] theorem State.stop_epoch (s : State) (n : Fin 128) : (s.stop n).epoch = s.epoch := rfl
@[simp] theorem State.stop_moves (s : State) (n : Fin 128) : (s.stop n).moves = s.moves := rfl
@[simp] theorem State.stop_reply (s : State) (n : Fin 128) : (s.stop n).reply = s.reply := rfl

@[simp] theorem State.setFrequency_cfg (s : State) (n : Fin 128) (w : Word) : (s.setFrequency n w).cfg = s.cfg := rfl
@[simp] theorem State.setFrequency_sr (s : State) (n : Fin 128) (w : Word) : (s.setFrequency n w).sr = s.sr := rfl
@[simp] theorem State.setFrequency_nch (s : State) (n : Fin 128) (w : Word) : (s.setFrequency n w).nch = s.nch := rfl
@[simp] theorem State.setFrequency_blen (s : State) (n : Fin 128) (w : Word) : (s.setFrequency n w).blen = s.blen := rfl
@[simp] theorem State.setFrequency_nev (s : State) (n : Fin 128) (w : Word) : (s.setFrequency n w).nev = s.nev := rfl
@[simp] theorem State.setFrequency_sra (s : State) (n : Fin 128) (w : Word) : (s.setFrequency n w).sra = s.sra := rfl
@[simp] theorem State.setFrequency_prepared (s : State) (n : Fin 128) (w : Word) : (s.setFrequency n w).prepared = s.prepared := rfl
@[simp] theorem State.setFrequency_fault (s : State) (n : Fin 128) (w : Word) : (s.setFrequency n w).fault = s.fault := rfl
@[simp] theorem State.setFrequency_cause (s : State) (n : Fin 128) (w : Word) : (s.setFrequency n w).cause = s.cause := rfl
@[simp] theorem State.setFrequency_findex (s : State) (n : Fin 128) (w : Word) : (s.setFrequency n w).findex = s.findex := rfl
@[simp] theorem State.setFrequency_mode (s : State) (n : Fin 128) (w : Word) : (s.setFrequency n w).mode = s.mode := rfl
@[simp] theorem State.setFrequency_k (s : State) (n : Fin 128) (w : Word) : (s.setFrequency n w).k = s.k := rfl
@[simp] theorem State.setFrequency_cur (s : State) (n : Fin 128) (w : Word) : (s.setFrequency n w).cur = s.cur := rfl
@[simp] theorem State.setFrequency_mem (s : State) (n : Fin 128) (w : Word) : (s.setFrequency n w).mem = s.mem := rfl
@[simp] theorem State.setFrequency_epoch (s : State) (n : Fin 128) (w : Word) : (s.setFrequency n w).epoch = s.epoch := rfl
@[simp] theorem State.setFrequency_moves (s : State) (n : Fin 128) (w : Word) : (s.setFrequency n w).moves = s.moves := rfl
@[simp] theorem State.setFrequency_reply (s : State) (n : Fin 128) (w : Word) : (s.setFrequency n w).reply = s.reply := rfl

@[simp] theorem State.raiseFault_cfg (s : State) (c : Cause) (i : Nat) : (s.raiseFault c i).cfg = s.cfg := by unfold State.raiseFault; split <;> rfl
@[simp] theorem State.raiseFault_sr (s : State) (c : Cause) (i : Nat) : (s.raiseFault c i).sr = s.sr := by unfold State.raiseFault; split <;> rfl
@[simp] theorem State.raiseFault_nch (s : State) (c : Cause) (i : Nat) : (s.raiseFault c i).nch = s.nch := by unfold State.raiseFault; split <;> rfl
@[simp] theorem State.raiseFault_blen (s : State) (c : Cause) (i : Nat) : (s.raiseFault c i).blen = s.blen := by unfold State.raiseFault; split <;> rfl
@[simp] theorem State.raiseFault_nev (s : State) (c : Cause) (i : Nat) : (s.raiseFault c i).nev = s.nev := by unfold State.raiseFault; split <;> rfl
@[simp] theorem State.raiseFault_sra (s : State) (c : Cause) (i : Nat) : (s.raiseFault c i).sra = s.sra := by unfold State.raiseFault; split <;> rfl
@[simp] theorem State.raiseFault_prepared (s : State) (c : Cause) (i : Nat) : (s.raiseFault c i).prepared = s.prepared := by unfold State.raiseFault; split <;> rfl
@[simp] theorem State.raiseFault_k (s : State) (c : Cause) (i : Nat) : (s.raiseFault c i).k = s.k := by unfold State.raiseFault; split <;> rfl
@[simp] theorem State.raiseFault_cur (s : State) (c : Cause) (i : Nat) : (s.raiseFault c i).cur = s.cur := by unfold State.raiseFault; split <;> rfl
@[simp] theorem State.raiseFault_voices (s : State) (c : Cause) (i : Nat) : (s.raiseFault c i).voices = s.voices := by unfold State.raiseFault; split <;> rfl
@[simp] theorem State.raiseFault_mem (s : State) (c : Cause) (i : Nat) : (s.raiseFault c i).mem = s.mem := by unfold State.raiseFault; split <;> rfl
@[simp] theorem State.raiseFault_epoch (s : State) (c : Cause) (i : Nat) : (s.raiseFault c i).epoch = s.epoch := by unfold State.raiseFault; split <;> rfl
@[simp] theorem State.raiseFault_moves (s : State) (c : Cause) (i : Nat) : (s.raiseFault c i).moves = s.moves := by unfold State.raiseFault; split <;> rfl
@[simp] theorem State.raiseFault_reply (s : State) (c : Cause) (i : Nat) : (s.raiseFault c i).reply = s.reply := by unfold State.raiseFault; split <;> rfl

@[simp] theorem State.clearFault_cfg (s : State) : s.clearFault.cfg = s.cfg := rfl
@[simp] theorem State.clearFault_sr (s : State) : s.clearFault.sr = s.sr := rfl
@[simp] theorem State.clearFault_nch (s : State) : s.clearFault.nch = s.nch := rfl
@[simp] theorem State.clearFault_blen (s : State) : s.clearFault.blen = s.blen := rfl
@[simp] theorem State.clearFault_nev (s : State) : s.clearFault.nev = s.nev := rfl
@[simp] theorem State.clearFault_sra (s : State) : s.clearFault.sra = s.sra := rfl
@[simp] theorem State.clearFault_prepared (s : State) : s.clearFault.prepared = s.prepared := rfl
@[simp] theorem State.clearFault_mode (s : State) : s.clearFault.mode = s.mode := rfl
@[simp] theorem State.clearFault_k (s : State) : s.clearFault.k = s.k := rfl
@[simp] theorem State.clearFault_cur (s : State) : s.clearFault.cur = s.cur := rfl
@[simp] theorem State.clearFault_voices (s : State) : s.clearFault.voices = s.voices := rfl
@[simp] theorem State.clearFault_mem (s : State) : s.clearFault.mem = s.mem := rfl
@[simp] theorem State.clearFault_epoch (s : State) : s.clearFault.epoch = s.epoch := rfl
@[simp] theorem State.clearFault_moves (s : State) : s.clearFault.moves = s.moves := rfl
@[simp] theorem State.clearFault_reply (s : State) : s.clearFault.reply = s.reply := rfl

@[simp] theorem State.complete_cfg (s : State) : s.complete.cfg = s.cfg := rfl
@[simp] theorem State.complete_sr (s : State) : s.complete.sr = s.sr := rfl
@[simp] theorem State.complete_nch (s : State) : s.complete.nch = s.nch := rfl
@[simp] theorem State.complete_blen (s : State) : s.complete.blen = s.blen := rfl
@[simp] theorem State.complete_nev (s : State) : s.complete.nev = s.nev := rfl
@[simp] theorem State.complete_sra (s : State) : s.complete.sra = s.sra := rfl
@[simp] theorem State.complete_prepared (s : State) : s.complete.prepared = s.prepared := rfl
@[simp] theorem State.complete_fault (s : State) : s.complete.fault = s.fault := rfl
@[simp] theorem State.complete_cause (s : State) : s.complete.cause = s.cause := rfl
@[simp] theorem State.complete_findex (s : State) : s.complete.findex = s.findex := rfl
@[simp] theorem State.complete_k (s : State) : s.complete.k = s.k := rfl
@[simp] theorem State.complete_cur (s : State) : s.complete.cur = s.cur := rfl
@[simp] theorem State.complete_voices (s : State) : s.complete.voices = s.voices := rfl
@[simp] theorem State.complete_mem (s : State) : s.complete.mem = s.mem := rfl
@[simp] theorem State.complete_epoch (s : State) : s.complete.epoch = s.epoch := rfl
@[simp] theorem State.complete_moves (s : State) : s.complete.moves = s.moves := rfl
@[simp] theorem State.complete_reply (s : State) : s.complete.reply = s.reply := rfl

@[simp] theorem State.advance_cfg (s : State) (w : Word) : (s.advance w).cfg = s.cfg := rfl
@[simp] theorem State.advance_sr (s : State) (w : Word) : (s.advance w).sr = s.sr := rfl
@[simp] theorem State.advance_nch (s : State) (w : Word) : (s.advance w).nch = s.nch := rfl
@[simp] theorem State.advance_blen (s : State) (w : Word) : (s.advance w).blen = s.blen := rfl
@[simp] theorem State.advance_nev (s : State) (w : Word) : (s.advance w).nev = s.nev := rfl
@[simp] theorem State.advance_sra (s : State) (w : Word) : (s.advance w).sra = s.sra := rfl
@[simp] theorem State.advance_prepared (s : State) (w : Word) : (s.advance w).prepared = s.prepared := rfl
@[simp] theorem State.advance_fault (s : State) (w : Word) : (s.advance w).fault = s.fault := rfl
@[simp] theorem State.advance_cause (s : State) (w : Word) : (s.advance w).cause = s.cause := rfl
@[simp] theorem State.advance_findex (s : State) (w : Word) : (s.advance w).findex = s.findex := rfl
@[simp] theorem State.advance_mode (s : State) (w : Word) : (s.advance w).mode = s.mode := rfl
@[simp] theorem State.advance_voices (s : State) (w : Word) : (s.advance w).voices = s.voices := rfl
@[simp] theorem State.advance_mem (s : State) (w : Word) : (s.advance w).mem = s.mem := rfl
@[simp] theorem State.advance_epoch (s : State) (w : Word) : (s.advance w).epoch = s.epoch := rfl
@[simp] theorem State.advance_moves (s : State) (w : Word) : (s.advance w).moves = s.moves := rfl
@[simp] theorem State.advance_reply (s : State) (w : Word) : (s.advance w).reply = s.reply := rfl

@[simp] theorem State.answer_cfg (s : State) (w : Word) : (s.answer w).cfg = s.cfg := rfl
@[simp] theorem State.answer_sr (s : State) (w : Word) : (s.answer w).sr = s.sr := rfl
@[simp] theorem State.answer_nch (s : State) (w : Word) : (s.answer w).nch = s.nch := rfl
@[simp] theorem State.answer_blen (s : State) (w : Word) : (s.answer w).blen = s.blen := rfl
@[simp] theorem State.answer_nev (s : State) (w : Word) : (s.answer w).nev = s.nev := rfl
@[simp] theorem State.answer_sra (s : State) (w : Word) : (s.answer w).sra = s.sra := rfl
@[simp] theorem State.answer_prepared (s : State) (w : Word) : (s.answer w).prepared = s.prepared := rfl
@[simp] theorem State.answer_fault (s : State) (w : Word) : (s.answer w).fault = s.fault := rfl
@[simp] theorem State.answer_cause (s : State) (w : Word) : (s.answer w).cause = s.cause := rfl
@[simp] theorem State.answer_findex (s : State) (w : Word) : (s.answer w).findex = s.findex := rfl
@[simp] theorem State.answer_mode (s : State) (w : Word) : (s.answer w).mode = s.mode := rfl
@[simp] theorem State.answer_k (s : State) (w : Word) : (s.answer w).k = s.k := rfl
@[simp] theorem State.answer_cur (s : State) (w : Word) : (s.answer w).cur = s.cur := rfl
@[simp] theorem State.answer_voices (s : State) (w : Word) : (s.answer w).voices = s.voices := rfl
@[simp] theorem State.answer_mem (s : State) (w : Word) : (s.answer w).mem = s.mem := rfl
@[simp] theorem State.answer_epoch (s : State) (w : Word) : (s.answer w).epoch = s.epoch := rfl
@[simp] theorem State.answer_moves (s : State) (w : Word) : (s.answer w).moves = s.moves := rfl

@[simp] theorem State.busError_cfg (s : State) : s.busError.cfg = s.cfg := rfl
@[simp] theorem State.busError_sr (s : State) : s.busError.sr = s.sr := rfl
@[simp] theorem State.busError_nch (s : State) : s.busError.nch = s.nch := rfl
@[simp] theorem State.busError_blen (s : State) : s.busError.blen = s.blen := rfl
@[simp] theorem State.busError_nev (s : State) : s.busError.nev = s.nev := rfl
@[simp] theorem State.busError_sra (s : State) : s.busError.sra = s.sra := rfl
@[simp] theorem State.busError_prepared (s : State) : s.busError.prepared = s.prepared := rfl
@[simp] theorem State.busError_fault (s : State) : s.busError.fault = s.fault := rfl
@[simp] theorem State.busError_cause (s : State) : s.busError.cause = s.cause := rfl
@[simp] theorem State.busError_findex (s : State) : s.busError.findex = s.findex := rfl
@[simp] theorem State.busError_mode (s : State) : s.busError.mode = s.mode := rfl
@[simp] theorem State.busError_k (s : State) : s.busError.k = s.k := rfl
@[simp] theorem State.busError_cur (s : State) : s.busError.cur = s.cur := rfl
@[simp] theorem State.busError_voices (s : State) : s.busError.voices = s.voices := rfl
@[simp] theorem State.busError_mem (s : State) : s.busError.mem = s.mem := rfl
@[simp] theorem State.busError_epoch (s : State) : s.busError.epoch = s.epoch := rfl
@[simp] theorem State.busError_moves (s : State) : s.busError.moves = s.moves := rfl

@[simp] theorem State.popMove_cfg (s : State) : s.popMove.cfg = s.cfg := rfl
@[simp] theorem State.popMove_sr (s : State) : s.popMove.sr = s.sr := rfl
@[simp] theorem State.popMove_nch (s : State) : s.popMove.nch = s.nch := rfl
@[simp] theorem State.popMove_blen (s : State) : s.popMove.blen = s.blen := rfl
@[simp] theorem State.popMove_nev (s : State) : s.popMove.nev = s.nev := rfl
@[simp] theorem State.popMove_sra (s : State) : s.popMove.sra = s.sra := rfl
@[simp] theorem State.popMove_prepared (s : State) : s.popMove.prepared = s.prepared := rfl
@[simp] theorem State.popMove_fault (s : State) : s.popMove.fault = s.fault := rfl
@[simp] theorem State.popMove_cause (s : State) : s.popMove.cause = s.cause := rfl
@[simp] theorem State.popMove_findex (s : State) : s.popMove.findex = s.findex := rfl
@[simp] theorem State.popMove_mode (s : State) : s.popMove.mode = s.mode := rfl
@[simp] theorem State.popMove_k (s : State) : s.popMove.k = s.k := rfl
@[simp] theorem State.popMove_cur (s : State) : s.popMove.cur = s.cur := rfl
@[simp] theorem State.popMove_voices (s : State) : s.popMove.voices = s.voices := rfl
@[simp] theorem State.popMove_mem (s : State) : s.popMove.mem = s.mem := rfl
@[simp] theorem State.popMove_epoch (s : State) : s.popMove.epoch = s.epoch := rfl
@[simp] theorem State.popMove_reply (s : State) : s.popMove.reply = s.reply := rfl

@[simp] theorem State.writeWord_mem (s : State) (a : Nat) (w : Word) :
    (s.writeWord a w).mem = Memory.insertWord s.mem a w := rfl
@[simp] theorem State.setBuf_mem (s : State) (c f : Nat) (w : Word) :
    (s.setBuf c f w).mem = Memory.insertWord s.mem (bufAddr s.cfg c f) w := rfl
@[simp] theorem State.raiseFault_mode (s : State) (c : Cause) (i : Nat) : (s.raiseFault c i).mode = .idle := by
  unfold State.raiseFault; split <;> rfl
@[simp] theorem State.raiseFault_fault (s : State) (c : Cause) (i : Nat) : (s.raiseFault c i).fault = true := by
  unfold State.raiseFault; split <;> simp_all
@[simp] theorem State.clearFault_fault (s : State) : s.clearFault.fault = false := rfl
@[simp] theorem State.clearFault_cause (s : State) : s.clearFault.cause = .noFault := rfl
@[simp] theorem State.clearFault_findex (s : State) : s.clearFault.findex = 0#16 := rfl
@[simp] theorem State.complete_mode (s : State) : s.complete.mode = .idle := rfl
@[simp] theorem State.advance_k (s : State) (w : Word) : (s.advance w).k = s.k + 1 := rfl
@[simp] theorem State.advance_cur (s : State) (w : Word) : (s.advance w).cur = w.toNat := rfl
@[simp] theorem State.answer_reply (s : State) (w : Word) : (s.answer w).reply = some ⟨w, false⟩ := rfl
@[simp] theorem State.busError_reply (s : State) : s.busError.reply = some ⟨0, true⟩ := rfl
@[simp] theorem State.popMove_moves (s : State) : s.popMove.moves = s.moves.tail := rfl

/-- A first fault is recorded (R202). -/
theorem State.raiseFault_first {s : State} (h : s.fault = false) (c : Cause) (i : Nat) :
    s.raiseFault c i = { s with fault := true, cause := c, findex := BitVec.ofNat 16 i, mode := .idle } := by
  simp [State.raiseFault, h]

/-- A later fault leaves the held one (R202). -/
theorem State.raiseFault_held {s : State} (h : s.fault = true) (c : Cause) (i : Nat) :
    s.raiseFault c i = { s with mode := .idle } := by
  simp [State.raiseFault, h]

end Sys2Proof.Machine
end

