-- ==== Sys2Proof/Laws/Memory.lean ====
section
/-! SUPPORT. The laws of RAM bytes, words and voices: a read after a write to the same place gives what was written, a
write leaves every other place alone, and a write keeps the canonical form. -/

namespace Sys2Proof.Machine

/-! ### The memory list -/

theorem Memory.lookup_insert_self (m : Memory) (a : Nat) (v : Byte) :
    Memory.lookup (Memory.insert m a v) a = some v := by
  induction m with
  | nil => simp [Memory.insert, Memory.lookup]
  | cons c m ih =>
    obtain ⟨x, b⟩ := c
    unfold Memory.insert
    split
    · simp [Memory.lookup]
    · split
      · simp [Memory.lookup]
      · next h1 h2 => simp [Memory.lookup, ih, Ne.symm h2]

theorem Memory.lookup_insert_ne (m : Memory) {a x : Nat} (v : Byte) (h : x ≠ a) :
    Memory.lookup (Memory.insert m a v) x = Memory.lookup m x := by
  induction m with
  | nil => simp [Memory.insert, Memory.lookup, Ne.symm h]
  | cons c m ih =>
    obtain ⟨y, b⟩ := c
    unfold Memory.insert
    split
    · simp [Memory.lookup, Ne.symm h]
    · split
      · next h1 h2 => subst h2; simp [Memory.lookup, Ne.symm h]
      · simp [Memory.lookup, ih]

theorem Memory.above_insert {lo : Nat} {m : Memory} {a : Nat} (v : Byte) (h : Memory.above lo m = true)
    (ha : lo < a) : Memory.above lo (Memory.insert m a v) = true := by
  induction m with
  | nil => simp [Memory.insert, Memory.above, ha]
  | cons c m ih =>
    obtain ⟨y, b⟩ := c
    simp only [Memory.above, Bool.and_eq_true, decide_eq_true_eq] at h
    unfold Memory.insert
    split
    · simp [Memory.above, ha, h.1, h.2]
    · split
      · simp [Memory.above, ha, h.2]
      · simp [Memory.above, h.1, ih h.2]

theorem Memory.above_trans {lo hi : Nat} {m : Memory} (h : Memory.above hi m = true) (hl : lo ≤ hi) :
    Memory.above lo m = true := by
  induction m with
  | nil => rfl
  | cons c m ih =>
    obtain ⟨y, b⟩ := c
    simp only [Memory.above, Bool.and_eq_true, decide_eq_true_eq] at h ⊢
    exact ⟨by omega, ih h.2⟩

/-- A write keeps the canonical form. -/
theorem Memory.wf_insert {m : Memory} (h : Memory.wf m = true) (a : Nat) (v : Byte) :
    Memory.wf (Memory.insert m a v) = true := by
  induction m with
  | nil => simp [Memory.insert, Memory.wf, Memory.above]
  | cons c m ih =>
    obtain ⟨y, b⟩ := c
    simp only [Memory.wf, Bool.and_eq_true] at h
    unfold Memory.insert
    split
    · next hlt =>
      simp only [Memory.wf, Memory.above, Bool.and_eq_true, decide_eq_true_eq]
      exact ⟨⟨hlt, Memory.above_trans h.1 (by omega)⟩, h.1, h.2⟩
    · split
      · next h1 h2 =>
        subst h2
        simp only [Memory.wf, Bool.and_eq_true]
        exact h
      · next h1 h2 =>
        simp only [Memory.wf, Bool.and_eq_true]
        exact ⟨Memory.above_insert v h.1 (by omega), ih h.2⟩

/-- Every entry after a write is the written one or an entry from before. -/
theorem Memory.mem_insert {m : Memory} {a : Nat} {v : Byte} {c : Host.Cell} (h : c ∈ Memory.insert m a v) :
    c = (a, v) ∨ c ∈ m := by
  induction m with
  | nil => simpa [Memory.insert] using h
  | cons d m ih =>
    obtain ⟨y, b⟩ := d
    unfold Memory.insert at h
    split at h
    · simpa using h
    · split at h
      · rcases List.mem_cons.1 h with h | h
        · exact .inl h
        · exact .inr (List.mem_cons_of_mem _ h)
      · rcases List.mem_cons.1 h with h | h
        · exact .inr (by simp [h])
        · exact (ih h).imp id (List.mem_cons_of_mem _)

/-! ### Bytes and words of the state -/

/-- A byte read depends on the RAM contents and the reset count alone. -/
theorem State.readByte_congr {s t : State} (hm : s.mem = t.mem) (he : s.epoch = t.epoch) (a : Nat) :
    s.readByte a = t.readByte a := by
  simp [State.readByte, hm, he]

theorem State.readWord_congr {s t : State} (hm : s.mem = t.mem) (he : s.epoch = t.epoch) (a : Nat) :
    s.readWord a = t.readWord a := by
  simp only [State.readWord, State.readByte_congr hm he]

/-- The bytes of a written word (R53). -/
theorem State.readByte_writeWord (s : State) (a : Nat) (w : Word) (x : Nat) :
    (s.writeWord a w).readByte x
      = if x = a then byteOf w 0 else if x = a + 1 then byteOf w 1 else if x = a + 2 then byteOf w 2
        else if x = a + 3 then byteOf w 3 else s.readByte x := by
  simp only [State.readByte, State.writeWord, Memory.insertWord]
  by_cases h3 : x = a + 3
  · subst h3; simp [Memory.lookup_insert_self]
  · rw [Memory.lookup_insert_ne _ _ h3]
    by_cases h2 : x = a + 2
    · subst h2; simp [Memory.lookup_insert_self]
    · rw [Memory.lookup_insert_ne _ _ h2]
      by_cases h1 : x = a + 1
      · subst h1; simp [Memory.lookup_insert_self]
      · rw [Memory.lookup_insert_ne _ _ h1]
        by_cases h0 : x = a
        · subst h0; simp [Memory.lookup_insert_self]
        · rw [Memory.lookup_insert_ne _ _ h0]; simp [h0, h1, h2, h3]

/-- A word write keeps the canonical form. -/
theorem Memory.wf_insertWord {m : Memory} (h : Memory.wf m = true) (a : Nat) (w : Word) :
    Memory.wf (Memory.insertWord m a w) = true :=
  wf_insert (wf_insert (wf_insert (wf_insert h _ _) _ _) _ _) _ _

/-- Every entry after a word write is one of the four written bytes or an entry from before. -/
theorem Memory.mem_insertWord {m : Memory} {a : Nat} {w : Word} {c : Host.Cell} (h : c ∈ Memory.insertWord m a w) :
    (a ≤ c.1 ∧ c.1 < a + 4) ∨ c ∈ m := by
  unfold Memory.insertWord at h
  rcases mem_insert h with rfl | h
  · exact .inl ⟨by simp, by simp⟩
  rcases mem_insert h with rfl | h
  · exact .inl ⟨by simp, by simp⟩
  rcases mem_insert h with rfl | h
  · exact .inl ⟨by simp, by simp⟩
  rcases mem_insert h with rfl | h
  · exact .inl ⟨by simp, by simp⟩
  exact .inr h

theorem State.readByte_writeWord_outside (s : State) {a x : Nat} (w : Word) (h : x < a ∨ a + 4 ≤ x) :
    (s.writeWord a w).readByte x = s.readByte x := by
  rw [State.readByte_writeWord]
  simp [show x ≠ a by omega, show x ≠ a + 1 by omega, show x ≠ a + 2 by omega, show x ≠ a + 3 by omega]

/-- The bytes of a word put together give the word (R53). -/
@[simp] theorem wordOfBytes_byteOf (w : Word) :
    wordOfBytes (byteOf w 0) (byteOf w 1) (byteOf w 2) (byteOf w 3) = w := by
  apply BitVec.eq_of_getLsbD_eq
  intro i hi
  simp only [wordOfBytes, byteOf, BitVec.getLsbD_append, BitVec.getLsbD_extractLsb']
  by_cases h1 : i < 8
  · simp [h1]
  · by_cases h2 : i < 16
    · simp [h1, show i - 8 < 8 by omega, show 8 + (i - 8) = i by omega]
    · by_cases h3 : i < 24
      · simp [h1, show ¬ i - 8 < 8 by omega, show i - 8 - 8 < 8 by omega, show 16 + (i - 8 - 8) = i by omega]
      · simp [h1, show ¬ i - 8 < 8 by omega, show ¬ i - 8 - 8 < 8 by omega, show i - 8 - 8 - 8 < 8 by omega,
          show 24 + (i - 8 - 8 - 8) = i by omega]

/-- A word read after the same word was written (R55). -/
@[simp] theorem State.readWord_writeWord_self (s : State) (a : Nat) (w : Word) :
    (s.writeWord a w).readWord a = w := by
  simp [State.readWord, State.readByte_writeWord]

theorem State.readWord_writeWord_outside (s : State) {a x : Nat} (w : Word) (h : x + 4 ≤ a ∨ a + 4 ≤ x) :
    (s.writeWord a w).readWord x = s.readWord x := by
  unfold State.readWord
  rw [State.readByte_writeWord_outside, State.readByte_writeWord_outside, State.readByte_writeWord_outside,
    State.readByte_writeWord_outside] <;> omega

/-! ### Buffer samples -/

@[simp] theorem State.buf_setBuf_self (s : State) (c f : Nat) (w : Word) : (s.setBuf c f w).buf c f = w := by
  simp [State.buf, State.setBuf]

theorem State.buf_setBuf_ne (s : State) {c f d g : Nat} (w : Word)
    (h : c * s.cfg.maxBlen + f ≠ d * s.cfg.maxBlen + g) : (s.setBuf c f w).buf d g = s.buf d g := by
  simp only [State.buf, State.setBuf, State.writeWord_cfg, bufAddr]
  exact State.readWord_writeWord_outside _ _ (by omega)

/-! ### Voices -/

@[simp] theorem State.voice_setVoice_self (s : State) (n : Fin 128) (v : Voice) : (s.setVoice n v).voice n = v := by
  simp [State.voice, State.setVoice, Vector.get_eq_getElem]

theorem State.voice_setVoice_ne (s : State) {n m : Fin 128} (v : Voice) (h : m ≠ n) :
    (s.setVoice n v).voice m = s.voice m := by
  have h' : n.val ≠ m.val := fun e => h (Fin.ext e.symm)
  simp [State.voice, State.setVoice, Vector.get_eq_getElem, Vector.getElem_set_ne _ _ h']

end Sys2Proof.Machine
end

