-- ==== Sys2Proof/Laws/Mixer.lean ====
section
/-! SUPPORT. What the mixing stage can do, said once: `renderRange_induct` carries any property kept by a voice write
and by a buffer write inside the range; the frames of `STOP`-of-all and of `RENDER_RANGE` follow from it. -/

namespace Sys2Proof.Machine

/-! ### Stopping every voice -/

theorem foldl_stop_voice (l : List (Fin 128)) (s : State) (m : Fin 128) :
    (l.foldl (fun t n => t.stop n) s).voice m = if m ∈ l then ⟨posZero, posZero⟩ else s.voice m := by
  induction l generalizing s with
  | nil => simp
  | cons n l ih =>
    rw [List.foldl_cons, ih]
    by_cases h : m ∈ l
    · simp [h]
    · by_cases h' : m = n
      · subst h'; simp [State.stop]
      · simp [h, h', State.stop, State.voice_setVoice_ne _ _ h']

/-- After `STOP` of every slot every voice is at phase +0.0 with increment +0.0 (R116, R172). -/
@[simp] theorem State.voice_stopAll (s : State) (m : Fin 128) : s.stopAll.voice m = ⟨posZero, posZero⟩ := by
  simp [State.stopAll, foldl_stop_voice, slots]

/-- Two voice files with the same voice in every slot are equal. -/
theorem voices_ext {u v : Vector Voice 128} (h : ∀ n : Fin 128, u.get n = v.get n) : u = v := by
  apply Vector.ext
  intro i hi
  have := h ⟨i, hi⟩
  simpa [Vector.get_eq_getElem] using this

theorem foldl_stop_frame (l : List (Fin 128)) (s : State) :
    l.foldl (fun t n => t.stop n) s = { s with voices := (l.foldl (fun t n => t.stop n) s).voices } := by
  induction l generalizing s with
  | nil => rfl
  | cons n l ih => rw [List.foldl_cons, ih]; rfl

/-- `STOP` of every slot writes the voice file and nothing else. -/
theorem State.stopAll_eq (s : State) :
    s.stopAll = { s with voices := Vector.replicate 128 ⟨posZero, posZero⟩ } := by
  have h : s.stopAll.voices = Vector.replicate 128 ⟨posZero, posZero⟩ := by
    apply voices_ext
    intro n
    have := s.voice_stopAll n
    rw [State.voice] at this
    rw [this]
    simp [Vector.get_eq_getElem]
  have hf : s.stopAll = { s with voices := s.stopAll.voices } := foldl_stop_frame slots s
  rw [h] at hf
  exact hf

/-! ### The mixing stage -/

/-- A property kept by a voice write and by a write of `BUF[c][f]` for the frames a ≤ f < b and the channels of a
block with `chans` channels. -/
structure RangeKept (P : State → Prop) (chans a b : Nat) : Prop where
  voice : ∀ t n v, P t → P (t.setVoice n v)
  buf : ∀ t c f w, P t → c < chans → a ≤ f → f < b → P (t.setBuf c f w)

/-- One frame of one voice: its phase moves on, and the frame of channel 0 takes its sample (R164). -/
theorem State.mixFrame_eq (s : State) (n : Fin 128) (f : Nat) :
    s.mixFrame n f
      = (s.setVoice n { s.voice n with phase := nextPhase s.cfg (s.voice n).phase (s.voice n).inc }).setBuf 0 f
          (fadd32 (s.buf 0 f) (sampleAt s.cfg (s.voice n).phase)) := rfl

theorem State.mixFrames_succ (s : State) (n : Fin 128) (count f : Nat) :
    s.mixFrames n (count + 1) f = (s.mixFrame n f).mixFrames n count (f + 1) := rfl

theorem State.copyFrames_succ (s : State) (c count f : Nat) :
    s.copyFrames c (count + 1) f = (s.setBuf c f (s.buf 0 f)).copyFrames c count (f + 1) := rfl

theorem State.copyFrom_succ (s : State) (a b count c : Nat) :
    s.copyFrom a b (count + 1) c = (s.copyFrames c (b - a) a).copyFrom a b count (c + 1) := rfl

theorem mixFrames_induct {P : State → Prop} {chans a b : Nat} (h : RangeKept P chans a b) (hc : 0 < chans)
    (n : Fin 128) (count f : Nat) (s : State) (hs : P s) (ha : a ≤ f) (hb : f + count ≤ b) :
    P (s.mixFrames n count f) := by
  induction count generalizing s f with
  | zero => exact hs
  | succ count ih =>
    rw [State.mixFrames_succ, State.mixFrame_eq]
    exact ih (f + 1) _ (h.buf _ _ _ _ (h.voice _ _ _ hs) hc ha (by omega)) (by omega) (by omega)

theorem mixVoices_induct {P : State → Prop} {chans a b : Nat} (h : RangeKept P chans a b) (hc : 0 < chans)
    (hab : a ≤ b) (l : List (Fin 128)) (s : State) (hs : P s) :
    P (l.foldl (fun t n => t.mixVoice n a b) s) := by
  induction l generalizing s with
  | nil => exact hs
  | cons n l ih =>
    rw [List.foldl_cons]
    apply ih
    unfold State.mixVoice
    split
    · exact mixFrames_induct h hc n _ _ _ hs (Nat.le_refl _) (by omega)
    · exact hs

theorem copyFrames_induct {P : State → Prop} {chans a b : Nat} (h : RangeKept P chans a b) (c : Nat) (hc : c < chans)
    (count f : Nat) (s : State) (hs : P s) (ha : a ≤ f) (hb : f + count ≤ b) : P (s.copyFrames c count f) := by
  induction count generalizing s f with
  | zero => exact hs
  | succ count ih =>
    rw [State.copyFrames_succ]
    exact ih (f + 1) _ (h.buf _ _ _ _ hs hc ha (by omega)) (by omega) (by omega)

theorem copyFrom_induct {P : State → Prop} {chans a b : Nat} (h : RangeKept P chans a b) (hab : a ≤ b)
    (count c : Nat) (s : State) (hs : P s) (hc : c + count ≤ chans) : P (s.copyFrom a b count c) := by
  induction count generalizing s c with
  | zero => exact hs
  | succ count ih =>
    rw [State.copyFrom_succ]
    exact ih (c + 1) _ (copyFrames_induct h c (by omega) _ _ _ hs (Nat.le_refl _) (by omega)) (by omega)

/-- Nothing but the voices and the RAMs differs. -/
def SoundOnly (s t : State) : Prop := t = { s with voices := t.voices, mem := t.mem }

theorem SoundOnly.refl (s : State) : SoundOnly s s := rfl

theorem SoundOnly.trans {s t u : State} (h : SoundOnly s t) (h' : SoundOnly t u) : SoundOnly s u := by
  cases s
  cases t
  cases u
  simp_all [SoundOnly]

theorem SoundOnly.cfg {s t : State} (h : SoundOnly s t) : t.cfg = s.cfg := by
  unfold SoundOnly at h; rw [h]

theorem SoundOnly.nch {s t : State} (h : SoundOnly s t) : t.nch = s.nch := by
  unfold SoundOnly at h; rw [h]

theorem SoundOnly.blen {s t : State} (h : SoundOnly s t) : t.blen = s.blen := by
  unfold SoundOnly at h; rw [h]

theorem SoundOnly.nev {s t : State} (h : SoundOnly s t) : t.nev = s.nev := by
  unfold SoundOnly at h; rw [h]

theorem SoundOnly.sra {s t : State} (h : SoundOnly s t) : t.sra = s.sra := by
  unfold SoundOnly at h; rw [h]

theorem SoundOnly.fault {s t : State} (h : SoundOnly s t) : t.fault = s.fault := by
  unfold SoundOnly at h; rw [h]

theorem SoundOnly.mode {s t : State} (h : SoundOnly s t) : t.mode = s.mode := by
  unfold SoundOnly at h; rw [h]

theorem SoundOnly.epoch {s t : State} (h : SoundOnly s t) : t.epoch = s.epoch := by
  unfold SoundOnly at h; rw [h]

/-- The registers the mixing stage never writes. -/
theorem soundOnly_kept (s : State) (chans a b : Nat) : RangeKept (SoundOnly s) chans a b where
  voice := fun _ _ _ h => h.trans rfl
  buf := fun _ _ _ _ h _ _ _ => h.trans rfl

/-- The number of channels a range is written to: channel 0, and the channels below `NCH` (R164, R165). -/
def State.chans (s : State) : Nat := s.nch.toNat - 1 + 1

/-- What `RENDER_RANGE` can do (R164, R165): any property kept by voice writes and by buffer writes inside the range is
kept by it. -/
theorem renderRange_induct {P : State → Prop} {a b : Nat} (s : State) (h : RangeKept P s.chans a b) (hab : a ≤ b)
    (hs : P s) : P (s.renderRange a b) := by
  unfold State.renderRange
  split
  · exact hs
  · have hm : P (s.mixVoices a b) := mixVoices_induct h (Nat.succ_pos _) hab slots s hs
    have hn : (s.mixVoices a b).nch = s.nch := by
      have := mixVoices_induct (soundOnly_kept s s.chans a b) (Nat.succ_pos _) hab slots s rfl
      exact this.nch
    unfold State.copyChannels
    apply copyFrom_induct h hab _ _ _ hm
    rw [hn]
    unfold State.chans
    omega

/-- `RENDER_RANGE` writes the voice file and the RAMs and nothing else. -/
theorem State.renderRange_soundOnly (s : State) {a b : Nat} (hab : a ≤ b) : SoundOnly s (s.renderRange a b) :=
  renderRange_induct s (soundOnly_kept s _ a b) hab rfl

/-- The bytes `RENDER_RANGE` leaves alone (R58): all outside the samples of the range. -/
theorem State.renderRange_readByte (s : State) {a b x : Nat} (hab : a ≤ b)
    (hx : ∀ c f, c < s.chans → a ≤ f → f < b → x < bufAddr s.cfg c f ∨ bufAddr s.cfg c f + 4 ≤ x) :
    (s.renderRange a b).readByte x = s.readByte x := by
  refine (renderRange_induct (P := fun t => t.cfg = s.cfg ∧ t.readByte x = s.readByte x) s ⟨?_, ?_⟩ hab ⟨rfl, rfl⟩).2
  · intro t n v h
    exact h
  · intro t c f w h hc ha hb
    refine ⟨by simp [h.1], ?_⟩
    rw [← h.2]
    exact State.readByte_writeWord_outside _ _ (by rw [h.1]; exact hx c f hc ha hb)

end Sys2Proof.Machine
end

