-- ==== Sys2Proof/Laws/Render.lean ====
section
/-! SUPPORT. The laws `RENDER` rests on: the mixing stage reads nothing but the configuration, `NCH`, the voices and the
RAMs; the event RAM is out of its reach; the validation pass says exactly that every event is legal. -/

namespace Sys2Proof.Machine

/-! ### What the mixing stage reads -/

/-- Two states alike in all that the mixing stage reads. -/
structure SameSound (s t : State) : Prop where
  cfg : s.cfg = t.cfg
  nch : s.nch = t.nch
  epoch : s.epoch = t.epoch
  voices : s.voices = t.voices
  mem : s.mem = t.mem

theorem SameSound.refl (s : State) : SameSound s s := ⟨rfl, rfl, rfl, rfl, rfl⟩

theorem SameSound.voice {s t : State} (h : SameSound s t) (n : Fin 128) : s.voice n = t.voice n := by
  simp [State.voice, h.voices]

theorem SameSound.buf {s t : State} (h : SameSound s t) (c f : Nat) : s.buf c f = t.buf c f := by
  simp only [State.buf, h.cfg]
  exact State.readWord_congr h.mem h.epoch _

theorem SameSound.setVoice {s t : State} (h : SameSound s t) (n : Fin 128) (v : Voice) :
    SameSound (s.setVoice n v) (t.setVoice n v) :=
  ⟨h.cfg, h.nch, h.epoch, by simp [State.setVoice, h.voices], h.mem⟩

theorem SameSound.setBuf {s t : State} (h : SameSound s t) (c f : Nat) (w : Word) :
    SameSound (s.setBuf c f w) (t.setBuf c f w) :=
  ⟨h.cfg, h.nch, h.epoch, h.voices, by simp [h.cfg, h.mem]⟩

theorem SameSound.mixFrame {s t : State} (h : SameSound s t) (n : Fin 128) (f : Nat) :
    SameSound (s.mixFrame n f) (t.mixFrame n f) := by
  rw [State.mixFrame_eq, State.mixFrame_eq, h.voice, h.buf, h.cfg]
  exact (h.setVoice n _).setBuf 0 f _

theorem SameSound.mixFrames {s t : State} (h : SameSound s t) (n : Fin 128) (count f : Nat) :
    SameSound (s.mixFrames n count f) (t.mixFrames n count f) := by
  induction count generalizing s t f with
  | zero => exact h
  | succ count ih => exact ih (h.mixFrame n f) (f + 1)

theorem SameSound.mixVoices {s t : State} (h : SameSound s t) (a b : Nat) (l : List (Fin 128)) :
    SameSound (l.foldl (fun u n => u.mixVoice n a b) s) (l.foldl (fun u n => u.mixVoice n a b) t) := by
  induction l generalizing s t with
  | nil => exact h
  | cons n l ih =>
    simp only [List.foldl_cons]
    apply ih
    unfold State.mixVoice
    rw [show s.isActive n = t.isActive n by simp [State.isActive, h.voice]]
    split
    · exact h.mixFrames n _ _
    · exact h

theorem SameSound.copyFrames {s t : State} (h : SameSound s t) (c count f : Nat) :
    SameSound (s.copyFrames c count f) (t.copyFrames c count f) := by
  induction count generalizing s t f with
  | zero => exact h
  | succ count ih =>
    rw [State.copyFrames_succ, State.copyFrames_succ, h.buf]
    exact ih (h.setBuf c f _) (f + 1)

theorem SameSound.copyFrom {s t : State} (h : SameSound s t) (a b count c : Nat) :
    SameSound (s.copyFrom a b count c) (t.copyFrom a b count c) := by
  induction count generalizing s t c with
  | zero => exact h
  | succ count ih => exact ih (h.copyFrames c _ _) (c + 1)

/-- `RENDER_RANGE` depends on the configuration, `NCH`, the voices and the RAMs alone. -/
theorem SameSound.renderRange {s t : State} (h : SameSound s t) (a b : Nat) :
    SameSound (s.renderRange a b) (t.renderRange a b) := by
  unfold State.renderRange
  split
  · exact h
  · have hm : SameSound (s.mixVoices a b) (t.mixVoices a b) := h.mixVoices a b slots
    unfold State.copyChannels
    rw [hm.nch]
    exact hm.copyFrom a b _ _

/-- An empty sub-range is a no-op (R164). -/
@[simp] theorem State.renderRange_self (s : State) (a : Nat) : s.renderRange a a = s := by
  simp [State.renderRange]

/-! ### The event RAM -/

theorem State.evq_congr {s t : State} (hm : s.mem = t.mem) (he : s.epoch = t.epoch) (k : Nat) : s.evq k = t.evq k := by
  simp only [State.evq, State.readWord_congr hm he]

/-- The event words of the block are out of reach of the mixing stage (R58). -/
theorem State.renderRange_evq (s : State) {a b k : Nat} (hab : a ≤ b) (hk : k < s.cfg.maxEv) :
    (s.renderRange a b).evq k = s.evq k := by
  have hme := s.cfg.maxEv_range
  have hb : ∀ x, x < 0x100000 → (s.renderRange a b).readByte x = s.readByte x := by
    intro x hx
    apply State.renderRange_readByte s hab
    intro c f _ _ _
    left
    unfold bufAddr
    omega
  simp only [State.evq, State.readWord, evqAddr]
  rw [hb, hb, hb, hb, hb, hb, hb, hb] <;> omega

/-! ### Validation -/

/-- An event passes the checks of R161 exactly when none of them fails. -/
theorem eventFault_none {blen prev : Nat} {e : EventWord} :
    eventFault blen prev e = none ↔
      (evType e = 0x01#8 ∨ evType e = 0x02#8 ∨ evType e = 0x03#8) ∧ (evTs e).toNat ≤ blen
        ∧ prev ≤ (evTs e).toNat ∧ (evType e = 0x03#8 ∨ (evNote e).toNat < 128) := by
  unfold eventFault
  by_cases h1 : evType e = 0x01#8
  · simp [h1]
    grind
  · by_cases h2 : evType e = 0x02#8
    · simp [h2]
      grind
    · by_cases h3 : evType e = 0x03#8
      · simp [h3]
        grind
      · simp [h1, h2, h3]

/-- A cause `eventFault` names is an event cause. -/
theorem eventFault_ofEvent {blen prev : Nat} {e : EventWord} {c : Cause} (h : eventFault blen prev e = some c) :
    c.ofEvent = true := by
  unfold eventFault at h
  split_ifs at h <;> simp only [Option.some.injEq] at h <;> subst h <;> rfl

/-- An event that passes the checks decodes, and its instruction carries its TS (R84). -/
theorem decodeEvent_of_legal {blen prev : Nat} {e : EventWord} (h : eventFault blen prev e = none) :
    ∃ i, decodeEvent e = .ok i ∧ i.ts = evTs e := by
  obtain ⟨ht, -⟩ := eventFault_none.1 h
  unfold decodeEvent
  by_cases h1 : evType e = 0x01#8
  · exact ⟨_, by rw [if_pos h1], rfl⟩
  · by_cases h2 : evType e = 0x02#8
    · exact ⟨_, by rw [if_neg h1, if_pos h2], rfl⟩
    · by_cases h3 : evType e = 0x03#8
      · exact ⟨_, by rw [if_neg h1, if_neg h2, if_pos h3], rfl⟩
      · simp [h1, h2, h3] at ht

/-- The timestamp before index k of a block (R161): 0 before the first event. -/
def State.prevTs (s : State) (k : Nat) : Nat := if k = 0 then 0 else (evTs (s.evq (k - 1))).toNat

/-- An event passes against the previous timestamp exactly when it is legal in its block. -/
theorem State.eventOk_iff (s : State) (k : Nat) :
    s.eventOk k ↔ eventFault s.blen.toNat (s.prevTs k) (s.evq k) = none := by
  rw [eventFault_none]
  unfold State.eventOk State.prevTs
  by_cases h : k = 0
  · simp [h]
  · simp [h, Nat.pos_of_ne_zero h]

/-- The validation pass finds nothing exactly when every event it looks at is legal (R161). -/
theorem State.validateFrom_none (s : State) (count k : Nat) :
    s.validateFrom count k (s.prevTs k) = none ↔ ∀ j, k ≤ j → j < k + count → s.eventOk j := by
  induction count generalizing k with
  | zero => simp [State.validateFrom]; omega
  | succ count ih =>
    unfold State.validateFrom
    have hp : (evTs (s.evq k)).toNat = s.prevTs (k + 1) := by simp [State.prevTs]
    rw [hp]
    cases hf : eventFault s.blen.toNat (s.prevTs k) (s.evq k) with
    | none =>
      simp only [ih]
      constructor
      · intro h j hj hj'
        rcases Nat.lt_or_ge k j with hlt | hge
        · exact h j hlt (by omega)
        · have : j = k := by omega
          subst this
          exact (s.eventOk_iff j).2 hf
      · intro h j hj hj'
        exact h j (by omega) (by omega)
    | some c =>
      simp only [reduceCtorEq, false_iff]
      intro h
      have := (s.eventOk_iff k).1 (h k (Nat.le_refl _) (by omega))
      rw [this] at hf
      cases hf

/-- The validation pass stops at the first event that is not legal, with the cause of its first failing check. -/
theorem State.validateFrom_first (s : State) {count k i : Nat} {c : Cause} (hk : k ≤ i) (hi : i < k + count)
    (hb : ∀ j, k ≤ j → j < i → s.eventOk j) (hc : eventFault s.blen.toNat (s.prevTs i) (s.evq i) = some c) :
    s.validateFrom count k (s.prevTs k) = some (c, i) := by
  induction count generalizing k with
  | zero => omega
  | succ count ih =>
    unfold State.validateFrom
    rcases Nat.lt_or_ge k i with hlt | hge
    · have hf := (s.eventOk_iff k).1 (hb k (Nat.le_refl _) hlt)
      have hp : (evTs (s.evq k)).toNat = s.prevTs (k + 1) := by simp [State.prevTs]
      rw [hf, hp]
      exact ih hlt (by omega) (fun j h1 h2 => hb j (by omega) h2)
    · have : k = i := by omega
      subst this
      rw [hc]

/-- Validation finds nothing exactly when every event of the block is legal. -/
theorem State.validate_none (s : State) : s.validate = none ↔ ∀ k, k < s.nev.toNat → s.eventOk k := by
  have := s.validateFrom_none s.nev.toNat 0
  simp only [State.prevTs, if_true] at this
  rw [State.validate, this]
  simp

/-! ### The sequencer's position and the sound -/

/-- The state at another position of the sequencer. -/
def State.seqAt (s : State) (m : Mode) (k cur : Nat) : State := { s with mode := m, k := k, cur := cur }

/-- `RENDER_RANGE` does not see the sequencer's position. -/
theorem State.renderRange_seqAt (s : State) (m : Mode) (k cur : Nat) {a b : Nat} (hab : a ≤ b) :
    (s.seqAt m k cur).renderRange a b = (s.renderRange a b).seqAt m k cur := by
  have h : SameSound ((s.seqAt m k cur).renderRange a b) (s.renderRange a b) :=
    SameSound.renderRange (s := s.seqAt m k cur) (t := s) ⟨rfl, rfl, rfl, rfl, rfl⟩ a b
  have h1 : SoundOnly (s.seqAt m k cur) _ := State.renderRange_soundOnly _ hab
  have h2 : SoundOnly s _ := State.renderRange_soundOnly s hab
  unfold SoundOnly at h1
  rw [h1, h.voices, h.mem]
  unfold SoundOnly at h2
  conv_rhs => rw [h2]
  rfl

/-- An event's effect at its boundary by its TYPE does not see the sequencer's position. -/
theorem State.applyWord_seqAt (s : State) (m : Mode) (k cur : Nat) (e : EventWord) :
    (s.seqAt m k cur).applyWord e = (s.applyWord e).seqAt m k cur := by
  unfold State.applyWord
  split
  · split <;> rfl
  · split
    · split <;> rfl
    · rw [State.stopAll_eq, State.stopAll_eq]; rfl

/-- The effect of a legal event's instruction is the effect R170–R172 give its TYPE. -/
theorem State.apply_of_legal (s : State) {blen prev : Nat} {e : EventWord} {i : Instr}
    (h : eventFault blen prev e = none) (hd : decodeEvent e = .ok i) : s.apply i = .next (s.applyWord e) := by
  obtain ⟨-, -, -, hn⟩ := eventFault_none.1 h
  have hsl : (evNote e).toNat < 128 → ∃ n, slotOf (evNote e) = some n := fun hh => ⟨_, dif_pos hh⟩
  unfold decodeEvent at hd
  unfold State.applyWord
  by_cases h1 : evType e = 0x01#8
  · have hlt : (evNote e).toNat < 128 := by rcases hn with h3 | h3; · simp [h1] at h3
                                            · exact h3
    obtain ⟨n, hs⟩ := hsl hlt
    rw [if_pos h1] at hd
    cases hd
    simp [State.apply, execNoteOn, h1, hs]
  · rw [if_neg h1] at hd
    by_cases h2 : evType e = 0x02#8
    · have hlt : (evNote e).toNat < 128 := by rcases hn with h3 | h3; · simp [h2] at h3
                                              · exact h3
      obtain ⟨n, hs⟩ := hsl hlt
      rw [if_pos h2] at hd
      cases hd
      simp [State.apply, execNoteOff, h2, hs]
    · rw [if_neg h2] at hd
      by_cases h3 : evType e = 0x03#8
      · rw [if_pos h3] at hd
        cases hd
        simp [State.apply, execAllNotesOff, h3]
      · rw [if_neg h3] at hd
        cases hd

/-- An event's effect writes the voice file alone. -/
theorem State.applyWord_soundOnly (s : State) (e : EventWord) : SoundOnly s (s.applyWord e) := by
  unfold State.applyWord
  split
  · split <;> rfl
  · split
    · split <;> rfl
    · rw [State.stopAll_eq]; rfl

theorem State.applyWord_mem (s : State) (e : EventWord) : (s.applyWord e).mem = s.mem := by
  unfold State.applyWord
  split
  · split <;> rfl
  · split
    · split <;> rfl
    · rw [State.stopAll_eq]

/-- A turn of the loop at a legal event: no fault, and the turn R162 gives. -/
theorem State.eventUnit_of_legal (s : State) (e : EventWord) (he : s.evq s.k = e)
    (h : eventFault s.blen.toNat s.cur e = none) :
    s.eventUnit (fun i t => t.apply i)
      = .next (((s.renderRange s.cur (evTs e).toNat).applyWord e).advance (evTs e)) := by
  obtain ⟨i, hd, hts⟩ := decodeEvent_of_legal h
  have hat : s.eventAt = .ok i := by simp only [State.eventAt, he, h, hd]
  simp only [State.eventUnit, hat, thenNext, hts, State.apply_of_legal _ h hd]

/-- A legal block begins its execution pass at K = CUR = 0 (R162). -/
theorem State.beginRender_of_renderable {s : State} (h : Renderable s) :
    s.beginRender = { s with mode := .rendering, k := 0, cur := 0 } := by
  unfold State.beginRender
  simp [h.prepared, h.block, s.validate_none.2 h.events]

end Sys2Proof.Machine
end

