-- ==== Sys2Proof/Laws/Mixing.lean ====
section
/-! SUPPORT. The values the mixing stage computes, one spec lemma for each of its loops (R164, R165): the frames of one
voice, the voices of a range, the copies of a channel. -/

namespace Sys2Proof.Machine

/-- The phase after j + 1 samples is the phase after j samples of the voice one sample on. -/
theorem phaseAfter_succ (c : Config) (v : Voice) (j : Nat) :
    phaseAfter c ⟨nextPhase c v.phase v.inc, v.inc⟩ j = phaseAfter c v (j + 1) := by
  induction j with
  | zero => rfl
  | succ j ih => simp only [phaseAfter] at ih ⊢; rw [ih]

/-- The index of a sample in the buffer RAM, in samples. -/
def sampleIndex (c : Config) (ch f : Nat) : Nat := ch * c.maxBlen + f

theorem State.buf_setBuf (s : State) (c f d g : Nat) (w : Word) :
    (s.setBuf c f w).buf d g = if sampleIndex s.cfg c f = sampleIndex s.cfg d g then w else s.buf d g := by
  split
  · next h =>
    have : bufAddr s.cfg d g = bufAddr s.cfg c f := by unfold sampleIndex at h; simp only [bufAddr]; omega
    simp only [State.buf, State.setBuf, State.writeWord_cfg, this, State.readWord_writeWord_self]
  · next h => exact State.buf_setBuf_ne s w h

/-- The frames of one voice (R164, R115): its phase moves on by their number, each frame of channel 0 takes its sample,
every other voice and sample stays. -/
theorem State.mixFrames_spec (s : State) (n : Fin 128) (count f : Nat) :
    (s.mixFrames n count f).voice n = ⟨phaseAfter s.cfg (s.voice n) count, (s.voice n).inc⟩
    ∧ (∀ m, m ≠ n → (s.mixFrames n count f).voice m = s.voice m)
    ∧ (∀ d g, (sampleIndex s.cfg d g < f ∨ f + count ≤ sampleIndex s.cfg d g) →
        (s.mixFrames n count f).buf d g = s.buf d g)
    ∧ (∀ g, f ≤ g → g < f + count →
        (s.mixFrames n count f).buf 0 g = fadd32 (s.buf 0 g) (sampleOf s.cfg (s.voice n) (g - f))) := by
  induction count generalizing s f with
  | zero => exact ⟨rfl, fun _ _ => rfl, fun _ _ _ => rfl, fun g h1 h2 => by omega⟩
  | succ count ih =>
    rw [State.mixFrames_succ]
    have hc : (s.mixFrame n f).cfg = s.cfg := by rw [State.mixFrame_eq]; rfl
    have hv : (s.mixFrame n f).voice n = ⟨nextPhase s.cfg (s.voice n).phase (s.voice n).inc, (s.voice n).inc⟩ := by
      rw [State.mixFrame_eq]
      show ((s.setVoice n _).voice n) = _
      rw [State.voice_setVoice_self]
    have ho : ∀ m, m ≠ n → (s.mixFrame n f).voice m = s.voice m := by
      intro m hm
      rw [State.mixFrame_eq]
      show ((s.setVoice n _).voice m) = _
      rw [State.voice_setVoice_ne _ _ hm]
    have hb : ∀ d g, (s.mixFrame n f).buf d g
        = if f = sampleIndex s.cfg d g then fadd32 (s.buf 0 f) (sampleAt s.cfg (s.voice n).phase) else s.buf d g := by
      intro d g
      rw [State.mixFrame_eq, State.buf_setBuf]
      simp only [State.setVoice_cfg, sampleIndex, Nat.zero_mul, Nat.zero_add]
      rfl
    obtain ⟨i1, i2, i3, i4⟩ := ih (s.mixFrame n f) (f + 1)
    rw [hc] at i1 i3 i4
    rw [hv] at i1 i4
    refine ⟨?_, ?_, ?_, ?_⟩
    · rw [i1, phaseAfter_succ]
    · intro m hm
      rw [i2 m hm, ho m hm]
    · intro d g hg
      rw [i3 d g (by omega), hb, if_neg (by omega)]
    · intro g h1 h2
      rcases Nat.lt_or_ge f g with hlt | hge
      · rw [i4 g (by omega) (by omega), hb, if_neg (by simp [sampleIndex]; omega)]
        simp only [sampleOf, phaseAfter_succ]
        rw [show g - (f + 1) + 1 = g - f by omega]
      · have : g = f := by omega
        subst this
        rw [i3 0 g (by simp [sampleIndex]), hb, if_pos (by simp [sampleIndex])]
        simp [sampleOf, phaseAfter]

/-- The voices of a list mixed over a range (R164): an active one moves on by the range's length and adds its samples to
channel 0 in the list's order, an inactive one does nothing. -/
theorem foldl_mixVoice_spec (l : List (Fin 128)) (hl : l.Nodup) (s : State) {a b : Nat} (hab : a ≤ b) :
    (∀ m, (l.foldl (fun t n => t.mixVoice n a b) s).voice m
        = if m ∈ l ∧ s.isActive m = true then ⟨phaseAfter s.cfg (s.voice m) (b - a), (s.voice m).inc⟩ else s.voice m)
    ∧ (∀ d g, (sampleIndex s.cfg d g < a ∨ b ≤ sampleIndex s.cfg d g) →
        (l.foldl (fun t n => t.mixVoice n a b) s).buf d g = s.buf d g)
    ∧ (∀ g, a ≤ g → g < b →
        (l.foldl (fun t n => t.mixVoice n a b) s).buf 0 g
          = (l.filter s.isActive).foldl (fun acc n => fadd32 acc (sampleOf s.cfg (s.voice n) (g - a))) (s.buf 0 g)) := by
  induction l generalizing s with
  | nil => simp
  | cons n l ih =>
    obtain ⟨hn, hl⟩ := List.nodup_cons.1 hl
    simp only [List.foldl_cons]
    by_cases hact : s.isActive n = true
    · have hmv : s.mixVoice n a b = s.mixFrames n (b - a) a := by simp [State.mixVoice, hact]
      have hcfg : (s.mixFrames n (b - a) a).cfg = s.cfg :=
        (mixFrames_induct (soundOnly_kept s 1 a b) (by decide) n (b - a) a s rfl (Nat.le_refl _) (by omega)).cfg
      obtain ⟨v1, v2, b1, b2⟩ := s.mixFrames_spec n (b - a) a
      obtain ⟨i1, i2, i3⟩ := ih hl (s.mixFrames n (b - a) a)
      have ha : ∀ m, m ≠ n → (s.mixFrames n (b - a) a).isActive m = s.isActive m := by
        intro m hm
        simp only [State.isActive, v2 m hm]
      rw [hmv]
      refine ⟨?_, ?_, ?_⟩
      · intro m
        rw [i1 m, hcfg]
        by_cases hm : m = n
        · subst hm
          simp [hn, v1, hact]
        · simp [hm, ha m hm, v2 m hm]
      · intro d g hg
        rw [i2 d g (by rw [hcfg]; exact hg), b1 d g (by omega)]
      · intro g h1 h2
        rw [i3 g h1 h2, List.filter_cons_of_pos (by simpa using hact), List.foldl_cons, b2 g h1 (by omega), hcfg]
        have hf : l.filter (s.mixFrames n (b - a) a).isActive = l.filter s.isActive := by
          apply List.filter_congr
          intro m hm
          exact ha m (fun e => hn (e ▸ hm))
        rw [hf]
        apply List.foldl_ext
        intro acc m hm
        rw [v2 m (fun e => hn (e ▸ (List.mem_filter.1 hm).1))]
    · have hmv : s.mixVoice n a b = s := by simp [State.mixVoice, hact]
      rw [hmv, List.filter_cons_of_neg (by simpa using hact)]
      obtain ⟨i1, i2, i3⟩ := ih hl s
      refine ⟨?_, i2, i3⟩
      intro m
      rw [i1 m]
      by_cases hm : m = n
      · subst hm; simp [hn, hact]
      · simp [hm]

theorem slots_nodup : slots.Nodup := List.nodup_finRange 128

theorem mem_slots (n : Fin 128) : n ∈ slots := List.mem_finRange n

/-- The copies of one channel (R165), a channel other than 0 over frames inside the buffer: each frame of it becomes
channel 0's word, every other sample and every voice stays. -/
theorem State.copyFrames_spec (s : State) (c count f : Nat) (hc : 0 < c) (hf : f + count ≤ s.cfg.maxBlen) :
    (s.copyFrames c count f).voices = s.voices
    ∧ (s.copyFrames c count f).cfg = s.cfg
    ∧ (∀ d g, (sampleIndex s.cfg d g < sampleIndex s.cfg c f ∨ sampleIndex s.cfg c f + count ≤ sampleIndex s.cfg d g) →
        (s.copyFrames c count f).buf d g = s.buf d g)
    ∧ (∀ g, f ≤ g → g < f + count → (s.copyFrames c count f).buf c g = s.buf 0 g) := by
  have hcm : s.cfg.maxBlen ≤ c * s.cfg.maxBlen := Nat.le_mul_of_pos_left _ hc
  induction count generalizing s f with
  | zero => exact ⟨rfl, rfl, fun _ _ _ => rfl, fun g h1 h2 => by omega⟩
  | succ count ih =>
    rw [State.copyFrames_succ]
    obtain ⟨i1, i2, i3, i4⟩ := ih (s.setBuf c f (s.buf 0 f)) (f + 1) (by simp; omega) (by simpa using hcm)
    simp only [State.setBuf_cfg, State.setBuf_voices] at i1 i2 i3
    refine ⟨i1, i2, ?_, ?_⟩
    · intro d g hg
      unfold sampleIndex at hg i3
      rw [i3 d g (by omega), State.buf_setBuf, if_neg (by unfold sampleIndex; omega)]
    · intro g h1 h2
      rcases Nat.lt_or_ge f g with hlt | hge
      · rw [i4 g (by omega) (by omega), State.buf_setBuf, if_neg (by unfold sampleIndex; omega)]
      · have : g = f := by omega
        subst this
        unfold sampleIndex at i3
        rw [i3 c g (by omega), State.buf_setBuf, if_pos rfl]

/-- The copies of the channels from c on (R165). -/
theorem State.copyFrom_spec (s : State) {a b : Nat} (count c : Nat) (hc : 0 < c) (hab : a ≤ b)
    (hb : b ≤ s.cfg.maxBlen) :
    (s.copyFrom a b count c).voices = s.voices
    ∧ (∀ d g, g < s.cfg.maxBlen → (d < c ∨ c + count ≤ d ∨ g < a ∨ b ≤ g) →
        (s.copyFrom a b count c).buf d g = s.buf d g)
    ∧ (∀ d g, c ≤ d → d < c + count → a ≤ g → g < b → (s.copyFrom a b count c).buf d g = s.buf 0 g) := by
  induction count generalizing s c with
  | zero => exact ⟨rfl, fun _ _ _ _ => rfl, fun d g h1 h2 => by omega⟩
  | succ count ih =>
    rw [State.copyFrom_succ]
    obtain ⟨v, e, o, w⟩ := s.copyFrames_spec c (b - a) a hc (by omega)
    obtain ⟨i1, i2, i3⟩ := ih (s.copyFrames c (b - a) a) (c + 1) (by omega) (by rw [e]; exact hb)
    rw [e] at i2
    have off : ∀ d g, g < s.cfg.maxBlen → (d ≠ c ∨ g < a ∨ b ≤ g) →
        (s.copyFrames c (b - a) a).buf d g = s.buf d g := by
      intro d g hg h
      apply o
      unfold sampleIndex
      rcases Nat.lt_trichotomy d c with hlt | heq | hgt
      · have := Nat.mul_le_mul_right s.cfg.maxBlen (Nat.succ_le_of_lt hlt)
        rw [Nat.succ_mul] at this
        omega
      · subst heq
        omega
      · have := Nat.mul_le_mul_right s.cfg.maxBlen (Nat.succ_le_of_lt hgt)
        rw [Nat.succ_mul] at this
        omega
    refine ⟨by rw [i1, v], ?_, ?_⟩
    · intro d g hg h
      rw [i2 d g hg (by omega), off d g hg (by omega)]
    · intro d g h1 h2 h3 h4
      rcases Nat.lt_or_ge c d with hlt | hge
      · rw [i3 d g (by omega) (by omega) h3 h4, off 0 g (by omega) (by omega)]
      · have : d = c := by omega
        subst this
        rw [i2 d g (by omega) (by omega), w g h3 (by omega)]

end Sys2Proof.Machine
end

