-- ==== Sys2Proof/Laws/Step.lean ====
section
/-! SUPPORT. What a step can do, said once: which move it takes, what a host access answers, and the three ways a bus
write ends. -/

namespace Sys2Proof.Machine

/-! ### The bus -/

/-- A read changes the answer alone. -/
theorem State.hostRead_frame (s : State) (off : Word) (width : Nat) :
    s.hostRead off width = { s with reply := (s.hostRead off width).reply } := by
  unfold State.hostRead
  split
  · split <;> rfl
  · rfl

theorem ite_ne {α : Type} {p : Prop} [Decidable p] {a b x : α} (ha : a ≠ x) (hb : b ≠ x) : (if p then a else b) ≠ x := by
  split
  · exact ha
  · exact hb

/-- `CMD` stands at offset 0 alone. -/
theorem elemAt_cmd {c : Config} {a : Nat} (h : elemAt c a = some .cmd) : a = 0 := by
  by_contra ha
  have hv : ∀ d, voiceElem d ≠ some .cmd := fun d => by
    unfold voiceElem
    split
    · split <;> simp
    · simp
  unfold elemAt at h
  rw [if_neg ha] at h
  revert h
  iterate 11 refine ite_ne (by simp) ?_
  exact ite_ne (hv _) (ite_ne (by simp) (ite_ne (by simp) (ite_ne (by simp) (by simp))))

@[simp] theorem target_cmd (c : Config) : target c offCmd 4 = some .cmd := by
  simp [target, offCmd, elemAt]

/-- The accesses that reach `CMD`. -/
theorem target_eq_cmd {c : Config} {off : Word} {width : Nat} (h : target c off width = some .cmd) :
    off = offCmd ∧ width = 4 := by
  unfold target at h
  split at h
  · rename_i hw
    refine ⟨?_, hw.1⟩
    apply BitVec.eq_of_toNat_eq
    rw [elemAt_cmd h]
    rfl
  · cases h

/-- A write ends in a bus error, starts a command at the idle block, or writes one other element of it. -/
theorem State.hostWrite_cases {start : Word → State → Host.Outcome State Fault Refusal} {s t : State} {off v : Word}
    {width : Nat} (h : s.hostWrite start off width v = .next t) :
    t = s.busError
      ∨ (s.mode = .idle ∧ off = offCmd ∧ width = 4 ∧ start v (s.answer 0) = .next t)
      ∨ (s.mode = .idle ∧ ∃ e, target s.cfg off width = some e ∧ e ≠ .cmd ∧ t = (s.writeElem e v).answer 0) := by
  unfold State.hostWrite at h
  split at h
  · rename_i e he
    have hb : s.busy = true ∨ s.mode = .idle := by unfold State.busy; cases s.mode <;> simp
    split at h
    · injection h with h
      exact .inl h.symm
    · rename_i hn
      have hm : s.mode = .idle := hb.resolve_left hn
      split at h
      · rename_i hc
        obtain ⟨h1, h2⟩ := target_eq_cmd (hc ▸ he)
        exact .inr (.inl ⟨hm, h1, h2, h⟩)
      · rename_i hc
        injection h with h
        exact .inr (.inr ⟨hm, e, he, hc, h.symm⟩)
  · injection h with h
    exact .inl h.symm

/-- A write of an element other than `CMD` changes a configuration register or the RAM contents, nothing else. -/
theorem State.writeElem_frame (s : State) (e : Elem) (v : Word) :
    s.writeElem e v = { s with
      sr := (s.writeElem e v).sr, nch := (s.writeElem e v).nch, blen := (s.writeElem e v).blen,
      nev := (s.writeElem e v).nev, mem := (s.writeElem e v).mem } := by
  cases e <;> rfl

/-! ### The commands -/

/-- Raising a fault ends the command and leaves everything but the fault record. -/
theorem State.raiseFault_frame (s : State) (c : Cause) (i : Nat) :
    s.raiseFault c i = { s with
      fault := (s.raiseFault c i).fault, cause := (s.raiseFault c i).cause,
      findex := (s.raiseFault c i).findex, mode := .idle } := by
  unfold State.raiseFault
  split <;> rfl

/-- A `PREPARE` with a legal sample rate. -/
theorem State.prepare_legal {s : State} (h : sampleRateLegal s.sr = true) :
    s.prepare = { s with
      sra := s.sr, voices := Vector.replicate 128 ⟨posZero, posZero⟩, prepared := true, fault := false,
      cause := .noFault, findex := 0#16, mode := .idle } := by
  unfold State.prepare
  rw [if_pos h, State.stopAll_eq]
  rfl

/-- A `PREPARE` with an illegal one. -/
theorem State.prepare_illegal {s : State} (h : sampleRateLegal s.sr = false) :
    s.prepare = s.raiseFault .invalidSampleRate 0 := by
  unfold State.prepare
  rw [if_neg (by simp [h])]

/-- The beginning of a `RENDER` ends in one of its faults, or begins the execution pass of a block that passed every
check. -/
theorem State.beginRender_cases (s : State) :
    (∃ c i, c ≠ .noFault ∧ s.beginRender = s.raiseFault c i ∧ (c.ofEvent = false → i = 0))
      ∨ (s.prepared = true ∧ s.blockLegal = true ∧ (∀ k, k < s.nev.toNat → s.eventOk k)
        ∧ s.beginRender = s.seqAt .rendering 0 0) := by
  unfold State.beginRender
  split
  · exact .inl ⟨_, _, by decide, rfl, fun _ => rfl⟩
  · split
    · exact .inl ⟨_, _, by decide, rfl, fun _ => rfl⟩
    · rename_i hp hb
      split
      · rename_i c k hv
        refine .inl ⟨c, k, ?_, rfl, ?_⟩
        · rintro rfl
          exact absurd (validate_ofEvent hv) (by decide)
        · intro hc
          rw [validate_ofEvent hv] at hc
          cases hc
      · rename_i hv
        exact .inr ⟨by simpa using hp, by simpa using hb, s.validate_none.1 hv, rfl⟩
where
  validateFrom_ofEvent {s : State} {count k prev i : Nat} {c : Cause} (h : s.validateFrom count k prev = some (c, i)) :
      c.ofEvent = true := by
    induction count generalizing k prev with
    | zero => simp [State.validateFrom] at h
    | succ count ih =>
      unfold State.validateFrom at h
      split at h
      · rename_i d hd
        simp only [Option.some.injEq, Prod.mk.injEq] at h
        exact h.1 ▸ eventFault_ofEvent hd
      · exact ih h
  validate_ofEvent {s : State} {i : Nat} {c : Cause} (h : s.validate = some (c, i)) : c.ofEvent = true :=
    validateFrom_ofEvent h

/-! ### The units of a render -/

/-- A render that has ended has no unit left. -/
theorem State.executeFrom_idle {s : State} (h : s.mode = .idle) (count : Nat) : s.executeFrom count = .next s := by
  cases count <;> simp [State.executeFrom, h]

/-- An event's meaning is the same in `exec` and in the execution pass. -/
theorem exec_eq_apply {e : EventWord} {i : Instr} (h : decodeEvent e = .ok i) (s : State) : exec i s = s.apply i := by
  unfold decodeEvent at h
  split_ifs at h <;> injection h with h <;> subst h <;> rfl

/-- A unit of a render takes the fault of its event, or changes the voices, the RAM contents and the sequencer's position
alone. -/
theorem State.eventUnit_cases {s t : State} (h : s.eventUnit exec = .next t) :
    (∃ c, eventFault s.blen.toNat s.cur (s.evq s.k) = some c ∧ t = s.raiseFault c s.k)
      ∨ (eventFault s.blen.toNat s.cur (s.evq s.k) = none
        ∧ t = ((s.renderRange s.cur (evTs (s.evq s.k)).toNat).applyWord (s.evq s.k)).advance (evTs (s.evq s.k))) := by
  unfold State.eventUnit State.eventAt at h
  cases hf : eventFault s.blen.toNat s.cur (s.evq s.k) with
  | some c =>
    simp only [hf] at h
    injection h with h
    exact .inl ⟨c, rfl, h.symm⟩
  | none =>
    obtain ⟨i, hd, hts⟩ := decodeEvent_of_legal hf
    simp only [hf, hd] at h
    rw [exec_eq_apply hd, State.apply_of_legal _ hf hd, hts] at h
    simp only [thenNext] at h
    injection h with h
    exact .inr ⟨rfl, h.symm⟩

/-- The mixing stage does not see the moves to come. -/
theorem State.renderRange_moves (s : State) (m : List Move) {a b : Nat} (h : a ≤ b) :
    ({ s with moves := m } : State).renderRange a b = { s.renderRange a b with moves := m } := by
  have h0 : SameSound (({ s with moves := m } : State).renderRange a b) (s.renderRange a b) :=
    SameSound.renderRange (s := { s with moves := m }) (t := s) ⟨rfl, rfl, rfl, rfl, rfl⟩ a b
  have h1 : SoundOnly ({ s with moves := m } : State) _ := State.renderRange_soundOnly _ h
  have h2 : SoundOnly s _ := State.renderRange_soundOnly s h
  unfold SoundOnly at h1 h2
  rw [h1, h2, h0.voices, h0.mem]

/-- Where the turns of R162 stand before event i of a block that started at s: only voices and RAM contents differ from s,
the current sample is the previous timestamp, and the event words are those of s. -/
structure Along (s : State) (p : State × Nat) (i : Nat) : Prop where
  frame : SoundOnly s p.1
  cur : p.2 = s.prevTs i
  events : ∀ k, k < s.cfg.maxEv → p.1.evq k = s.evq k

/-- One turn keeps that, and one unit of the render is one turn. -/
theorem along_step {s : State} (hr : Renderable s) {p : State × Nat} {i : Nat} (hi : i < s.nev.toNat)
    (h : Along s p i) :
    Along s (blockTurn p (s.evq i)) (i + 1)
      ∧ (p.1.seqAt .rendering i p.2).eventUnit (fun j t => t.apply j)
        = .next ((blockTurn p (s.evq i)).1.seqAt .rendering (i + 1) (blockTurn p (s.evq i)).2) := by
  have hb := hr.block
  simp only [State.blockLegal, Bool.and_eq_true, decide_eq_true_eq] at hb
  have hcfg : p.1.cfg = s.cfg := h.frame.cfg
  have hbl : p.1.blen = s.blen := h.frame.blen
  have hok := (s.eventOk_iff i).1 (hr.events i hi)
  have hle : p.2 ≤ (evTs (s.evq i)).toNat := by rw [h.cur]; exact (eventFault_none.1 hok).2.2.1
  have haw := State.applyWord_soundOnly (p.1.renderRange p.2 (evTs (s.evq i)).toNat) (s.evq i)
  have hrr := State.renderRange_soundOnly p.1 hle
  constructor
  · refine ⟨(h.frame.trans hrr).trans haw, by simp [blockTurn, State.prevTs], fun k hk => ?_⟩
    rw [← h.events k hk, ← State.renderRange_evq p.1 hle (by rw [hcfg]; exact hk)]
    exact State.evq_congr (State.applyWord_mem _ _) haw.epoch k
  · have hev : (p.1.seqAt .rendering i p.2).evq (p.1.seqAt .rendering i p.2).k = s.evq i := by
      rw [← h.events i (by omega)]
      rfl
    rw [State.eventUnit_of_legal _ _ hev (by show eventFault p.1.blen.toNat p.2 _ = none; rw [hbl, h.cur]; exact hok)]
    show Host.Outcome.next (((State.renderRange _ p.2 _).applyWord _).advance _) = _
    rw [State.renderRange_seqAt _ _ _ _ hle, State.applyWord_seqAt]
    rfl

/-! ### The step -/

/-- A step is one unit of work or the first move. -/
theorem step_cases {s t : State} (h : step s = .next t) :
    (s.moves = [] ∧ s.unit = .next t)
      ∨ (∃ rest, s.moves = .work :: rest ∧ ({ s with moves := rest } : State).unit = .next t)
      ∨ (∃ off width rest, s.moves = .read off width :: rest
        ∧ t = { s with moves := rest, reply := (({ s with moves := rest } : State).hostRead off width).reply })
      ∨ (∃ off width v rest, s.moves = .write off width v :: rest
        ∧ ({ s with moves := rest } : State).hostWrite runCommand off width v = .next t)
      ∨ (∃ off width v rest, s.moves = .post off width v :: rest
        ∧ ({ s with moves := rest } : State).hostWrite postCommand off width v = .next t)
      ∨ (∃ rest, s.moves = .reset :: rest ∧ t = State.resetOf s.cfg (s.epoch + 1) rest) := by
  unfold step State.popMove at h
  split at h <;> rename_i hm
  · exact .inl ⟨hm, h⟩
  · rw [hm] at h
    exact .inr (.inl ⟨_, hm, h⟩)
  · rw [hm] at h
    injection h with h
    refine .inr (.inr (.inl ⟨_, _, _, hm, h.symm.trans ?_⟩))
    rw [State.hostRead_frame]
    rfl
  · rw [hm] at h
    exact .inr (.inr (.inr (.inl ⟨_, _, _, _, hm, h⟩)))
  · rw [hm] at h
    exact .inr (.inr (.inr (.inr (.inl ⟨_, _, _, _, hm, h⟩))))
  · rw [hm] at h
    injection h with h
    exact .inr (.inr (.inr (.inr (.inr ⟨_, hm, h.symm⟩))))

end Sys2Proof.Machine
end

