-- ==== Sys2Proof/Tests/Slice0.lean ====
section
/-! SUPPORT. The model's own tests, each on values the spec gives (95_test_vectors.md, named in each docstring) or on
words written out from its encoding tables, and the witnesses of the statements' hypotheses. -/

namespace Sys2Proof.Tests

open Sys2Proof Sys2Proof.Machine

set_option Elab.async false

/-! ### Small states -/

/-- A test on the next state of an outcome. -/
def nextAnd (o : Host.Outcome State Fault Refusal) (p : State → Bool) : Bool :=
  match o with
  | .next t => p t
  | .fault _ => false
  | .refused _ => false

/-- "Prepared at 48 kHz" (the conventions of 95_test_vectors.md). -/
def prepared : State :=
  { State.reset with sr := 0x473B8000#32, sra := 0x473B8000#32, prepared := true }

/-- A list of words written from a RAM offset on. -/
def store (s : State) (a : Nat) : List Word → State
  | [] => s
  | w :: ws => store (s.writeWord a w) (a + 4) ws

/-- A prepared block of one channel and `blen` frames with the given event RAM words, two for each of `nev` events. -/
def block (blen nev : Nat) (events : List Word) : State :=
  { store prepared 0x8000 events with nch := 1, blen := BitVec.ofNat 32 blen, nev := BitVec.ofNat 32 nev }

/-- A state with one voice set. -/
def sounding (s : State) (n : Fin 128) (phase inc : Word) : State := s.setVoice n ⟨phase, inc⟩

/-- A state that holds the fault of V-DSP-10. -/
def faulty : State := { prepared with fault := true, cause := .eventOrder, findex := 1#16 }

/-- A state with one move to come. -/
def given (s : State) (m : Move) : State := { s with moves := [m] }

/-! ### WellFormed: an ill-formed term for each check -/

/-- R82, V-DSP-11: a `NOTE_ON` of 128 is refused. -/
theorem wf_refuses_noteOn : (Instr.noteOn 128#8 0#8 0#8 0#32).wellFormed = false := by decide

/-- V-DSP-12: a `NOTE_OFF` of 200 is refused. -/
theorem wf_refuses_noteOff : (Instr.noteOff 200#8 0#8 0#8 0#32).wellFormed = false := by decide

/-- R82, V-ENC-14: notes up to 127 are accepted, and any NOTE in an `ALL_NOTES_OFF`; a command has no check. -/
theorem wf_accepts :
    (Instr.noteOn 127#8 0#8 0#8 0#32).wellFormed = true ∧ (Instr.noteOff 127#8 0#8 0#8 0#32).wellFormed = true
      ∧ (Instr.allNotesOff 200#8 0#8 0#8 0#32).wellFormed = true ∧ (Instr.prepare 0#24).wellFormed = true
      ∧ (Instr.render 0#24).wellFormed = true := by decide

/-! ### Decode: words written out bit by bit from R80 and R82 -/

/-- V-ENC-6: TS 0, ignored 0, VEL 100, NOTE 69, TYPE 0x01. -/
theorem decode_noteOn :
    decodeTableWord 64 0b00000000000000000000000000000000_00000000_01100100_01000101_00000001
      = some (.noteOn 69#8 100#8 0#8 0#32) := by decide

/-- V-ENC-11: TS 240, ignored 0, VEL 0, NOTE 69, TYPE 0x02. -/
theorem decode_noteOff :
    decodeTableWord 64 0b00000000000000000000000011110000_00000000_00000000_01000101_00000010
      = some (.noteOff 69#8 0#8 0#8 240#32) := by decide

/-- V-ENC-13: TS 4, ignored 0xAB, VEL 0, NOTE 127, TYPE 0x03. -/
theorem decode_allNotesOff :
    decodeTableWord 64 0b00000000000000000000000000000100_10101011_00000000_01111111_00000011
      = some (.allNotesOff 127#8 0#8 0xAB#8 4#32) := by decide

/-- V-ENC-1: bits [31:8] 0, OP 0x01. -/
theorem decode_prepare : decodeTableWord 32 0b000000000000000000000000_00000001 = some (.prepare 0#24) := by decide

/-- V-ENC-3: bits [31:8] 1, OP 0x02. -/
theorem decode_render : decodeTableWord 32 0b000000000000000000000001_00000010 = some (.render 1#24) := by decide

/-- V-ENC-4, V-ENC-5, V-ENC-16 and R87: the decoders refuse by name. -/
theorem decode_refuses :
    decodeCmd 0x00000000#32 = .error (.illegalCommand 0x00#8) ∧ decodeCmd 0x000000FF#32 = .error (.illegalCommand 0xFF#8)
      ∧ decodeEvent 0x0000000000004500#64 = .error (.illegalEvent 0x00#8)
      ∧ decodeBytes [0x01#8] = .error (.badLength 1) := by decide

/-- R87, R53: bytes as the RAM holds them, lowest address first (V-MEM-18). -/
theorem decode_bytes :
    decodeBytes [0x01#8, 0x45#8, 0x64#8, 0x00#8, 0x00#8, 0x00#8, 0x00#8, 0x00#8] = .ok (.noteOn 69#8 100#8 0#8 0#32)
      ∧ decodeBytes [0x02#8, 0x01#8, 0x00#8, 0x00#8] = .ok (.render 1#24) := by decide

/-- V-ENC-8, V-ENC-10, V-ENC-12, V-ENC-18: the event assembler. -/
theorem assembles :
    (EventLine.noteOn 10 64 64).assemble = some 0x0000000A00404001#64
      ∧ (EventLine.allNotesOff 3).assemble = some 0x0000000300000003#64
      ∧ (EventLine.noteOn 2 81 127).assemble = some 0x00000002007F5101#64
      ∧ (EventLine.noteOn 0 300 1).assemble = none := by decide

/-- R89: event lines as text, decimal and hexadecimal (V-ENC-7, V-ENC-9), and what is no event line. -/
theorem reads_event_text :
    EventLine.read "@10 NOTE_ON 60, 64".toList = some (.noteOn 10 60 64)
      ∧ EventLine.read "@0x1E NOTE_OFF 60".toList = some (.noteOff 30 60)
      ∧ EventLine.text (.noteOff 30 60) = "@30 NOTE_OFF 60".toList
      ∧ EventLine.read "@10 NOTE_ON 60".toList = none := by decide +kernel

/-- R90, R91: host lines of P1, P3 and P4 as text. -/
theorem reads_host_text :
    HostLine.read 1 "WR SR, f32(48000)".toList = some (.wr 0x0008#32 0x473B8000#32)
      ∧ HostLine.read 1 "RD 0x800C -> t".toList = some (.rd 0x800C#32)
      ∧ HostLine.read 1 "EV 0, @3 ALL_NOTES_OFF".toList = some (.ev 0 (.allNotesOff 3))
      ∧ (HostLine.ev 1 (.noteOff 3 69)).moves Config.default false
        = some [.write 0x8008#32 4 0x00004502#32, .write 0x800C#32 4 0x00000003#32]
      ∧ HostLine.render.moves Config.default true = some [.post 0x0000#32 4 0x00000002#32] := by decide +kernel

/-- Voice registers by name (V-MEM-13's offsets), and the lines assumption logs 16 and 18 refuse. -/
theorem reads_offsets :
    HostLine.read 1 "RD VOICE[69].PHASE -> p".toList = some (.rd 0x1228#32)
      ∧ HostLine.read 1 "RD VOICE[69].INC -> i".toList = some (.rd 0x122C#32)
      ∧ HostLine.read 1 "RD VOICE[128].INC -> i".toList = none ∧ HostLine.read 1 "RD TABLE[0] -> t".toList = none
      ∧ (HostLine.ev 536870912 (.allNotesOff 0)).moves Config.default false = none
      ∧ (HostLine.clear 262144 1).moves Config.default false = none
      ∧ (HostLine.clear 1 1).moves Config.default false = some [.write 0x104000#32 4 0#32] := by decide +kernel

/-! ### Arithmetic (V-OSC, V-MIX) -/

/-- V-OSC-1a, V-OSC-1h, V-OSC-1m, R121: increments. -/
theorem increments :
    incrementOf Config.default 0x43DC0000#32 0x473B8000#32 = 0x3F162FC9#32
      ∧ incrementOf Config.default 0x4643FF6A#32 0x447A0000#32 = 0x4448B3A0#32
      ∧ incrementOf Config.default 0x442C4400#32 0x472C4400#32 = 0x3F800000#32 := by decide +kernel

/-- R115's example, W1 and V-OSC-7, V-OSC-12: samples and phases at the wrap. -/
theorem samples :
    sampleAt Config.default 0x427F0000#32 = 0xBCC8BD36#32 ∧ nextPhase Config.default 0x427F0000#32 0x3F000000#32 = 0x3E800000#32
      ∧ sampleAt Config.default 0x427FFFFF#32 = 0xB4C8BD36#32
      ∧ nextPhase Config.default 0x427FFFFF#32 0x36000000#32 = 0x00000000#32
      ∧ nextPhase Config.default 0x00000000#32 0x4448B3A0#32 = 0x420B3A00#32 := by decide +kernel

/-- V-MIX-3: the slot-order sum, and V-MIX-10: −0.0 + +0.0 = +0.0. -/
theorem sums :
    fadd32 (fadd32 (fadd32 0x00000000#32 0x3E0BAACA#32) 0x3E2FB7E6#32) 0x3E509BB3#32 = 0x3F02FF99#32
      ∧ fadd32 0x80000000#32 0x00000000#32 = 0x00000000#32
      ∧ fadd32 0x7F800000#32 0x3F800000#32 = 0x7F800000#32 := by decide +kernel

/-! ### One step for each instruction -/

/-- V-OSC-1a, V-DSP-9: `@4 NOTE_ON 69, 0`, fetched from `EVQ[0]` at the end of the block. -/
theorem test_noteOn : nextAnd (step (prepared.withFetchWord 64 0x0000000400004501)) (fun t =>
    decide (t.voice 69 = ⟨0x00000000#32, 0x3F162FC9#32⟩) && decide (t.k = 1) && decide (t.cur = 4)
      && decide (t.voice 68 = ⟨0#32, 0#32⟩)) = true := by decide +kernel

/-- R170 (a), V-DSP-17: no retrigger, the phase is kept. -/
theorem test_noteOn_keeps_phase :
    nextAnd (exec (.noteOn 69#8 0#8 0#8 0#32) (sounding prepared 69 0x3F962FC9#32 0x3F162FC9#32)) (fun t =>
      decide (t.voice 69 = ⟨0x3F962FC9#32, 0x3F162FC9#32⟩)) = true := by decide +kernel

/-- R116's example: `NOTE_OFF` of a sounding slot. -/
theorem test_noteOff : nextAnd (step ((sounding prepared 69 0x41CCCC74#32 0x3F162FC9#32).withFetchWord 64 0x4502)) (fun t =>
    decide (t.voice 69 = ⟨0#32, 0#32⟩)) = true := by decide +kernel

/-- V-DSP-20: `NOTE_OFF` of a slot never started changes no voice. -/
theorem test_noteOff_idle_slot :
    nextAnd (exec (.noteOff 5#8 0#8 0#8 1#32) (sounding prepared 69 0x3F962FC9#32 0x3F162FC9#32)) (fun t =>
      decide (t.voices = (sounding prepared 69 0x3F962FC9#32 0x3F162FC9#32).voices)) = true := by decide +kernel

/-- V-ENC-14: an `ALL_NOTES_OFF` with NOTE 200 is legal and stops every voice. -/
theorem test_allNotesOff :
    nextAnd (step ((sounding (sounding prepared 69 0x41CCCC74#32 0x3F162FC9#32) 127 0x3F800000#32 0x3F800000#32).withFetchWord 64
      0xC803)) (fun t => decide (t.voices = State.reset.voices) && decide (t.fault = false)) = true := by decide +kernel

/-- V-VB-4: 1.0 is the lowest legal sample rate; V-DSP-23: a held fault is cleared. -/
theorem test_prepare :
    nextAnd (step (({ faulty with sr := 0x3F800000#32 } : State).withFetchWord 32 0x00000001)) (fun t =>
      decide (t.status = 0x00000002#32) && decide (t.sra = 0x3F800000#32)) = true := by decide +kernel

/-- V-VB-5: the value just below 1.0 faults, SRA is kept. -/
theorem test_prepare_faults :
    nextAnd (step (({ State.reset with sr := 0x3F7FFFFF#32 } : State).withFetchWord 32 0x00000001)) (fun t =>
      decide (t.status = 0x00000304#32) && decide (t.sra = 0#32)) = true := by decide +kernel

/-- V-MIX-2, the second frame with V-OSC's first two samples: additive onto 0.5, channel 1 overwritten. -/
theorem test_render : nextAnd (exec (.render 0#24)
    { store (store (block 2 1 [0x00004501#32, 0x00000000#32]) 0x100000 [0x3F000000#32, 0x3F000000#32]) 0x104000
      [0x41100000#32, 0x41100000#32] with nch := 2#32 }) (fun t =>
    decide (t.buf 0 0 = 0x3F000000#32) && decide (t.buf 0 1 = 0x3F0EB88B#32) && decide (t.buf 1 0 = 0x3F000000#32)
      && decide (t.buf 1 1 = 0x3F0EB88B#32) && decide (t.status = 0x00000002#32)) = true := by decide +kernel

/-- V-DSP-14: `EVENT_ORDER` at index 1 beats `INVALID_NOTE`; the `NOTE_ON` before it was not applied. -/
theorem test_render_faults : nextAnd (exec (.render 0#24)
    (block 4 2 [0x00003C01#32, 0x00000003#32, 0x0000C801#32, 0x00000001#32])) (fun t =>
    decide (t.status = 0x00010806#32) && decide (t.voices = State.reset.voices)) = true := by decide +kernel

/-! ### The bus (V-MEM) -/

/-- The response of one step. -/
def answers (s : State) (r : Reply) : Bool := nextAnd (step s) (fun t => decide (t.reply = some r))

/-- V-MEM-1 to V-MEM-4, V-MEM-7, V-MEM-8, V-MEM-10, V-MEM-11, and the first and last mapped offset of every window. -/
theorem test_reads :
    answers (given prepared (.read 0x0000#32 4)) ⟨0#32, false⟩ = true
      ∧ answers (given prepared (.read 0x0004#32 4)) ⟨0x00000002#32, false⟩ = true
      ∧ answers (given prepared (.read 0x0018#32 4)) ⟨0x473B8000#32, false⟩ = true
      ∧ answers (given prepared (.read 0x001C#32 4)) ⟨0x00000040#32, false⟩ = true
      ∧ answers (given prepared (.read 0x002C#32 4)) ⟨0x00000100#32, false⟩ = true
      ∧ answers (given (sounding prepared 0 0x3F800000#32 0#32) (.read 0x1000#32 4)) ⟨0x3F800000#32, false⟩ = true
      ∧ answers (given (sounding prepared 127 0#32 0x3F800000#32) (.read 0x13FC#32 4)) ⟨0x3F800000#32, false⟩ = true
      ∧ answers (given prepared (.read 0x2040#32 4)) ⟨0x3F800000#32, false⟩ = true
      ∧ answers (given prepared (.read 0x20FC#32 4)) ⟨0xBDC8BD36#32, false⟩ = true
      ∧ answers (given prepared (.read 0x31FC#32 4)) ⟨0x4643FF6A#32, false⟩ = true
      ∧ answers (given (store prepared 0x87FC [0x12345678#32]) (.read 0x87FC#32 4)) ⟨0x12345678#32, false⟩ = true
      ∧ answers (given (store prepared 0x107FFC [0x12345678#32]) (.read 0x107FFC#32 4)) ⟨0x12345678#32, false⟩
        = true := by decide +kernel

/-- V-MEM-9, V-MEM-12, V-MEM-15, V-MEM-16, V-MEM-17, V-MEM-20, V-MEM-22: bus errors. -/
theorem test_bus_errors :
    ([(0x2100#32, 4), (0x3200#32, 4), (0x0004#32, 1), (0x0008#32, 2), (0x0030#32, 4), (0x8800#32, 4), (0x108000#32, 4),
      (0x0002#32, 4), (0x1400#32, 4), (0xFFFC#32, 4), (0xFFFFFFFC#32, 4)] : List (Word × Nat)).all
      (fun p => answers (given prepared (.read p.1 p.2)) ⟨0#32, true⟩) = true := by decide +kernel

/-- V-MEM-24, V-MEM-25: reads and writes while `BUSY` is 1. -/
theorem test_busy :
    answers (given { prepared with mode := .validating } (.read 0x0004#32 4)) ⟨0x00000003#32, false⟩ = true
      ∧ answers (given { prepared with mode := .validating } (.read 0x2040#32 4)) ⟨0x3F800000#32, false⟩ = true
      ∧ answers (given { prepared with mode := .validating } (.read 0x0008#32 4)) ⟨0#32, true⟩ = true
      ∧ answers (given { prepared with mode := .validating } (.write 0x0000#32 4 2#32)) ⟨0#32, true⟩ = true := by
  decide +kernel

/-- V-MEM-18: the bytes of `WR 0x8000, 0x00644501`. -/
theorem test_write_bytes :
    nextAnd (step (given prepared (.write 0x8000#32 4 0x00644501#32))) (fun t =>
      decide ([t.readByte 0x8000, t.readByte 0x8001, t.readByte 0x8002, t.readByte 0x8003]
        = [0x01#8, 0x45#8, 0x64#8, 0x00#8]) && decide (Memory.wf t.mem = true)) = true := by decide +kernel

/-- V-RST-4: reset while a fault is held. -/
theorem test_reset : nextAnd (step (given faulty .reset)) (fun t =>
    decide (t.status = 0#32) && decide (t.prepared = false) && decide (t.sra = 0#32)) = true := by decide +kernel

/-! ### Witnesses: for each statement with hypotheses, a state and operands that meet all of them -/

/-- The answer a step gives is a next state. -/
theorem next_of_and {o : Host.Outcome State Fault Refusal} {p : State → Bool} (h : nextAnd o p = true) :
    ∃ t, o = .next t ∧ p t = true := by
  cases o with
  | next t => exact ⟨t, rfl, h⟩
  | fault r => cases r
  | refused r => exact absurd h Bool.false_ne_true

/-- Two events of one note and one timestamp, the first of TYPE a and the second of TYPE b. -/
def twoEvents (a b : Word) : State := block 4 2 [0x00003C00#32 + a, 0x00000002#32, 0x00003C00#32 + b, 0x00000002#32]

theorem witness_EncodeOfDecodeIsIdentity :
    decodeBytes [0xFF#8, 0x00#8, 0x00#8, 0x00#8] ≠ .ok (.prepare 0#24)
      ∧ decodeBytes [0x01#8, 0xFF#8, 0xFF#8, 0xFF#8] = .ok (.prepare 0xFFFFFF#24)
      ∧ decodeBytes [0x03#8, 0xFF#8, 0x80#8, 0xAB#8, 0xFF#8, 0xFF#8, 0xFF#8, 0xFF#8]
        = .ok (.allNotesOff 255#8 128#8 0xAB#8 0xFFFFFFFF#32) := by decide

theorem witness_AssembledLineDecodesToItsEvent :
    (2 ^ 32 - 1 < 2 ^ 32 ∧ 255 < 2 ^ 8 ∧ 255 < 2 ^ 8) ∧ ¬(2 ^ 32 < 2 ^ 32 ∧ 255 < 2 ^ 8 ∧ 255 < 2 ^ 8)
      ∧ (EventLine.noteOn (2 ^ 32 - 1) 255 255).assemble = some 0xFFFFFFFF00FFFF01#64
      ∧ (EventLine.noteOff (2 ^ 32) 255).assemble = none ∧ (EventLine.noteOff 0 256).assemble = none
      ∧ (EventLine.allNotesOff (2 ^ 32)).assemble = none := by decide

theorem witness_ResetGivesEveryElementItsResetValue :
    ({ faulty with moves := [.reset, .work] } : State).moves = .reset :: [.work] := rfl

/-- A render in progress, at its second event, with a byte listed in each window and two voices sounding. -/
def running : State :=
  { store (sounding (sounding (block 4 2 [0x00003C01#32, 0x00000001#32, 0x00003C02#32, 0x00000002#32]) 60 0x3F000000#32
      0x3EB29A62#32) 127 0x427FFFFF#32 0x4943FF6A#32) 0x100000 [0#32, 0#32, 0#32, 0#32]
    with mode := .rendering, k := 1, cur := 1, moves := [.work] }

theorem running_SeqInv : SeqInv running :=
  ⟨by decide +kernel, by decide +kernel, by decide +kernel, by decide +kernel, by decide +kernel⟩

theorem running_steps : ∃ t, step running = .next t ∧ decide (t.k = 2 ∧ t.cur = 2) = true :=
  next_of_and (p := fun t => decide (t.k = 2 ∧ t.cur = 2)) (by decide +kernel)

theorem witness_EveryStepKeepsSequencerInvariant : ∃ t, SeqInv running ∧ step running = .next t :=
  let ⟨t, h, _⟩ := running_steps
  ⟨t, running_SeqInv, h⟩

theorem witness_EveryStepKeepsRamsCanonicalAndInside :
    ∃ t, SeqInv running ∧ RamInv running ∧ step running = .next t ∧ running.mem.length = 32 :=
  let ⟨t, h, _⟩ := running_steps
  ⟨t, running_SeqInv, ⟨by decide +kernel, by decide +kernel⟩, h, by decide +kernel⟩

theorem witness_EveryStepKeepsVoicesInRange :
    ∃ t, tameFreq running.cfg = true ∧ SeqInv running ∧ VoiceInv running ∧ step running = .next t :=
  let ⟨t, h, _⟩ := running_steps
  ⟨t, by decide +kernel, running_SeqInv, by unfold VoiceInv; decide +kernel, h⟩

theorem witness_NoStepWritesTheConfiguration : ∃ t, step running = .next t :=
  let ⟨t, h, _⟩ := running_steps
  ⟨t, h⟩

theorem witness_NoteOnWritesTheIncrementOnly :
    (127#8).toNat = (127 : Fin 128).val ∧ prepared.cfg.freq[(127 : Fin 128).val]? = some 0x4643FF6A#32
      ∧ (0#8).toNat = (0 : Fin 128).val ∧ prepared.cfg.freq[(0 : Fin 128).val]? = some 0x4102D013#32 := by decide +kernel

theorem witness_NoteOffStopsItsVoiceOnly : (127#8).toNat = (127 : Fin 128).val := by decide

theorem witness_EventNoteOutOfRangeTakesItsFault : 128 ≤ (128#8).toNat ∧ prepared.fault = false := by decide +kernel

theorem twoEvents_Renderable (a b : Word) (h : a = 1#32 ∧ b = 2#32 ∨ a = 2#32 ∧ b = 1#32) : Renderable (twoEvents a b) := by
  have e : ∀ k, k < 2 → (twoEvents a b).eventOk k := by
    unfold State.eventOk
    obtain ⟨rfl, rfl⟩ | ⟨rfl, rfl⟩ := h <;> decide +kernel
  exact ⟨rfl, rfl, by obtain ⟨rfl, rfl⟩ | ⟨rfl, rfl⟩ := h <;> decide +kernel, e⟩

theorem witness_EqualTimestampsApplyInQueueOrder :
    (Renderable (twoEvents 1#32 2#32) ∧ (twoEvents 1#32 2#32).nev = 2#32
      ∧ (evNote ((twoEvents 1#32 2#32).evq 0)).toNat = (60 : Fin 128).val
      ∧ (evNote ((twoEvents 1#32 2#32).evq 1)).toNat = (60 : Fin 128).val
      ∧ evTs ((twoEvents 1#32 2#32).evq 0) = evTs ((twoEvents 1#32 2#32).evq 1)
      ∧ evType ((twoEvents 1#32 2#32).evq 0) = 0x01#8 ∧ evType ((twoEvents 1#32 2#32).evq 1) = 0x02#8)
    ∧ (Renderable (twoEvents 2#32 1#32) ∧ (twoEvents 2#32 1#32).nev = 2#32
      ∧ (evNote ((twoEvents 2#32 1#32).evq 0)).toNat = (60 : Fin 128).val
      ∧ (evNote ((twoEvents 2#32 1#32).evq 1)).toNat = (60 : Fin 128).val
      ∧ evTs ((twoEvents 2#32 1#32).evq 0) = evTs ((twoEvents 2#32 1#32).evq 1)
      ∧ evType ((twoEvents 2#32 1#32).evq 0) = 0x02#8 ∧ evType ((twoEvents 2#32 1#32).evq 1) = 0x01#8) :=
  ⟨⟨twoEvents_Renderable _ _ (by decide), by decide +kernel⟩, ⟨twoEvents_Renderable _ _ (by decide), by decide +kernel⟩⟩

/-- V-VB-4, V-VB-7: the lowest and the highest legal sample rate. -/
theorem witness_PrepareLatchesALegalRate :
    (isFinite 0x3F800000#32 = true ∧ value 0x3F800000#32 ≤ value 0x3F800000#32)
      ∧ (isFinite 0x7F7FFFFF#32 = true ∧ value 0x3F800000#32 ≤ value 0x7F7FFFFF#32) := by decide +kernel

/-- V-VB-5, V-VB-6. -/
theorem witness_PrepareFaultsOnAnIllegalRate :
    isNaN 0x7FC00000#32 = true ∧ isInf 0x7F800000#32 = true ∧ isInf 0xFF800000#32 = true
      ∧ value 0x3F7FFFFF#32 < value 0x3F800000#32 ∧ value 0x80000000#32 < value 0x3F800000#32
      ∧ State.reset.fault = false ∧ faulty.fault = true := by decide +kernel

theorem next_of_step (s : State) (h : nextAnd (step s) (fun _ => true) = true) : ∃ t, step s = .next t :=
  let ⟨t, e, _⟩ := next_of_and h
  ⟨t, e⟩

theorem not_reset_of {s : State} {m : Move} (h : s.moves = [m]) (n : m ≠ .reset) : ¬ResetsNow s :=
  fun ⟨_, e⟩ => n (List.cons.inj (h.symm.trans e)).1

/-- Both forms of a `PREPARE` that succeeds, and a state with a fault held in which no `PREPARE` runs. -/
theorem witness_OnlyPrepareAndResetChangeRateAndRecover :
    (∃ t, step (given faulty (.write offCmd 4 0x00000001#32)) = .next t
      ∧ ¬ResetsNow (given faulty (.write offCmd 4 0x00000001#32))
      ∧ PreparesNow (given faulty (.write offCmd 4 0x00000001#32)))
    ∧ (∃ t, step (given { faulty with mode := .preparing } .work) = .next t
      ∧ ¬ResetsNow (given { faulty with mode := .preparing } .work)
      ∧ PreparesNow (given { faulty with mode := .preparing } .work))
    ∧ (∃ t, step (given faulty .work) = .next t ∧ ¬ResetsNow (given faulty .work) ∧ ¬PreparesNow (given faulty .work)
      ∧ (given faulty .work).fault = true ∧ (given faulty .work).prepared = true) := by
  refine ⟨?_, ?_, ?_⟩
  · obtain ⟨t, e⟩ := next_of_step (given faulty (.write offCmd 4 0x00000001#32)) (by decide +kernel)
    exact ⟨t, e, not_reset_of rfl (by decide), by decide +kernel, .inr ⟨rfl, _, _, rfl, by decide⟩⟩
  · obtain ⟨t, e⟩ := next_of_step (given { faulty with mode := .preparing } .work) (by decide +kernel)
    exact ⟨t, e, not_reset_of rfl (by decide), by decide +kernel, .inl ⟨rfl, .inr ⟨_, rfl⟩⟩⟩
  · obtain ⟨t, e⟩ := next_of_step (given faulty .work) (by decide +kernel)
    refine ⟨t, e, not_reset_of rfl (by decide), fun h => ?_, rfl, rfl⟩
    obtain ⟨m, _⟩ | ⟨_, v, r, m, _⟩ := h.2
    · exact absurd m (by decide)
    · exact absurd (List.cons.inj m).1 (by simp)

/-- V-DSP-1 to V-DSP-5: each failing check at its boundary. -/
theorem witness_RenderChecksPreparationThenBlock :
    (State.reset.fault = false ∧ State.reset.prepared = false)
      ∧ (prepared.fault = false ∧ prepared.prepared = true ∧ prepared.nch.toNat = 0)
      ∧ prepared.cfg.maxCh < (3#32).toNat ∧ prepared.cfg.maxBlen < (4097#32).toNat
      ∧ prepared.cfg.maxEv < (257#32).toNat := by decide +kernel

/-- A block of four frames whose second event is the two words given, after `@2 NOTE_ON 60, 0`. -/
def second (lo hi : Word) : State := block 4 2 [0x00003C01#32, 0x00000002#32, lo, hi]

/-- Each first failing check at its boundary: TYPE 4, TS = BLEN + 1, TS one below the previous, NOTE 128. -/
theorem witness_RenderFaultsOnTheFirstBadEvent :
    ((second 0x00003C04#32 2#32).fault = false ∧ (second 0x00003C04#32 2#32).prepared = true
      ∧ (second 0x00003C04#32 2#32).blockLegal = true ∧ 1 < (second 0x00003C04#32 2#32).nev.toNat)
    ∧ FirstBad (second 0x00003C04#32 2#32) 1 .illegalEvent
    ∧ FirstBad (second 0x00003C03#32 5#32) 1 .eventRange
    ∧ FirstBad (second 0x0000C801#32 1#32) 1 .eventOrder
    ∧ FirstBad (second 0x00008002#32 2#32) 1 .invalidNote := by
  have b : ∀ lo hi, (∀ j, j < 1 → (second lo hi).eventOk j) ↔ (second lo hi).eventOk 0 := fun lo hi =>
    ⟨fun h => h 0 (by decide), fun h j hj => by
      obtain rfl : j = 0 := by omega
      exact h⟩
  refine ⟨by decide +kernel, .type ((b _ _).2 ?_) (by decide +kernel), .range ((b _ _).2 ?_) (by decide +kernel)
    (by decide +kernel), .order ((b _ _).2 ?_) (by decide +kernel) (by decide +kernel) (by decide +kernel),
    .note ((b _ _).2 ?_) (by decide +kernel) (by decide +kernel) (by decide +kernel) (by decide +kernel)⟩ <;>
  · unfold State.eventOk
    decide +kernel

theorem witness_HeldFaultDropsRenderAndIllegalCommands :
    faulty.fault = true ∧ faulty.mode = .idle ∧ cmdOp 0x00000002#32 ≠ 0x01#8 ∧ cmdOp 0x00000005#32 ≠ 0x01#8
      ∧ (given faulty (.write offCmd 4 0x00000002#32)).moves = .write offCmd 4 0x00000002#32 :: []
      ∧ (given faulty (.post offCmd 4 0x00000005#32)).moves = .post offCmd 4 0x00000005#32 :: [] := by decide +kernel

theorem witness_IllegalCommandFaults :
    prepared.fault = false ∧ prepared.mode = .idle ∧ cmdOp 0x000000FF#32 ≠ 0x01#8 ∧ cmdOp 0x000000FF#32 ≠ 0x02#8
      ∧ cmdOp 0x00000003#32 ≠ 0x01#8 ∧ cmdOp 0x00000003#32 ≠ 0x02#8
      ∧ (given prepared (.write offCmd 4 0x000000FF#32)).moves = .write offCmd 4 0x000000FF#32 :: []
      ∧ (given prepared (.post offCmd 4 0x00000003#32)).moves = .post offCmd 4 0x00000003#32 :: [] := by decide +kernel

theorem witness_FaultingStepWritesOnlyTheFaultRecord :
    ∃ t, step (given (second 0x00003C03#32 5#32) (.write offCmd 4 0x00000002#32)) = .next t
      ∧ (given (second 0x00003C03#32 5#32) (.write offCmd 4 0x00000002#32)).fault = false ∧ t.fault = true := by
  obtain ⟨t, e, h⟩ := next_of_and (o := step (given (second 0x00003C03#32 5#32) (.write offCmd 4 0x00000002#32)))
    (p := fun t => t.fault) (by decide +kernel)
  exact ⟨t, e, rfl, h⟩

theorem witness_RenderRendersTheBlock : Renderable (twoEvents 1#32 2#32) := twoEvents_Renderable _ _ (by decide)

/-- The last frame of the buffer, and the last slot. -/
theorem witness_RangeMixesActiveSlotsInOrder :
    4096 ≤ running.cfg.maxBlen ∧ 4095 ≤ 4095 ∧ 4095 < 4096 ∧ running.isActive 60 = true ∧ running.isActive 127 = true := by
  decide +kernel

theorem witness_RangeAdvancesActiveVoices :
    0 ≤ 4 ∧ running.isActive 127 = true ∧ running.isActive 0 = false := by decide +kernel

theorem witness_RangeCopiesChannelZero :
    4096 ≤ Config.default.maxBlen ∧ 4095 ≤ 4095 ∧ 4095 < 4096
      ∧ 1 < ({ running with nch := 2#32 } : State).nch.toNat := by decide +kernel

theorem witness_RenderedChannelsAreIdentical :
    Renderable (twoEvents 2#32 1#32) ∧ 0 < (twoEvents 2#32 1#32).nch.toNat ∧ 3 < (twoEvents 2#32 1#32).blen.toNat :=
  ⟨twoEvents_Renderable _ _ (by decide), by decide +kernel⟩

/-- The frame after the block's last, and the last event word. -/
theorem witness_RenderWritesOnlyItsBlock :
    (∃ t, exec (.render 0#24) (twoEvents 1#32 2#32) = .next t)
      ∧ (∀ c f, c < (twoEvents 1#32 2#32).nch.toNat → f < (twoEvents 1#32 2#32).blen.toNat →
        0x100010 < bufAddr (twoEvents 1#32 2#32).cfg c f ∨ bufAddr (twoEvents 1#32 2#32).cfg c f + 4 ≤ 0x100010)
      ∧ 255 < (twoEvents 1#32 2#32).cfg.maxEv := by
  refine ⟨?_, fun c f hc hf => ?_, by decide +kernel⟩
  · obtain ⟨t, e, _⟩ := next_of_and (o := exec (.render 0#24) (twoEvents 1#32 2#32)) (p := fun _ => true) (by decide +kernel)
    exact ⟨t, e⟩
  · obtain rfl : c = 0 := Nat.lt_one_iff.1 hc
    have hf : f < 4 := hf
    unfold bufAddr
    omega

theorem witness_EventFreeBlockIsOneSubRange :
    (block 4096 0 []).fault = false ∧ (block 4096 0 []).prepared = true ∧ (block 4096 0 []).blockLegal = true
      ∧ (block 4096 0 []).nev = 0#32 ∧ 0 < (block 4096 0 []).nch.toNat ∧ 4095 < (block 4096 0 []).blen.toNat := by
  decide +kernel

/-- A tie (1.0 + 2^-24), the largest finite sum below the overflow bound, an overflow, and both zero sums. -/
theorem witness_AdditionRoundsToNearestEven :
    isFinite 0x3F800000#32 = true ∧ isFinite 0x33800000#32 = true
      ∧ (value 0x3F800000#32 + value 0x33800000#32).natAbs < overflowUnits
      ∧ fadd32 0x3F800000#32 0x33800000#32 = 0x3F800000#32 ∧ fadd32 0x3F800001#32 0x33800000#32 = 0x3F800002#32
      ∧ (value 0x7F7FFFFF#32 + value 0x72FFFFFF#32).natAbs < overflowUnits
      ∧ fadd32 0x7F7FFFFF#32 0x72FFFFFF#32 = 0x7F7FFFFF#32
      ∧ overflowUnits ≤ (value 0x7F7FFFFF#32 + value 0x73000000#32).natAbs
      ∧ fadd32 0x7F7FFFFF#32 0x73000000#32 = 0x7F800000#32
      ∧ value 0x3F800000#32 + value 0xBF800000#32 = 0 ∧ value 0x80000000#32 + value 0x80000000#32 = 0 := by decide +kernel

theorem witness_ProductsAndQuotientsRoundToNearestEven :
    isFinite 0x43DC0000#32 = true ∧ isFinite 0x42800000#32 = true ∧ isZero 0x42800000#32 = false
      ∧ units 0x43DC0000#32 * units 0x42800000#32 < overflowUnits * 2 ^ 149
      ∧ units 0x43DC0000#32 * 2 ^ 149 < overflowUnits * units 0x42800000#32
      ∧ overflowUnits * 2 ^ 149 ≤ units 0x7F7FFFFF#32 * units 0x42800000#32
      ∧ overflowUnits * units 0x00000001#32 ≤ units 0x43DC0000#32 * 2 ^ 149 := by decide +kernel

theorem witness_RemainderIsExact :
    isFinite 0xC2808000#32 = true ∧ isFinite 0x42800000#32 = true ∧ isZero 0x42800000#32 = false
      ∧ fmod32 0xC2808000#32 0x42800000#32 = 0xBE800000#32 := by decide +kernel

theorem witness_DefaultTableOutputStaysInUnitRange :
    (⟨0x427FFFFF#32, 0x00000000#32⟩ : Voice).inRange Config.default = true := by decide +kernel

/-- The highest phase below f32(64) with the largest increment a `NOTE_ON` writes (V-OSC-1j). -/
theorem witness_GetSampleKeepsItsVoiceInRange : (running.voice 127).inRange running.cfg = true := by decide +kernel

theorem witness_PhaseInRangeIndexesTheTable :
    (⟨0x427FFFFF#32, 0x4943FF6A#32⟩ : Voice).inRange Config.default = true
      ∧ (⟨0x00000000#32, 0x00000000#32⟩ : Voice).inRange Config.default = true := by decide +kernel

theorem witness_IntegerPhaseGivesTheTableEntry :
    Config.default.table[63]? = some 0xBDC8BD36#32 ∧ 0xBDC8BD36#32 ≠ 0x80000000#32
      ∧ sampleAt Config.default (f32 63) = 0xBDC8BD36#32 := by decide +kernel

theorem witness_StoppedVoiceStaysAtTableZero :
    prepared.cfg.table[0]? = some 0x00000000#32 ∧ 0x00000000#32 ≠ 0x80000000#32
      ∧ prepared.voice 127 = ⟨0x00000000#32, 0x00000000#32⟩ := by decide +kernel

/-- V-OSC-15: the smallest pattern of an active voice and that of an inactive one. -/
theorem witness_ActiveIsANonzeroIncrementPattern :
    ((sounding prepared 0 0#32 0x00000001#32).voice 0).inRange Config.default = true
      ∧ (sounding prepared 0 0#32 0x00000001#32).isActive 0 = true
      ∧ ((sounding prepared 0 0#32 0x00000000#32).voice 0).inRange Config.default = true := by decide +kernel

/-- At the lowest note with the highest legal sample rate, and at the highest note with the lowest. -/
theorem witness_NoteOnActivatesItsVoice :
    ({ prepared with sra := 0x7F7FFFFF#32 } : State).cfg = Config.default ∧ sampleRateLegal 0x7F7FFFFF#32 = true
      ∧ (0#8).toNat = (0 : Fin 128).val ∧ sampleRateLegal 0x3F800000#32 = true
      ∧ (127#8).toNat = (127 : Fin 128).val := ⟨rfl, by decide +kernel⟩

/-- The first and the last offset of each window of R52 (what each read answers: `test_reads`). -/
theorem witness_ReadsFollowTheAddressMap :
    prepared.mode = .idle ∧ (given prepared (.read 0x13FC#32 4)).moves = .read 0x13FC#32 4 :: []
      ∧ (0x1000#32).toNat = 0x1000 + 8 * (0 : Fin 128).val ∧ (0x13F8#32).toNat = 0x1000 + 8 * (127 : Fin 128).val
      ∧ (0x1004#32).toNat = 0x1004 + 8 * (0 : Fin 128).val ∧ (0x13FC#32).toNat = 0x1004 + 8 * (127 : Fin 128).val
      ∧ (prepared.cfg.table[63]? = some 0xBDC8BD36#32 ∧ (0x20FC#32).toNat = 0x2000 + 4 * 63)
      ∧ (prepared.cfg.freq[127]? = some 0x4643FF6A#32 ∧ (0x31FC#32).toNat = 0x3000 + 4 * 127)
      ∧ (255 < prepared.cfg.maxEv ∧ (0x87F8#32).toNat = 0x8000 + 8 * 255 ∧ (0x87FC#32).toNat = 0x8004 + 8 * 255)
      ∧ (1 < prepared.cfg.maxCh ∧ 4095 < prepared.cfg.maxBlen
        ∧ (0x107FFC#32).toNat = 0x100000 + 4 * (1 * prepared.cfg.maxBlen + 4095)) := by decide +kernel

/-- A wrong width, a misaligned offset, and the first and last offset of each gap of R52. -/
theorem witness_BadAccessesGetBusErrors :
    (2 ≠ 4 ∧ (0x0002#32).toNat % 4 ≠ 0)
      ∧ ([0x30, 0xFFC, 0x1400, 0x1FFC, 0x2100, 0x2FFC, 0x3200, 0x7FFC, 0x8800, 0xFFFFC, 0x108000, 0xFFFFFFFC] : List Nat).all
        (fun a => decide ((0x30 ≤ a ∧ a < 0x1000) ∨ (0x1400 ≤ a ∧ a < 0x2000)
          ∨ (0x2000 + 4 * Config.default.L ≤ a ∧ a < 0x3000) ∨ (0x3200 ≤ a ∧ a < 0x8000)
          ∨ (0x8000 + 8 * Config.default.maxEv ≤ a ∧ a < 0x100000)
          ∨ 0x100000 + 4 * (Config.default.maxCh * Config.default.maxBlen) ≤ a)) = true
      ∧ (given prepared (.read 0x0030#32 4)).moves = .read 0x0030#32 4 :: []
      ∧ (given prepared (.write 0x0030#32 4 1#32)).moves = .write 0x0030#32 4 1#32 :: []
      ∧ (given prepared (.post 0x0030#32 4 1#32)).moves = .post 0x0030#32 4 1#32 :: [] := by decide +kernel

/-- The first and last word of each read-only range (V-MEM-5, V-MEM-6, V-MEM-14). -/
theorem witness_ReadOnlyWritesAreIgnored :
    prepared.mode = .idle
      ∧ ([0x04, 0x18, 0x2C, 0x1000, 0x13FC, 0x2000, 0x20FC, 0x3000, 0x31FC] : List Nat).all (fun a => decide (a % 4 = 0
        ∧ (a = 0x04 ∨ (0x18 ≤ a ∧ a < 0x30) ∨ (0x1000 ≤ a ∧ a < 0x1400) ∨ (0x2000 ≤ a ∧ a < 0x2000 + 4 * prepared.cfg.L)
          ∨ (0x3000 ≤ a ∧ a < 0x3200)))) = true
      ∧ (given prepared (.write 0x0018#32 4 0x3F800000#32)).moves = .write 0x0018#32 4 0x3F800000#32 :: []
      ∧ nextAnd (step (given prepared (.write 0x0018#32 4 0x3F800000#32)))
        (fun t => decide (t = { prepared with reply := some ⟨0#32, false⟩ })) = true := by decide +kernel

theorem witness_RegisterWritesLoadAnyPattern :
    prepared.mode = .idle ∧ (given prepared (.write 0x0008#32 4 0x7FC00000#32)).moves = .write 0x0008#32 4 0x7FC00000#32 :: []
      ∧ (given prepared (.write 0x000C#32 4 0xFFFFFFFF#32)).moves = .write 0x000C#32 4 0xFFFFFFFF#32 :: []
      ∧ (given prepared (.write 0x0010#32 4 0xFFFFFFFF#32)).moves = .write 0x0010#32 4 0xFFFFFFFF#32 :: []
      ∧ (given prepared (.write 0x0014#32 4 0xFFFFFFFF#32)).moves = .write 0x0014#32 4 0xFFFFFFFF#32 :: []
      ∧ (given prepared (.post 0x0014#32 4 0xFFFFFFFF#32)).moves = .post 0x0014#32 4 0xFFFFFFFF#32 :: [] := by
  decide +kernel

/-- The first and the last word of both RAM windows. -/
theorem witness_RamWritesStoreLittleEndianWords :
    prepared.mode = .idle
      ∧ ([0x8000, 0x87FC, 0x100000, 0x107FFC] : List Nat).all
        (fun a => decide (a % 4 = 0) && inRam prepared.cfg a) = true
      ∧ (given prepared (.write 0x107FFC#32 4 1#32)).moves = .write 0x107FFC#32 4 1#32 :: []
      ∧ (given prepared (.post 0x8000#32 4 1#32)).moves = .post 0x8000#32 4 1#32 :: [] := by decide +kernel

theorem witness_EventWordIsItsTwoRamWords :
    prepared.mode = .idle ∧ 255 < prepared.cfg.maxEv
      ∧ ({ prepared with moves := [.write (BitVec.ofNat 32 (0x8000 + 8 * 255)) 4 1#32,
            .post (BitVec.ofNat 32 (0x8004 + 8 * 255)) 4 2#32] } : State).moves
        = .write (BitVec.ofNat 32 (0x8000 + 8 * 255)) 4 1#32 :: .post (BitVec.ofNat 32 (0x8004 + 8 * 255)) 4 2#32 :: [] := by
  decide +kernel

/-- A busy state, and the first and last offset of each refused range and of each allowed window. -/
theorem witness_BusyRefusesTheHost :
    running.mode ≠ .idle ∧ (given running (.read 0x1000#32 4)).moves = .read 0x1000#32 4 :: []
      ∧ (given running (.write 0x0000#32 4 2#32)).moves = .write 0x0000#32 4 2#32 :: []
      ∧ (given running (.post 0x0000#32 4 2#32)).moves = .post 0x0000#32 4 2#32 :: []
      ∧ (running.cfg.table[63]? = some 0xBDC8BD36#32 ∧ (0x20FC#32).toNat = 0x2000 + 4 * 63)
      ∧ (running.cfg.freq[127]? = some 0x4643FF6A#32 ∧ (0x31FC#32).toNat = 0x3000 + 4 * 127)
      ∧ ([0x0000, 0x0008, 0x0018, 0x1000, 0x13FC, 0x8000, 0x107FFC] : List Nat).all (fun a => decide (a = 0x0000
        ∨ (0x0008 ≤ a ∧ a < 0x001C) ∨ (0x1000 ≤ a ∧ a < 0x1400) ∨ 0x8000 ≤ a)) = true := by decide +kernel

/-- Two busy states at different points of a render. -/
theorem witness_BusyHidesTheCommandsWork :
    ∃ t t', (given running (.read 0x0004#32 4)).mode ≠ .idle
      ∧ (given { running with k := 0, cur := 0 } (.read 0x0004#32 4)).mode ≠ .idle
      ∧ (given running (.read 0x0004#32 4)).cfg = (given { running with k := 0, cur := 0 } (.read 0x0004#32 4)).cfg
      ∧ (given running (.read 0x0004#32 4)).status = (given { running with k := 0, cur := 0 } (.read 0x0004#32 4)).status
      ∧ (given running (.read 0x0004#32 4)).moves = .read 0x0004#32 4 :: []
      ∧ (given { running with k := 0, cur := 0 } (.read 0x0004#32 4)).moves = .read 0x0004#32 4 :: []
      ∧ step (given running (.read 0x0004#32 4)) = .next t
      ∧ step (given { running with k := 0, cur := 0 } (.read 0x0004#32 4)) = .next t' := by
  obtain ⟨t, e⟩ := next_of_step (given running (.read 0x0004#32 4)) (by decide +kernel)
  obtain ⟨t', e'⟩ := next_of_step (given { running with k := 0, cur := 0 } (.read 0x0004#32 4)) (by decide +kernel)
  exact ⟨t, t', by decide +kernel, by decide +kernel, by simp only [given], by decide +kernel, rfl, rfl, e, e'⟩

theorem witness_StepRunsTheFetchedEvent :
    running.mode = .rendering ∧ running.k < running.nev.toNat ∧ running.moves = .work :: []
      ∧ eventFault running.blen.toNat running.cur (running.evq running.k) = none
      ∧ decodeEvent (running.evq running.k) = .ok (.noteOff 60#8 0#8 0#8 2#32)
      ∧ ({ running with moves := [] } : State).moves = [] := by decide +kernel

/-- A written and a posted `PREPARE`, and a posted `RENDER` with no fault held; the posted ones raise `BUSY`. -/
theorem witness_StepRunsTheWrittenCommand :
    prepared.mode = .idle ∧ prepared.fault = false
      ∧ (given prepared (.post offCmd 4 0xFFFFFF01#32)).moves = .post offCmd 4 0xFFFFFF01#32 :: []
      ∧ (given prepared (.post offCmd 4 0x00000102#32)).moves = .post offCmd 4 0x00000102#32 :: []
      ∧ nextAnd (step (given prepared (.post offCmd 4 0xFFFFFF01#32))) (fun t => decide (t.status = 0x00000003#32)) = true
      ∧ nextAnd (step (given prepared (.post offCmd 4 0x00000102#32))) (fun t => decide (t.status = 0x00000003#32)) = true
      ∧ (given prepared (.write offCmd 4 0xFFFFFF01#32)).moves = .write offCmd 4 0xFFFFFF01#32 :: []
      ∧ decodeCmd 0xFFFFFF01#32 = .ok (.prepare 0xFFFFFF#24) ∧ decodeCmd 0x00000102#32 = .ok (.render 1#24) := by
  decide +kernel

theorem witness_PostedCommandEqualsWrittenCommand : (twoEvents 1#32 2#32).mode = .idle := by decide +kernel

theorem witness_EveryCommandCompletes :
    ({ running with moves := [] } : State).moves = [] ∧ ({ running with moves := [] } : State).mode = .rendering := by
  decide +kernel

end Sys2Proof.Tests
end

section
/-! Correct rounding of the primitives of R9 (O36, O37) and the exact remainder (O38). `roundHalfEven` is within half a
step of its argument; hence `roundMag` is nearest among the integers that are multiples of its step or lie below its
binade, and the magnitude of every pattern is one of these. -/

namespace Sys2Proof.Machine

/-! ### The nearest integer -/

/-- Half-even rounding is within half a step of its argument, and at half a step it is even. -/
theorem roundHalfEven_dist (n : Nat) {d : Nat} (hd : 0 < d) :
    2 * ((roundHalfEven n d : Int) * d - n).natAbs ≤ d
      ∧ (2 * ((roundHalfEven n d : Int) * d - n).natAbs = d → roundHalfEven n d % 2 = 0) := by
  have hr := Nat.mod_lt n hd
  have hn : ((n / d : Nat) : Int) * d = n - (n % d : Nat) := by
    have := Int.mul_ediv_add_emod n d
    push_cast
    linarith [mul_comm (d : Int) (n / d)]
  have hn' : ((n / d + 1 : Nat) : Int) * d = n - (n % d : Nat) + d := by
    rw [← hn]; push_cast; ring
  unfold roundHalfEven
  dsimp only
  split_ifs
  · rw [hn]; omega
  · rw [hn']; omega
  · rw [hn]; omega
  · rw [hn']; omega

/-- No integer is nearer to n/d than the rounded one, and one as near is equal to it or the rounded one is even. -/
theorem roundHalfEven_nearest (n : Nat) {d : Nat} (hd : 0 < d) (z : Int) :
    ((roundHalfEven n d : Int) * d - n).natAbs ≤ (z * d - n).natAbs
      ∧ ((z * d - n).natAbs = ((roundHalfEven n d : Int) * d - n).natAbs →
          z = roundHalfEven n d ∨ roundHalfEven n d % 2 = 0) := by
  obtain ⟨hhalf, htie⟩ := roundHalfEven_dist n hd
  generalize roundHalfEven n d = q at *
  by_cases hz : z = q
  · subst hz; simp
  · have hstep : (d : Int) ≤ (z * d - q * d).natAbs := by
      rw [← sub_mul, Int.natAbs_mul, Int.natAbs_natCast]
      exact_mod_cast Nat.le_mul_of_pos_left d (by omega)
    generalize z * (d : Int) = x at *
    generalize (q : Int) * (d : Int) = y at *
    omega

/-- A number below an integer that n/d reaches is farther from n/d than the rounded one. -/
theorem roundHalfEven_dist_lt {n d : Nat} (hd : 0 < d) {m : Nat} (hm : m * d ≤ n) {x : Int} (hx : x < m * d) :
    ((roundHalfEven n d : Int) * d - n).natAbs < (x - n).natAbs := by
  have hnear := (roundHalfEven_nearest n hd m).1
  zify at hm
  omega

/-! ### The nearest value of the format -/

/-- A significand q of k extra bits, placed under its exponent, is the magnitude q·2^k. -/
theorem magUnits_place {k q : Nat} (hlo : 0 < k → 2 ^ 23 ≤ q) (hhi : q ≤ 2 ^ 24) :
    magUnits (k * 2 ^ 23 + q) = q * 2 ^ k := by
  rcases Nat.lt_or_ge q (2 ^ 23) with hsub | hnorm
  · obtain rfl : k = 0 := by omega
    rw [Nat.zero_mul, Nat.zero_add, Nat.pow_zero, Nat.mul_one, magUnits, if_pos hsub]
  · unfold magUnits
    rw [if_neg (by omega)]
    rcases Nat.lt_or_eq_of_le hhi with hlt | rfl
    · rw [show (k * 2 ^ 23 + q) / 2 ^ 23 - 1 = k by omega, show 2 ^ 23 + (k * 2 ^ 23 + q) % 2 ^ 23 = q by omega]
    · rw [show (k * 2 ^ 23 + 2 ^ 24) / 2 ^ 23 - 1 = k + 1 by omega,
        show 2 ^ 23 + (k * 2 ^ 23 + 2 ^ 24) % 2 ^ 23 = 2 ^ 23 by omega, Nat.pow_succ]
      ring

/-- A magnitude of the format lies below the binade of step 2^k or is a multiple of the step. -/
theorem units_lt_or_dvd (w : Word) (k : Nat) : units w < 2 ^ 23 * 2 ^ k ∨ 2 ^ k ∣ units w := by
  obtain ⟨m, e, hm, hw⟩ := units_significand w
  rw [hw]
  rcases Nat.lt_or_ge e k with hlt | hge
  · left
    calc m * 2 ^ e < 2 ^ 24 * 2 ^ e := Nat.mul_lt_mul_of_pos_right hm (Nat.two_pow_pos _)
      _ = 2 ^ 23 * 2 ^ (e + 1) := by rw [Nat.pow_succ]; ring
      _ ≤ 2 ^ 23 * 2 ^ k := Nat.mul_le_mul_left _ (Nat.pow_le_pow_right (by decide) hlt)
  · exact .inr (Nat.dvd_mul_left_of_dvd (Nat.pow_dvd_pow 2 hge) _)

/-- A quotient of more than 24 bits fills its binade. -/
theorem binade_le {n d : Nat} (hd : 0 < d) (hk : 0 < Nat.log2 (n / d) - 23) :
    2 ^ 23 * (d * 2 ^ (Nat.log2 (n / d) - 23)) ≤ n := by
  have hne : n / d ≠ 0 := by intro h; rw [h] at hk; simp at hk
  have hlog : 2 ^ 23 * 2 ^ (Nat.log2 (n / d) - 23) ≤ n / d := by
    rw [← Nat.pow_add, show 23 + (Nat.log2 (n / d) - 23) = Nat.log2 (n / d) by omega]
    exact Nat.log2_self_le hne
  calc 2 ^ 23 * (d * 2 ^ (Nat.log2 (n / d) - 23)) = 2 ^ 23 * 2 ^ (Nat.log2 (n / d) - 23) * d := by ring
    _ ≤ n := (Nat.le_div_iff_mul_le hd).1 hlog

/-- Below the overflow bound the rounded magnitude is finite. -/
theorem roundMag_lt_inf {n d : Nat} (hd : 0 < d) (h : n < overflowUnits * d) : roundMag n d < 0x7F800000 := by
  have hquot : n / d < overflowUnits := (Nat.div_lt_iff_lt_mul hd).2 h
  have hlog : Nat.log2 (n / d) < 25 + 252 := by
    rcases Nat.eq_zero_or_pos (n / d) with h0 | hpos
    · rw [h0]; decide
    · refine (Nat.log2_lt hpos.ne').2 (hquot.trans ?_)
      calc overflowUnits < 2 ^ 25 * 2 ^ 252 := Nat.mul_lt_mul_of_pos_right (by decide) (Nat.two_pow_pos _)
        _ = 2 ^ (25 + 252) := (Nat.pow_add 2 25 252).symm
  have hsig := significand_le (n := n) hd
  refine Nat.lt_of_le_of_lt (Nat.min_le_left _ _) ?_
  rcases Nat.lt_or_ge (Nat.log2 (n / d) - 23) 253 with hk | hk
  · omega
  · have hlast : roundHalfEven n (d * 2 ^ 253) < 2 ^ 24 := by
      obtain ⟨hhalf, -⟩ := roundHalfEven_dist n (scale_pos hd 253)
      have hbound : 2 * n + d * 2 ^ 253 < 2 * (2 ^ 24 * (d * 2 ^ 253)) := by
        unfold overflowUnits at h; omega
      by_contra hge
      have hprod : ((2 ^ 24 * (d * 2 ^ 253) : Nat) : Int) ≤ roundHalfEven n (d * 2 ^ 253) * (d * 2 ^ 253 : Nat) := by
        exact_mod_cast Nat.mul_le_mul_right _ (Nat.not_lt.1 hge)
      omega
    rw [show Nat.log2 (n / d) - 23 = 253 by omega]
    omega

/-- From the overflow bound on the rounded magnitude is that of an infinity. -/
theorem roundMag_eq_inf {n d : Nat} (hd : 0 < d) (h : overflowUnits * d ≤ n) : roundMag n d = 0x7F800000 := by
  apply Nat.le_antisymm (roundMag_le_inf n d)
  calc 0x7F800000 = roundMag overflowUnits 1 := by decide +kernel
    _ ≤ roundMag n d := roundMag_mono (by decide) hd (by omega)

/-- Below the overflow bound the rounded magnitude is the rounded significand under its exponent. -/
theorem roundMag_eq_place {n d : Nat} (hd : 0 < d) (h : n < overflowUnits * d) :
    roundMag n d = (Nat.log2 (n / d) - 23) * 2 ^ 23 + roundHalfEven n (d * 2 ^ (Nat.log2 (n / d) - 23)) := by
  have hlt := roundMag_lt_inf hd h
  unfold roundMag at *
  dsimp only at *
  omega

/-- No integer whose magnitude is of the format is nearer to n/d than the rounded magnitude, and one as near is
equal to it or the rounded magnitude's last bit is 0. -/
theorem roundMag_nearest {n d : Nat} (hd : 0 < d) (h : n < overflowUnits * d) {x : Word} {z : Int}
    (hz : z.natAbs = units x) :
    ((magUnits (roundMag n d) : Int) * d - n).natAbs ≤ (z * d - n).natAbs
      ∧ ((z * d - n).natAbs = ((magUnits (roundMag n d) : Int) * d - n).natAbs →
          z = magUnits (roundMag n d) ∨ roundMag n d % 2 = 0) := by
  have hbin := binade_le (n := n) hd
  rw [roundMag_eq_place hd h, magUnits_place (significand_ge (n := n) hd) (significand_le hd)]
  generalize Nat.log2 (n / d) - 23 = k at *
  have hscale (c : Int) : c * 2 ^ k * d = c * (d * 2 ^ k : Nat) := by push_cast; ring
  rw [Nat.cast_mul, Nat.cast_pow, Nat.cast_ofNat, hscale]
  by_cases hdvd : (2 ^ k : Int) ∣ z
  · obtain ⟨c, rfl⟩ := hdvd
    have hnear := roundHalfEven_nearest n (scale_pos hd k) c
    rw [mul_comm (2 ^ k) c, hscale]
    refine ⟨hnear.1, fun heq => (hnear.2 heq).imp (fun hc => ?_) (fun heven => ?_)⟩
    · rw [hc]
    · omega
  · have hbelow : z < 2 ^ 23 * 2 ^ k := by
      have hnat : z.natAbs < 2 ^ 23 * 2 ^ k := by
        rw [hz]
        refine (units_lt_or_dvd x k).resolve_right fun hx => hdvd ?_
        rw [← hz] at hx
        exact_mod_cast Int.natCast_dvd.2 hx
      exact Int.le_natAbs.trans_lt (by exact_mod_cast hnat)
    have hk : 0 < k := by
      rw [Nat.pos_iff_ne_zero]
      rintro rfl
      simp at hdvd
    have hx : z * d < (2 ^ 23 : Nat) * (d * 2 ^ k : Nat) := by
      rw [← hscale]
      exact mul_lt_mul_of_pos_right hbelow (by omega)
    have hfar := roundHalfEven_dist_lt (scale_pos hd k) (hbin hk) hx
    exact ⟨hfar.le, fun heq => absurd heq hfar.ne'⟩

/-! ### Rounded patterns -/

/-- A number under a sign: a pattern's value is its magnitude under its sign bit. -/
def withSign (neg : Bool) (v : Int) : Int := if neg then -v else v

theorem value_eq (w : Word) : value w = withSign (signBit w) (units w) := rfl

@[simp] theorem withSign_withSign (neg : Bool) (v : Int) : withSign neg (withSign neg v) = v := by
  cases neg <;> simp [withSign]

@[simp] theorem natAbs_withSign (neg : Bool) (v : Int) : (withSign neg v).natAbs = v.natAbs := by
  cases neg <;> simp [withSign]

/-- The rule of signs. -/
theorem withSign_mul (s t : Bool) (m n : Int) : withSign s m * withSign t n = withSign (s != t) (m * n) := by
  cases s <;> cases t <;> simp [withSign]

/-- A sign moves from one side of a distance to the other. -/
theorem natAbs_sub_withSign (neg : Bool) (v d n : Int) :
    (v * d - withSign neg n).natAbs = (withSign neg v * d - n).natAbs := by
  rw [← natAbs_withSign neg (v * d - withSign neg n)]
  congr 1
  cases neg
  · rfl
  · simp only [withSign, if_true]; ring

/-- Bit 0 of a rounded pattern is bit 0 of its magnitude. -/
theorem getLsbD_zero_roundWord {neg : Bool} {n d : Nat} (h : roundMag n d % 2 = 0) :
    (roundWord neg n d).getLsbD 0 = false := by
  rw [BitVec.getLsbD, Nat.testBit_zero, toNat_eq, magBits_roundWord]
  cases signBit (roundWord neg n d) <;> simp <;> omega

/-- Below the overflow bound `roundWord` rounds the signed ratio to nearest, ties to even (R9). -/
theorem isRounding_roundWord (neg : Bool) {n d : Nat} (hd : 0 < d) (h : n < overflowUnits * d) :
    IsRounding (roundWord neg n d) (withSign neg n) d := by
  have hw : value (roundWord neg n d) = withSign neg (magUnits (roundMag n d)) := by
    rw [value_eq, signBit_roundWord, units_roundWord]
  have hnear (x : Word) := roundMag_nearest hd h (x := x) (z := withSign neg (value x)) (by simp [value_eq])
  refine ⟨(isFinite_roundWord _ _ _).2 (roundMag_lt_inf hd h), fun x _ => ?_, fun x _ heq => ?_⟩
  · rw [natAbs_sub_withSign, natAbs_sub_withSign, hw, withSign_withSign]
    exact (hnear x).1
  · rw [natAbs_sub_withSign, natAbs_sub_withSign, hw, withSign_withSign] at heq
    rcases (hnear x).2 heq with hsame | heven
    · left; rw [hw, ← hsame, withSign_withSign]
    · exact .inr (getLsbD_zero_roundWord heven)

/-- From the overflow bound on `roundWord` gives the infinity of its sign. -/
theorem roundWord_eq_inf (neg : Bool) {n d : Nat} (hd : 0 < d) (h : overflowUnits * d ≤ n) :
    roundWord neg n d = infWord neg := by
  rw [roundWord, roundMag_eq_inf hd h]
  cases neg <;> rfl

theorem isInf_infWord (neg : Bool) : isInf (infWord neg) = true := by cases neg <;> decide

theorem units_pos {w : Word} (h : isZero w = false) : 0 < units w := by
  rw [Nat.pos_iff_ne_zero, Ne, units_eq_zero, h]
  exact Bool.false_ne_true

/-! ### Addition -/

/-- The sum of two finite patterns: an exact zero under the common sign, any other sum rounded under its own. -/
theorem fadd32_finite {a b : Word} (fa : isFinite a = true) (fb : isFinite b = true) :
    fadd32 a b = if value a + value b = 0 then zeroWord (signBit a && signBit b)
      else roundWord (decide (value a + value b < 0)) (value a + value b).natAbs 1 := by
  simp [fadd32, isNaN_of_isFinite fa, isNaN_of_isFinite fb, isInf_of_isFinite fa, isInf_of_isFinite fb]

theorem zeroWord_eq_roundWord (neg : Bool) : zeroWord neg = roundWord neg 0 1 := by cases neg <;> decide

theorem withSign_natAbs (v : Int) : withSign (decide (v < 0)) v.natAbs = v := by
  rcases lt_or_ge v 0 with h | h
  · simp [withSign, h, abs_of_neg h]
  · simp [withSign, not_lt.2 h, abs_of_nonneg h]

theorem fadd32_isRounding {a b : Word} (fa : isFinite a = true) (fb : isFinite b = true)
    (h : (value a + value b).natAbs < overflowUnits) : IsRounding (fadd32 a b) (value a + value b) 1 := by
  rw [fadd32_finite fa fb]
  split
  next hzero =>
    have hr := isRounding_roundWord (signBit a && signBit b) (n := 0) one_pos (by decide)
    rw [hzero, zeroWord_eq_roundWord]
    simpa [withSign] using hr
  next =>
    have hr := isRounding_roundWord (decide (value a + value b < 0)) one_pos (by rwa [Nat.mul_one])
    rwa [withSign_natAbs] at hr

/-- Settles O36: the sum is rounded once under its own sign, and a zero sum is exact. -/
theorem additionRoundsToNearestEven : Obligations.AdditionRoundsToNearestEven := by
  intro a b fa fb
  refine ⟨fadd32_isRounding fa fb, fun hover => ?_, fun hzero => ?_⟩
  · have hne : value a + value b ≠ 0 := by
      intro h
      rw [h] at hover
      exact absurd hover (by decide)
    rw [fadd32_finite fa fb, if_neg hne, roundWord_eq_inf _ one_pos (by rwa [Nat.mul_one])]
    simp [infWord]
  · rw [fadd32_finite fa fb, if_pos hzero]
    simp [zeroWord, negZero, posZero]

/-! ### Multiplication and division -/

/-- Settles O37: product and quotient are one `roundWord` of the exact ratio under the product of the signs. -/
theorem productsAndQuotientsRoundToNearestEven : Obligations.ProductsAndQuotientsRoundToNearestEven := by
  intro a b fa fb
  refine ⟨?_, fun hb => ?_⟩
  · rw [fmul32_finite fa fb]
    refine ⟨fun hlt => ?_, fun hover => ?_, by simp⟩
    · have hr := isRounding_roundWord (signBit a != signBit b) (Nat.two_pow_pos 149) hlt
      rwa [Nat.cast_mul, ← withSign_mul, ← value_eq, ← value_eq] at hr
    · rw [roundWord_eq_inf _ (Nat.two_pow_pos 149) hover]
      exact isInf_infWord _
  · rw [fdiv32_finite fa fb hb]
    refine ⟨fun hlt => ?_, fun hover => ?_, by simp⟩
    · have hsigned : (if signBit b then -(value a) * 2 ^ 149 else value a * 2 ^ 149)
          = withSign (signBit a != signBit b) (units a * 2 ^ 149 : Nat) := by
        rw [value_eq a]
        cases signBit a <;> cases signBit b <;> simp [withSign]
      rw [hsigned]
      exact isRounding_roundWord _ (units_pos hb) hlt
    · rw [roundWord_eq_inf _ (units_pos hb) hover]
      exact isInf_infWord _

/-! ### Remainder -/

/-- The truncated remainder of signed magnitudes is the magnitudes' remainder under the dividend's sign. -/
theorem tmod_withSign (s t : Bool) (m n : Nat) : (withSign s m).tmod (withSign t n) = withSign s (m % n : Nat) := by
  cases s <;> cases t <;> simp [withSign, Int.tmod_eq_emod_of_nonneg]

/-- Settles O38: the remainder of the magnitudes is a value of the format, so it is not rounded. -/
theorem remainderIsExact : Obligations.RemainderIsExact := by
  intro a b fa fb hb
  obtain ⟨hfinite, hsign, hunits⟩ := fmod32_finite fa fb hb
  refine ⟨hfinite, ?_, hsign⟩
  calc value (fmod32 a b) = withSign (signBit a) (units a % units b : Nat) := by rw [value_eq, hsign, hunits]
    _ = (value a).tmod (value b) := by rw [value_eq a, value_eq b, tmod_withSign]
    _ = value a - (value a).tdiv (value b) * value b := by rw [Int.tmod_def, mul_comm]

end Sys2Proof.Machine
end

section
/-! What a step is made of. `Substep` lists the changes a step can consist of, and `step_substeps` says that every step
is a sequence of them; so an invariant is proved by one case per change (O10, O14), and a second one may use the first
(O12). -/

namespace Sys2Proof.Machine

/-! ### The mixing stage on any range -/

theorem State.copyFrom_of_le (s : State) {a b : Nat} (h : b ≤ a) (count c : Nat) : s.copyFrom a b count c = s := by
  have hcopy (t : State) (d : Nat) : t.copyFrames d (b - a) a = t := by rw [Nat.sub_eq_zero_of_le h]; rfl
  induction count generalizing c with
  | zero => rfl
  | succ count ih => rw [State.copyFrom_succ, hcopy, ih]

/-- A range that ends before it begins holds no frame. -/
theorem State.renderRange_of_le (s : State) {a b : Nat} (h : b ≤ a) : s.renderRange a b = s := by
  have hvoice (t : State) (n : Fin 128) : t.mixVoice n a b = t := by
    unfold State.mixVoice
    rw [Nat.sub_eq_zero_of_le h, State.mixFrames, ite_self]
  have hmix : s.mixVoices a b = s := by
    unfold State.mixVoices
    simp only [hvoice]
    induction slots with
    | nil => rfl
    | cons n l ih => exact ih
  unfold State.renderRange State.copyChannels
  rw [hmix, State.copyFrom_of_le s h, ite_self]

/-- `RENDER_RANGE` writes the voice file and the RAMs and nothing else, whatever its bounds. -/
theorem State.soundOnly_renderRange (s : State) (a b : Nat) : SoundOnly s (s.renderRange a b) := by
  rcases Nat.le_total a b with h | h
  · exact s.renderRange_soundOnly h
  · rw [s.renderRange_of_le h]
    exact .refl s

theorem SoundOnly.k {s t : State} (h : SoundOnly s t) : t.k = s.k := by
  unfold SoundOnly at h; rw [h]

/-! ### The changes -/

/-- The state after one turn of R162's loop at the legal event K: the sub-range before it, its effect, the next K. -/
def State.turn (s : State) : State :=
  ((s.renderRange s.cur (evTs (s.evq s.k)).toNat).applyWord (s.evq s.k)).advance (evTs (s.evq s.k))

/-- Before it moves on, a turn has written the voice file and the RAMs alone. -/
theorem State.turn_eq_advance (s : State) :
    ∃ t, SoundOnly s t ∧ s.turn = t.advance (evTs (s.evq s.k)) :=
  ⟨_, (s.soundOnly_renderRange _ _).trans (State.applyWord_soundOnly _ _), rfl⟩

/-- One change of the state, of which a step makes a sequence. -/
inductive Substep (s : State) : State → Prop where
  /-- A move taken off or an access answered. -/
  | io (m : List Move) (r : Option Reply) : Substep s { s with moves := m, reply := r }
  /-- A reset (R230). -/
  | reset (n : Nat) (m : List Move) : Substep s (State.resetOf s.cfg n m)
  /-- A host write of an element that is not `CMD`, to the idle block (R55, R57). -/
  | write {off : Word} {e : Elem} (v : Word) (idle : s.mode = .idle) (ht : target s.cfg off 4 = some e) :
      Substep s (s.writeElem e v)
  /-- A `PREPARE` posted (R144). -/
  | postPrepare (idle : s.mode = .idle) : Substep s { s with mode := .preparing }
  /-- A `RENDER` posted, with no fault held (R81, R160). -/
  | postRender (idle : s.mode = .idle) (noFault : s.fault = false) : Substep s { s with mode := .validating }
  /-- A fault (R202), its index 0 unless it is an event's (R31). -/
  | fault {c : Cause} {i : Nat} (hc : c ≠ .noFault) (hi : c.ofEvent = false → i = 0) : Substep s (s.raiseFault c i)
  /-- A successful `PREPARE` (R144). -/
  | prepare (legal : sampleRateLegal s.sr = true) : Substep s s.prepare
  /-- The beginning of the execution pass (R162) of a block that passed every check (R160, R161). -/
  | begin (entered : s.mode = .validating ∨ s.fault = false) (prepared : s.prepared = true)
      (legal : s.blockLegal = true) (events : ∀ k, k < s.nev.toNat → s.eventOk k) : Substep s (s.seqAt .rendering 0 0)
  /-- One turn of the loop of R162. -/
  | turn (rendering : s.mode = .rendering) (hk : s.k < s.nev.toNat)
      (ok : eventFault s.blen.toNat s.cur (s.evq s.k) = none) : Substep s s.turn
  /-- The last sub-range (R162). -/
  | finish (rendering : s.mode = .rendering) : Substep s s.endRender

/-- A sequence of changes. -/
def Substeps : State → State → Prop := Relation.ReflTransGen Substep

theorem Substeps.refl (s : State) : Substeps s s := Relation.ReflTransGen.refl

theorem Substeps.trans {s t u : State} (h : Substeps s t) (h' : Substeps t u) : Substeps s u :=
  Relation.ReflTransGen.trans h h'

theorem Substep.then {s t u : State} (h : Substep s t) (h' : Substeps t u) : Substeps s u :=
  Relation.ReflTransGen.head h h'

theorem Substep.once {s t : State} (h : Substep s t) : Substeps s t := Relation.ReflTransGen.single h

/-- A property that every change keeps is kept by a sequence of changes. -/
theorem Substeps.keep {P : State → Prop} (hkeep : ∀ s t, Substep s t → P s → P t) {s t : State} (h : Substeps s t)
    (hs : P s) : P t := by
  induction h with
  | refl => exact hs
  | tail _ hstep ih => exact hkeep _ _ hstep ih

/-! ### The commands -/

theorem prepare_substeps (s : State) : Substeps s s.prepare := by
  cases hr : sampleRateLegal s.sr with
  | true => exact (Substep.prepare hr).once
  | false =>
    rw [State.prepare_illegal hr]
    exact (Substep.fault (by decide) fun _ => rfl).once

theorem beginRender_substeps {s : State} (entered : s.mode = .validating ∨ s.fault = false) :
    Substeps s s.beginRender := by
  rcases s.beginRender_cases with ⟨c, i, hc, heq, hi⟩ | ⟨hprep, hlegal, hevents, heq⟩ <;> rw [heq]
  · exact (Substep.fault hc hi).once
  · exact (Substep.begin entered hprep hlegal hevents).once

/-- The execution pass runs an event as `exec` does. -/
theorem State.eventUnit_apply (s : State) : s.eventUnit (fun i t => t.apply i) = s.eventUnit exec := by
  unfold State.eventUnit
  cases hat : s.eventAt with
  | error c => rfl
  | ok i =>
    have hdec : decodeEvent (s.evq s.k) = .ok i := by
      unfold State.eventAt at hat
      cases hf : eventFault s.blen.toNat s.cur (s.evq s.k) with
      | some c => simp [hf] at hat
      | none =>
        cases hd : decodeEvent (s.evq s.k) with
        | ok j => simpa [hf, hd] using hat
        | error e => simp [hf, hd] at hat
    simp only [exec_eq_apply hdec]

/-- The unit of an event takes the event's fault, or is a turn of the loop. -/
theorem eventUnit_substeps {s t : State} (rendering : s.mode = .rendering) (hk : s.k < s.nev.toNat)
    (h : s.eventUnit exec = .next t) :
    Substeps s t ∧ (t.mode = .idle ∨ t.mode = .rendering ∧ t.k = s.k + 1 ∧ t.nev = s.nev) := by
  rcases State.eventUnit_cases h with ⟨c, hc, rfl⟩ | ⟨hok, rfl⟩
  · have hev := eventFault_ofEvent hc
    refine ⟨(Substep.fault ?_ ?_).once, .inl (State.raiseFault_mode _ _ _)⟩
    · rintro rfl
      cases hev
    · intro hn
      rw [hev] at hn
      cases hn
  · refine ⟨(Substep.turn rendering hk hok).once, .inr ?_⟩
    obtain ⟨u, hu, heq⟩ := s.turn_eq_advance
    show s.turn.mode = _ ∧ s.turn.k = _ ∧ s.turn.nev = _
    rw [heq]
    exact ⟨hu.mode.trans rendering, congrArg (· + 1) hu.k, hu.nev⟩

/-- The execution pass (R162) with as many turns left as it has events. -/
theorem executeFrom_substeps {s t : State} {count : Nat} (hk : s.k + count = s.nev.toNat)
    (h : s.executeFrom count = .next t) : Substeps s t := by
  by_cases hm : s.mode = .rendering
  · induction count generalizing s with
    | zero =>
      simp only [State.executeFrom, hm, if_true] at h
      cases h
      exact (Substep.finish hm).once
    | succ count ih =>
      simp only [State.executeFrom, hm, if_true, State.eventUnit_apply] at h
      cases hu : s.eventUnit exec with
      | fault r => cases r
      | refused r => simp [hu] at h
      | next u =>
        simp only [hu] at h
        obtain ⟨hsub, hidle | ⟨hren, hk', hnev⟩⟩ := eventUnit_substeps hm (by omega) hu
        · rw [State.executeFrom_idle hidle] at h
          cases h
          exact hsub
        · exact hsub.trans (ih (by rw [hk', hnev]; omega) h hren)
  · cases count <;> simp only [State.executeFrom, hm, if_false] at h <;> cases h <;> exact .refl s

theorem execRender_substeps {s t : State} {g : BitVec 24} (h : execRender g s = .next t) :
    Substeps s t := by
  unfold execRender at h
  split at h
  · cases h
    exact .refl s
  · next hf =>
    have hbegin := beginRender_substeps (s := s) (.inr (by simpa using hf))
    refine hbegin.trans ?_
    rcases s.beginRender_cases with ⟨c, i, -, heq, -⟩ | ⟨-, -, -, heq⟩ <;> rw [heq] at h ⊢
    · rw [State.executeFrom_idle (State.raiseFault_mode _ _ _)] at h
      cases h
      exact .refl _
    · exact executeFrom_substeps (Nat.zero_add _) h

theorem illegalCommand_substep (s : State) : Substep s (s.raiseFault .illegalCommand 0) :=
  .fault (by decide) fun _ => rfl

/-- A command word decodes to one of the two commands. -/
theorem decodeCmd_ok {v : Word} {i : Instr} (h : decodeCmd v = .ok i) : (∃ g, i = .prepare g) ∨ ∃ g, i = .render g := by
  unfold decodeCmd at h
  split_ifs at h <;> cases h
  · exact .inl ⟨_, rfl⟩
  · exact .inr ⟨_, rfl⟩

theorem runCommand_substeps {s t : State} {v : Word} (h : runCommand v s = .next t) :
    Substeps s t := by
  unfold runCommand at h
  cases hd : decodeCmd v with
  | error e =>
    simp only [hd] at h
    cases h
    exact (illegalCommand_substep s).once
  | ok i =>
    simp only [hd] at h
    rcases decodeCmd_ok hd with ⟨g, rfl⟩ | ⟨g, rfl⟩
    · cases h
      exact prepare_substeps s
    · exact execRender_substeps (g := g) h

theorem postCommand_substeps {s t : State} {v : Word} (idle : s.mode = .idle) (h : postCommand v s = .next t) :
    Substeps s t := by
  unfold postCommand at h
  cases hd : decodeCmd v with
  | error e =>
    simp only [hd] at h
    cases h
    exact (illegalCommand_substep s).once
  | ok i =>
    rcases decodeCmd_ok hd with ⟨g, rfl⟩ | ⟨g, rfl⟩ <;> simp only [hd] at h <;> cases h
    · exact (Substep.postPrepare idle).once
    · split
      · exact .refl s
      · next hf => exact (Substep.postRender idle (by simpa using hf)).once

/-! ### The step -/

theorem unit_substeps {s t : State} (h : s.unit = .next t) : Substeps s t := by
  unfold State.unit at h
  cases hm : s.mode with
  | idle =>
    simp only [hm] at h
    cases h
    exact .refl s
  | preparing =>
    simp only [hm] at h
    cases h
    exact prepare_substeps s
  | validating =>
    simp only [hm] at h
    cases h
    exact beginRender_substeps (.inl hm)
  | rendering =>
    simp only [hm] at h
    split at h
    · next hk => exact (eventUnit_substeps hm hk h).1
    · cases h
      exact (Substep.finish hm).once

/-- A host write, its command started by `start`. -/
theorem hostWrite_substeps {start : Word → State → Host.Outcome State Fault Refusal} {s t : State} {off v : Word}
    {width : Nat} (hstart : ∀ u, u.mode = .idle → start v u = .next t → Substeps u t)
    (h : s.hostWrite start off width v = .next t) : Substeps s t := by
  rcases State.hostWrite_cases h with rfl | ⟨idle, -, -, hs⟩ | ⟨idle, e, he, -, rfl⟩
  · exact (Substep.io s.moves _).once
  · exact Substep.then (t := s.answer 0) (.io s.moves _) (hstart _ idle hs)
  · have hw : width = 4 := by
      unfold target at he
      split at he
      · next hc => exact hc.1
      · cases he
    subst hw
    exact (Substep.write v idle he).then (Substep.io _ _).once

/-- Every step is a sequence of changes. -/
theorem step_substeps {s t : State} (h : step s = .next t) : Substeps s t := by
  rcases step_cases h with ⟨-, hu⟩ | ⟨rest, -, hu⟩ | ⟨off, width, rest, -, rfl⟩ | ⟨off, width, v, rest, -, hw⟩
    | ⟨off, width, v, rest, -, hw⟩ | ⟨rest, -, rfl⟩
  · exact unit_substeps hu
  · exact (Substep.io rest s.reply).then (unit_substeps hu)
  · exact (Substep.io _ _).once
  · exact (Substep.io rest s.reply).then (hostWrite_substeps (fun _ _ => runCommand_substeps) hw)
  · exact (Substep.io rest s.reply).then (hostWrite_substeps (fun _ => postCommand_substeps) hw)
  · exact (Substep.reset _ _).once

end Sys2Proof.Machine
end

section
/-! The sequencer's invariant (O10) and the configuration (O14): what each change of `Substep` does to them. -/

namespace Sys2Proof.Machine

/-! ### The sequencer, the fault record and the latched rate -/

/-- The agreement says nothing of the voices and the RAMs. -/
theorem SeqInv.soundOnly {s t : State} (h : SeqInv s) (hst : SoundOnly s t) : SeqInv t := by
  unfold SoundOnly at hst
  rw [hst]
  exact ⟨h.no_fault, h.has_cause, h.rate, h.validating, h.rendering⟩

/-- The idle block has no position in a render. -/
theorem SeqInv.of_idle {s : State} (idle : s.mode = .idle)
    (no_fault : s.fault = false → s.cause = .noFault ∧ s.findex = 0#16)
    (has_cause : s.fault = true → s.cause ≠ .noFault ∧ (s.cause.ofEvent = false → s.findex = 0#16))
    (rate : s.prepared = true → sampleRateLegal s.sra = true) : SeqInv s where
  no_fault := no_fault
  has_cause := has_cause
  rate := rate
  validating hm := by rw [idle] at hm; cases hm
  rendering hm := by rw [idle] at hm; cases hm

theorem SeqInv.complete {s : State} (h : SeqInv s) : SeqInv s.complete :=
  .of_idle rfl h.no_fault h.has_cause h.rate

/-- A fault raised has its cause, and an index only for an event cause (R31, R202). -/
theorem SeqInv.raiseFault {s : State} (h : SeqInv s) {c : Cause} {i : Nat} (hc : c ≠ .noFault)
    (hi : c.ofEvent = false → i = 0) : SeqInv (s.raiseFault c i) := by
  cases hf : s.fault with
  | true =>
    rw [State.raiseFault_held hf]
    exact h.complete
  | false =>
    rw [State.raiseFault_first hf]
    exact .of_idle rfl nofun (fun _ => ⟨hc, fun hn => by rw [hi hn]⟩) h.rate

/-- A successful `PREPARE` latches the rate it checked and clears the fault record (R144). -/
theorem seqInv_prepare {s : State} (legal : sampleRateLegal s.sr = true) : SeqInv s.prepare := by
  rw [State.prepare_legal legal]
  exact .of_idle rfl (fun _ => ⟨rfl, rfl⟩) nofun fun _ => legal

/-- A host write reaches the idle block alone, and none of the fault record, `PREPARED` and `SRA`. -/
theorem SeqInv.writeElem {s : State} (h : SeqInv s) (idle : s.mode = .idle) (e : Elem) (v : Word) :
    SeqInv (s.writeElem e v) := by
  rw [State.writeElem_frame]
  exact .of_idle idle h.no_fault h.has_cause h.rate

/-- A turn ends inside the block: its event's TS passed the check against BLEN (R161). -/
theorem SeqInv.turn {s : State} (h : SeqInv s) (rendering : s.mode = .rendering) (hk : s.k < s.nev.toNat)
    (ok : eventFault s.blen.toNat s.cur (s.evq s.k) = none) : SeqInv s.turn := by
  obtain ⟨t, ht, heq⟩ := s.turn_eq_advance
  rw [heq]
  have h' := h.soundOnly ht
  obtain ⟨noFault, prepared, legal, -, -⟩ := h'.rendering (ht.mode.trans rendering)
  obtain ⟨-, inBlock, -, -⟩ := eventFault_none.1 ok
  refine ⟨h'.no_fault, h'.has_cause, h'.rate, h'.validating, fun _ => ⟨noFault, prepared, legal, ?_, ?_⟩⟩
  · rw [State.advance_k, State.advance_nev, ht.k, ht.nev]
    exact hk
  · rw [State.advance_cur, State.advance_blen, ht.blen]
    exact inBlock

theorem seqInv_resetOf (c : Config) (n : Nat) (m : List Move) : SeqInv (State.resetOf c n m) :=
  .of_idle rfl (fun _ => ⟨rfl, rfl⟩) nofun nofun

/-- Every change keeps the agreement. -/
theorem Substep.seqInv {s t : State} (hst : Substep s t) (h : SeqInv s) : SeqInv t := by
  cases hst with
  | io m r => exact ⟨h.no_fault, h.has_cause, h.rate, h.validating, h.rendering⟩
  | reset n m => exact seqInv_resetOf _ _ _
  | write v idle ht => exact h.writeElem idle _ v
  | postPrepare idle => exact ⟨h.no_fault, h.has_cause, h.rate, nofun, nofun⟩
  | postRender idle noFault => exact ⟨h.no_fault, h.has_cause, h.rate, fun _ => noFault, nofun⟩
  | fault hc hi => exact h.raiseFault hc hi
  | prepare legal => exact seqInv_prepare legal
  | begin entered prepared legal events =>
    have noFault : s.fault = false := entered.elim h.validating id
    exact ⟨h.no_fault, h.has_cause, h.rate, nofun,
      fun _ => ⟨noFault, prepared, legal, Nat.zero_le _, Nat.zero_le _⟩⟩
  | turn rendering hk ok => exact h.turn rendering hk ok
  | finish rendering => exact (h.soundOnly (s.soundOnly_renderRange _ _)).complete

/-- Settles O10: a step is a sequence of changes, each of which keeps the agreement. -/
theorem everyStepKeepsSequencerInvariant : Obligations.EveryStepKeepsSequencerInvariant :=
  fun _ _ hs h => (step_substeps h).keep (P := SeqInv) (fun _ _ => Substep.seqInv) hs

/-! ### The configuration -/

theorem Substep.cfg {s t : State} (h : Substep s t) : t.cfg = s.cfg := by
  cases h with
  | io m r => rfl
  | reset n m => rfl
  | write v idle ht => rw [State.writeElem_frame]
  | postPrepare idle => rfl
  | postRender idle noFault => rfl
  | fault hc hi => exact State.raiseFault_cfg _ _ _
  | prepare legal => rw [State.prepare_legal legal]
  | begin entered prepared legal events => rfl
  | turn rendering hk ok =>
    obtain ⟨u, hu, heq⟩ := s.turn_eq_advance
    rw [heq]
    exact hu.cfg
  | finish rendering => exact (s.soundOnly_renderRange _ _).cfg

/-- Settles O14: none of the changes a step consists of writes the configuration. -/
theorem noStepWritesTheConfiguration : Obligations.NoStepWritesTheConfiguration := fun s _ h =>
  (step_substeps h).keep (P := fun u => u.cfg = s.cfg) (fun _ _ hstep hu => hstep.cfg.trans hu) rfl

end Sys2Proof.Machine
end

section
/-! The voices stay in range (O12): a phase that moves on, an increment a `NOTE_ON` writes, and the silence of a stopped
voice are in range (R118); then each change of `Substep` keeps the voice file in range. -/

namespace Sys2Proof.Machine

/-! ### One voice -/

theorem Voice.inRange_iff {c : Config} {v : Voice} : v.inRange c = true ↔
    (isFinite v.phase = true ∧ signBit v.phase = false ∧ units v.phase < units (f32 c.L))
      ∧ isFinite v.inc = true ∧ signBit v.inc = false := by
  simp [Voice.inRange, and_assoc]

theorem units_f32_L_pos (c : Config) : 0 < units (f32 c.L) := by
  obtain ⟨-, -, -, hzero⟩ := f32_L c
  exact units_pos hzero

/-- A stopped voice is in range. -/
theorem Voice.inRange_silent (c : Config) : Voice.inRange c ⟨posZero, posZero⟩ = true :=
  Voice.inRange_iff.2 ⟨⟨by decide, by decide, units_f32_L_pos c⟩, by decide, by decide⟩

/-- A magnitude below 1024.0 added to a finite one does not reach the overflow bound. -/
theorem units_add_lt_overflow {w : Word} (hw : isFinite w = true) {m : Nat} (hm : m < 2 ^ 10 * 2 ^ 149) :
    m + units w < overflowUnits := by
  have hmag := (isFinite_iff w).1 hw
  have hmax : units w ≤ magUnits 0x7F7FFFFF := by
    rw [units_eq]
    exact magUnits_strictMono.monotone (by omega)
  have hsum : magUnits 0x7F7FFFFF + 2 ^ 10 * 2 ^ 149 ≤ overflowUnits := by decide +kernel
  omega

/-- A phase in range stays in range as it moves on by an increment in range: the sum does not overflow, and the modulo is
exact, of the sum's sign and below the table length (R115, R118). -/
theorem nextPhase_inRange {c : Config} {v : Voice} (h : v.inRange c = true) :
    Voice.inRange c ⟨nextPhase c v.phase v.inc, v.inc⟩ = true := by
  obtain ⟨⟨hfin, hsign, hlt⟩, hincFin, hincSign⟩ := Voice.inRange_iff.1 h
  obtain ⟨hLfin, -, hLunits, hLzero⟩ := f32_L c
  have hsum := fadd32_nonneg hfin hincFin hsign hincSign
  have hsumFin : isFinite (fadd32 v.phase v.inc) = true := by
    rw [hsum, isFinite_roundWord]
    refine roundMag_lt_inf one_pos ?_
    rw [Nat.mul_one]
    refine units_add_lt_overflow hincFin (hlt.trans_le ?_)
    rw [hLunits]
    exact Nat.mul_le_mul_right _ c.L_range.2
  obtain ⟨hmodFin, hmodSign, hmodUnits⟩ := fmod32_finite hsumFin hLfin hLzero
  refine Voice.inRange_iff.2 ⟨⟨hmodFin, ?_, ?_⟩, hincFin, hincSign⟩
  · rw [nextPhase, hmodSign, hsum, signBit_roundWord]
  · rw [nextPhase, hmodUnits]
    exact Nat.mod_lt _ (units_f32_L_pos c)

/-- A voice in range stays in range over any number of samples. -/
theorem phaseAfter_inRange {c : Config} {v : Voice} (h : v.inRange c = true) (j : Nat) :
    Voice.inRange c ⟨phaseAfter c v j, v.inc⟩ = true := by
  induction j with
  | zero => exact h
  | succ j ih => exact nextPhase_inRange (v := ⟨phaseAfter c v j, v.inc⟩) ih

/-! ### The increment of a `NOTE_ON` -/

/-- A legal sample rate is finite, positive and at least 1.0. -/
theorem sampleRateLegal_bounds {w : Word} (h : sampleRateLegal w = true) :
    isFinite w = true ∧ signBit w = false ∧ 2 ^ 149 ≤ units w := by
  simp only [sampleRateLegal, fge32, Bool.and_eq_true, decide_eq_true_eq] at h
  obtain ⟨hfin, -, hge⟩ := h
  rw [show value one32 = 2 ^ 149 by decide +kernel] at hge
  unfold value at hge
  cases hs : signBit w with
  | true => rw [hs, if_pos rfl] at hge; omega
  | false =>
    rw [hs, if_neg Bool.false_ne_true] at hge
    exact ⟨hfin, rfl, by exact_mod_cast hge⟩

theorem noteToFreq_mem (c : Config) (n : Fin 128) : noteToFreq c n ∈ c.freq := by
  have hlt : n.val < c.freq.length := by rw [c.freq_length]; exact n.isLt
  have hread : noteToFreq c n = c.freq[n.val] := by simp [noteToFreq, romRead, hlt]
  rw [hread]
  exact List.getElem_mem hlt

/-- The increment of R113 is finite with sign bit 0: the product is, and a division by at least 1.0 does not raise its
magnitude. -/
theorem incrementOf_inRange {c : Config} (tame : tameFreq c = true) {sra : Word} (legal : sampleRateLegal sra = true)
    (n : Fin 128) :
    isFinite (incrementOf c (noteToFreq c n) sra) = true ∧ signBit (incrementOf c (noteToFreq c n) sra) = false := by
  have hpos := List.all_eq_true.1 c.freq_positive _ (noteToFreq_mem c n)
  simp only [isPositiveFinite, Bool.and_eq_true, Bool.not_eq_true'] at hpos
  obtain ⟨⟨hfreqFin, hfreqSign⟩, -⟩ := hpos
  obtain ⟨hLfin, hLsign, -, -⟩ := f32_L c
  obtain ⟨hsraFin, hsraSign, hsraUnits⟩ := sampleRateLegal_bounds legal
  have hprodFin := List.all_eq_true.1 tame _ (noteToFreq_mem c n)
  have hprodSign : signBit (fmul32 (noteToFreq c n) (f32 c.L)) = false := by
    rw [fmul32_finite hfreqFin hLfin, signBit_roundWord, hfreqSign, hLsign, bne_self_eq_false]
  have hsraPos : 0 < units sra := (Nat.two_pow_pos 149).trans_le hsraUnits
  have hsraZero : isZero sra = false := by
    rw [Bool.eq_false_iff, Ne, ← units_eq_zero]
    exact hsraPos.ne'
  unfold incrementOf
  generalize fmul32 (noteToFreq c n) (f32 c.L) = prod at *
  rw [fdiv32_finite hprodFin hsraFin hsraZero, hprodSign, hsraSign, isFinite_roundWord]
  refine ⟨?_, signBit_roundWord _ _ _⟩
  have hmag := (isFinite_iff prod).1 hprodFin
  refine Nat.lt_of_le_of_lt (roundMag_le_of_le hsraPos hmag.le ?_) hmag
  rw [← units_eq]
  exact Nat.mul_le_mul_left _ hsraUnits

/-! ### The voice file -/

theorem VoiceInv.congr {s t : State} (h : VoiceInv s) (hc : t.cfg = s.cfg) (hv : t.voices = s.voices) : VoiceInv t := by
  intro n
  rw [State.voice, hv, hc]
  exact h n

theorem VoiceInv.setVoice {s : State} (h : VoiceInv s) (n : Fin 128) {v : Voice} (hv : v.inRange s.cfg = true) :
    VoiceInv (s.setVoice n v) := by
  intro m
  by_cases hm : m = n
  · subst hm
    rwa [State.voice_setVoice_self, State.setVoice_cfg]
  · rw [State.voice_setVoice_ne _ _ hm, State.setVoice_cfg]
    exact h m

theorem voiceInv_of_silent {s : State} (h : s.voices = Vector.replicate 128 ⟨posZero, posZero⟩) : VoiceInv s := by
  intro n
  have hv : s.voice n = ⟨posZero, posZero⟩ := by simp [State.voice, h, Vector.get_eq_getElem]
  rw [hv]
  exact Voice.inRange_silent _

/-- `RENDER_RANGE` moves every active voice on by the range's length and no other (R115, R164). -/
theorem State.voice_renderRange (s : State) {a b : Nat} (hab : a ≤ b) (hb : b ≤ s.cfg.maxBlen) (m : Fin 128) :
    (s.renderRange a b).voice m
      = if s.isActive m = true then ⟨phaseAfter s.cfg (s.voice m) (b - a), (s.voice m).inc⟩ else s.voice m := by
  unfold State.renderRange
  split
  · next h =>
    subst h
    rw [Nat.sub_self]
    exact (ite_self _).symm
  · have hmix : SoundOnly s (s.mixVoices a b) :=
      mixVoices_induct (soundOnly_kept s s.chans a b) (Nat.succ_pos _) hab slots s (.refl s)
    obtain ⟨hcopy, -, -⟩ := (s.mixVoices a b).copyFrom_spec ((s.mixVoices a b).nch.toNat - 1) 1 one_pos hab
      (by rw [hmix.cfg]; exact hb)
    have hvoices := (foldl_mixVoice_spec slots slots_nodup s hab).1 m
    simp only [mem_slots, true_and] at hvoices
    rw [← hvoices, State.voice, State.copyChannels, hcopy]
    rfl

theorem VoiceInv.renderRange {s : State} (h : VoiceInv s) {a b : Nat} (hab : a ≤ b) (hb : b ≤ s.cfg.maxBlen) :
    VoiceInv (s.renderRange a b) := by
  intro m
  rw [s.voice_renderRange hab hb, (s.soundOnly_renderRange a b).cfg]
  split
  · exact phaseAfter_inRange (h m) _
  · exact h m

/-- The effect of an event keeps the voices in range: a `NOTE_ON` by its increment, the others by silence. -/
theorem VoiceInv.applyWord {s : State} (h : VoiceInv s) (tame : tameFreq s.cfg = true)
    (rate : sampleRateLegal s.sra = true) (e : EventWord) : VoiceInv (s.applyWord e) := by
  unfold State.applyWord
  split
  · split
    · next n hn =>
      obtain ⟨hphase, -⟩ := Voice.inRange_iff.1 (h n)
      exact h.setVoice n (Voice.inRange_iff.2 ⟨hphase, incrementOf_inRange tame rate n⟩)
    · exact h
  · split
    · split
      · exact h.setVoice _ (Voice.inRange_silent _)
      · exact h
    · rw [State.stopAll_eq]
      exact voiceInv_of_silent rfl

theorem State.blen_le_of_blockLegal {s : State} (h : s.blockLegal = true) : s.blen.toNat ≤ s.cfg.maxBlen := by
  simp only [State.blockLegal, Bool.and_eq_true, decide_eq_true_eq] at h
  exact h.1.2

/-- A turn keeps the voices in range: its sub-range and its event do. -/
theorem VoiceInv.turn {s : State} (h : VoiceInv s) (tame : tameFreq s.cfg = true) (hs : SeqInv s)
    (rendering : s.mode = .rendering) (ok : eventFault s.blen.toNat s.cur (s.evq s.k) = none) : VoiceInv s.turn := by
  obtain ⟨-, prepared, legal, -, -⟩ := hs.rendering rendering
  obtain ⟨-, inBlock, ordered, -⟩ := eventFault_none.1 ok
  have hsound := s.soundOnly_renderRange s.cur (evTs (s.evq s.k)).toNat
  have hrange := h.renderRange ordered (inBlock.trans (State.blen_le_of_blockLegal legal))
  exact hrange.applyWord (by rwa [hsound.cfg]) (by rw [hsound.sra]; exact hs.rate prepared) _

/-- Every change keeps the voices in range. -/
theorem Substep.voiceInv {s t : State} (hst : Substep s t) (tame : tameFreq s.cfg = true) (hs : SeqInv s)
    (h : VoiceInv s) : VoiceInv t := by
  cases hst with
  | io m r => exact h
  | reset n m => exact voiceInv_of_silent rfl
  | write v idle ht =>
    rw [State.writeElem_frame]
    exact h.congr rfl rfl
  | postPrepare idle => exact h
  | postRender idle noFault => exact h
  | fault hc hi => exact h.congr (State.raiseFault_cfg _ _ _) (State.raiseFault_voices _ _ _)
  | prepare legal =>
    rw [State.prepare_legal legal]
    exact voiceInv_of_silent rfl
  | begin entered prepared legal events => exact h
  | turn rendering hk ok => exact h.turn tame hs rendering ok
  | finish rendering =>
    obtain ⟨-, -, legal, -, inBlock⟩ := hs.rendering rendering
    exact h.renderRange inBlock (State.blen_le_of_blockLegal legal)

/-- What keeps the voices in range from step to step: the ROM is tame, and the sequencer's state is sound. -/
structure VoicesSafe (s : State) : Prop where
  tame : tameFreq s.cfg = true
  seq : SeqInv s
  voices : VoiceInv s

theorem Substep.voicesSafe {s t : State} (hst : Substep s t) (h : VoicesSafe s) : VoicesSafe t where
  tame := by rw [hst.cfg]; exact h.tame
  seq := hst.seqInv h.seq
  voices := hst.voiceInv h.tame h.seq h.voices

/-- Settles O12: every change keeps the voices in range, given that the changes before it kept the sequencer's invariant
and the ROM. -/
theorem everyStepKeepsVoicesInRange : Obligations.EveryStepKeepsVoicesInRange := fun _ _ tame hs hv h =>
  ((step_substeps h).keep (fun _ _ => Substep.voicesSafe) ⟨tame, hs, hv⟩).voices

/-! ### Reset -/

/-- Settles O9: the sequencer's and the voices' invariants of a reset state are those a step's reset meets, and its RAMs
list no byte. -/
theorem resetMeetsTheInvariants : Obligations.ResetMeetsTheInvariants := fun c e m =>
  ⟨seqInv_resetOf c e m, ⟨rfl, fun _ hcell => absurd hcell List.not_mem_nil⟩, voiceInv_of_silent rfl⟩

end Sys2Proof.Machine
end

section
/-! The `STATUS` word (O46) and the writes of the configuration registers (O50). -/

namespace Sys2Proof.Machine

/-! ### `STATUS` -/

/-- Two words put together, as a number. -/
theorem toNat_append_eq {m n : Nat} (x : BitVec m) (y : BitVec n) : (x ++ y).toNat = x.toNat * 2 ^ n + y.toNat := by
  rw [BitVec.toNat_append, ← Nat.shiftLeft_add_eq_or_of_lt y.isLt, Nat.shiftLeft_eq]

/-- Settles O46: each part of the `STATUS` word weighs what the widths of the parts below it give. -/
theorem statusWordLayout : Obligations.StatusWordLayout := by
  intro s
  have hbusy : (BitVec.ofBool s.busy).toNat = if s.mode = .idle then 0 else 1 := by
    unfold State.busy
    cases s.mode <;> rfl
  have hfault : (BitVec.ofBool s.fault).toNat * 4 = if s.fault then 4 else 0 := by cases s.fault <;> rfl
  have hprepared : (BitVec.ofBool s.prepared).toNat * 2 = if s.prepared then 2 else 0 := by cases s.prepared <;> rfl
  rw [← hbusy, ← hfault, ← hprepared]
  simp only [State.status, toNat_append_eq, BitVec.toNat_ofNat]
  ring

/-! ### Register writes -/

/-- On the idle block a 4-byte write of an element that is not `CMD`, written or posted, takes the value and is answered
without an error (R55). -/
theorem step_writeElem {s : State} {off v : Word} {e : Elem} {rest : List Move} (idle : s.mode = .idle)
    (ht : target s.cfg off 4 = some e) (he : e ≠ .cmd)
    (hm : s.moves = .write off 4 v :: rest ∨ s.moves = .post off 4 v :: rest) :
    step s = .next ((({ s with moves := rest } : State).writeElem e v).answer 0) := by
  have hwrite (start : Word → State → Host.Outcome State Fault Refusal) :
      ({ s with moves := rest } : State).hostWrite start off 4 v
        = .next ((({ s with moves := rest } : State).writeElem e v).answer 0) := by
    simp [State.hostWrite, ht, State.busy, idle, he]
  rcases hm with hm | hm <;> simp only [step, State.popMove, hm, List.tail_cons, hwrite]

/-- Settles O50: the offsets of the four registers are those of R52, and a write of each takes its value. -/
theorem registerWritesLoadAnyPattern : Obligations.RegisterWritesLoadAnyPattern := by
  intro s v rest idle
  refine ⟨step_writeElem (e := .sr) idle ?_ (by decide), step_writeElem (e := .nch) idle ?_ (by decide),
    step_writeElem (e := .blen) idle ?_ (by decide), step_writeElem (e := .nev) idle ?_ (by decide)⟩
  all_goals rfl

end Sys2Proof.Machine
end

section
/-! The address map of R52, said once, and the RAM contents (O11): every write of the host or of a render lies inside the
two windows. -/

namespace Sys2Proof.Machine

/-! ### The address map -/

/-- The offsets at which R52 has an element. -/
def Elem.StandsAt (c : Config) (a : Nat) : Elem → Prop
  | .cmd => a = 0x0000
  | .status => a = 0x0004
  | .sr => a = 0x0008
  | .nch => a = 0x000C
  | .blen => a = 0x0010
  | .nev => a = 0x0014
  | .sra => a = 0x0018
  | .tlen => a = 0x001C
  | .nvoice => a = 0x0020
  | .maxch => a = 0x0024
  | .maxblen => a = 0x0028
  | .maxev => a = 0x002C
  | .phase n => a = 0x1000 + 8 * n.val
  | .inc n => a = 0x1004 + 8 * n.val
  | .table i => i < c.L ∧ a = 0x2000 + 4 * i
  | .freq n => n < 128 ∧ a = 0x3000 + 4 * n
  | .ram x => x = a ∧ inRam c a = true

theorem inRam_iff {c : Config} {a : Nat} : inRam c a = true ↔
    (0x8000 ≤ a ∧ a < 0x8000 + 8 * c.maxEv) ∨ (0x100000 ≤ a ∧ a < 0x100000 + 4 * (c.maxCh * c.maxBlen)) := by
  simp [inRam]

/-- Past the registers the map is the five windows. -/
theorem elemAt_window {c : Config} {a : Nat} (h : 0x30 ≤ a) : elemAt c a =
    if 0x1000 ≤ a ∧ a < 0x1400 then voiceElem (a - 0x1000)
    else if 0x2000 ≤ a ∧ a < 0x2000 + 4 * c.L then some (.table ((a - 0x2000) / 4))
    else if 0x3000 ≤ a ∧ a < 0x3200 then some (.freq ((a - 0x3000) / 4))
    else if inRam c a then some (.ram a)
    else none := by
  unfold elemAt
  iterate 12 rw [if_neg (by omega)]

/-- The voice window holds a phase and an increment for each slot. -/
theorem voiceElem_standsAt (c : Config) {d : Nat} {e : Elem} (aligned : d % 4 = 0) (h : voiceElem d = some e) :
    e.StandsAt c (0x1000 + d) := by
  unfold voiceElem at h
  split_ifs at h <;> cases h <;> simp only [Elem.StandsAt] <;> omega

/-- The element found at a multiple of 4 stands there. -/
theorem standsAt_of_elemAt {c : Config} {a : Nat} {e : Elem} (aligned : a % 4 = 0) (h : elemAt c a = some e) :
    e.StandsAt c a := by
  rcases Nat.lt_or_ge a 0x30 with hreg | hwin
  · have hindex : ∃ i, i < 12 ∧ a = 4 * i := ⟨a / 4, by omega, by omega⟩
    obtain ⟨i, hi, rfl⟩ := hindex
    interval_cases i <;> cases h <;> rfl
  · rw [elemAt_window hwin] at h
    split_ifs at h with hvoice htable hfreq hram
    · have := voiceElem_standsAt c (by omega) h
      rwa [Nat.add_sub_cancel' hvoice.1] at this
    · cases h
      exact ⟨by omega, by omega⟩
    · cases h
      exact ⟨by omega, by omega⟩
    · cases h
      exact ⟨rfl, hram⟩

/-- An element is found where it stands: no two windows overlap. -/
theorem elemAt_of_standsAt {c : Config} {a : Nat} {e : Elem} (h : e.StandsAt c a) : elemAt c a = some e := by
  have hL := c.L_range
  cases e with
  | phase n =>
    cases h
    rw [elemAt_window (by omega), if_pos (by omega)]
    simp [voiceElem]
  | inc n =>
    cases h
    have hdiv : (0x1004 + 8 * n.val - 0x1000) / 8 = n.val := by omega
    have hmod : (0x1004 + 8 * n.val - 0x1000) % 8 ≠ 0 := by omega
    rw [elemAt_window (by omega), if_pos (by omega)]
    simp [voiceElem, hdiv, hmod]
  | table i =>
    obtain ⟨hi, rfl⟩ := h
    rw [elemAt_window (by omega), if_neg (by omega), if_pos (by omega)]
    simp
  | freq n =>
    obtain ⟨hn, rfl⟩ := h
    rw [elemAt_window (by omega), if_neg (by omega), if_neg (by omega), if_pos (by omega)]
    simp
  | ram x =>
    obtain ⟨rfl, hram⟩ := h
    have := inRam_iff.1 hram
    rw [elemAt_window (by omega), if_neg (by omega), if_neg (by omega), if_neg (by omega), if_pos hram]
  | _ => cases h; rfl

/-- A 4-byte access at a multiple of 4 reaches the element that stands there; every other access reaches none (R54). -/
theorem target_eq_some {c : Config} {off : Word} {width : Nat} {e : Elem} :
    target c off width = some e ↔ width = 4 ∧ off.toNat % 4 = 0 ∧ e.StandsAt c off.toNat := by
  unfold target
  split_ifs with h
  · exact ⟨fun he => ⟨h.1, h.2, standsAt_of_elemAt h.2 he⟩, fun ⟨_, _, he⟩ => elemAt_of_standsAt he⟩
  · simp only [false_iff]
    exact fun ⟨hw, ha, _⟩ => h ⟨hw, ha⟩

/-- A word of the RAMs lies inside its window with all four bytes: the windows begin and end at multiples of 4. -/
theorem inRam_word {c : Config} {a x : Nat} (aligned : a % 4 = 0) (h : inRam c a = true) (hx : a ≤ x ∧ x < a + 4) :
    inRam c x = true := by
  rw [inRam_iff] at h ⊢
  omega

/-- A sample of an existing channel and frame lies in the buffer window. -/
theorem inRam_bufAddr {c : Config} {ch f : Nat} (hch : ch < c.maxCh) (hf : f < c.maxBlen) :
    inRam c (bufAddr c ch f) = true := by
  have hlast : (ch + 1) * c.maxBlen ≤ c.maxCh * c.maxBlen := Nat.mul_le_mul_right _ hch
  rw [Nat.add_one_mul] at hlast
  rw [inRam_iff, bufAddr]
  omega

theorem bufAddr_aligned (c : Config) (ch f : Nat) : bufAddr c ch f % 4 = 0 := by
  unfold bufAddr
  omega

/-! ### The RAM contents -/

/-- The RAM invariant speaks of the RAM contents and the configuration alone. -/
theorem RamInv.congr {s t : State} (h : RamInv s) (hm : t.mem = s.mem) (hc : t.cfg = s.cfg) : RamInv t where
  canonical := by rw [hm]; exact h.canonical
  inside := by rw [hm, hc]; exact h.inside

theorem ramInv_resetOf (c : Config) (n : Nat) (m : List Move) : RamInv (State.resetOf c n m) :=
  ⟨rfl, fun _ hcell => absurd hcell List.not_mem_nil⟩

/-- A word written inside the windows. -/
theorem RamInv.writeWord {s : State} (h : RamInv s) {a : Nat} (aligned : a % 4 = 0) (ha : inRam s.cfg a = true)
    (w : Word) : RamInv (s.writeWord a w) where
  canonical := Memory.wf_insertWord h.canonical a w
  inside _ hcell := (Memory.mem_insertWord hcell).elim (inRam_word aligned ha) (h.inside _)

/-- A host write reaches the RAMs inside the windows alone. -/
theorem RamInv.writeElem {s : State} (h : RamInv s) {off v : Word} {e : Elem} (ht : target s.cfg off 4 = some e) :
    RamInv (s.writeElem e v) := by
  obtain ⟨-, aligned, hat⟩ := target_eq_some.1 ht
  cases e with
  | ram x =>
    obtain ⟨rfl, hram⟩ := hat
    exact h.writeWord aligned hram v
  | _ => exact h.congr rfl rfl

/-- A sub-range of a legal block writes samples of existing channels and frames. -/
theorem RamInv.renderRange {s : State} (h : RamInv s) (legal : s.blockLegal = true) {a b : Nat} (hab : a ≤ b)
    (hb : b ≤ s.blen.toNat) : RamInv (s.renderRange a b) := by
  simp only [State.blockLegal, Bool.and_eq_true, decide_eq_true_eq] at legal
  obtain ⟨⟨⟨hpos, hch⟩, hblen⟩, -⟩ := legal
  have hchans : s.chans ≤ s.cfg.maxCh := by unfold State.chans; omega
  refine (renderRange_induct (P := fun t => t.cfg = s.cfg ∧ RamInv t) s ⟨?voice, ?buf⟩ hab ⟨rfl, h⟩).2
  case voice => exact fun t n v ⟨hcfg, ht⟩ => ⟨hcfg, ht.congr rfl rfl⟩
  case buf =>
    refine fun t c f w ⟨hcfg, ht⟩ hc _ hf => ⟨hcfg, ht.writeWord (bufAddr_aligned _ _ _) (inRam_bufAddr ?_ ?_) w⟩ <;>
      rw [hcfg] <;> omega

/-- A turn of the loop renders inside the block: its event passed the checks of R161. -/
theorem RamInv.turn {s : State} (h : RamInv s) (legal : s.blockLegal = true)
    (ok : eventFault s.blen.toNat s.cur (s.evq s.k) = none) : RamInv s.turn := by
  obtain ⟨-, inBlock, ordered, -⟩ := eventFault_none.1 ok
  exact (h.renderRange legal ordered inBlock).congr (State.applyWord_mem _ _) (State.applyWord_soundOnly _ _).cfg

/-- Every change keeps the RAM contents canonical and inside their windows. -/
theorem Substep.ramInv {s t : State} (hst : Substep s t) (hs : SeqInv s) (h : RamInv s) : RamInv t := by
  cases hst with
  | io m r => exact h.congr rfl rfl
  | reset n m => exact ramInv_resetOf _ _ _
  | write v idle ht => exact h.writeElem ht
  | postPrepare idle => exact h.congr rfl rfl
  | postRender idle noFault => exact h.congr rfl rfl
  | fault hc hi => exact h.congr (State.raiseFault_mem _ _ _) (State.raiseFault_cfg _ _ _)
  | prepare legal =>
    rw [State.prepare_legal legal]
    exact h.congr rfl rfl
  | begin entered prepared legal events => exact h.congr rfl rfl
  | turn rendering hk ok =>
    obtain ⟨-, -, legal, -, -⟩ := hs.rendering rendering
    exact h.turn legal ok
  | finish rendering =>
    obtain ⟨-, -, legal, -, inBlock⟩ := hs.rendering rendering
    exact (h.renderRange legal inBlock (Nat.le_refl _)).congr rfl rfl

/-- Settles O11: every change a step consists of keeps the RAM contents inside, given that the changes before it kept the
sequencer's invariant, which bounds the frames a render writes. -/
theorem everyStepKeepsRamsCanonicalAndInside : Obligations.EveryStepKeepsRamsCanonicalAndInside := fun _ _ hs hr h =>
  ((step_substeps h).keep (P := fun u => SeqInv u ∧ RamInv u)
    (fun _ _ hstep ⟨hseq, hram⟩ => ⟨hstep.seqInv hseq, hstep.ramInv hseq hram⟩) ⟨hs, hr⟩).2

end Sys2Proof.Machine
end

section
/-! The host bus (O47, O48, O49, O51, O52, O53, O54). One rule for each way an access ends: a read answered, a write
taken (`step_writeElem`), an access refused; each statement names the elements and uses these rules. -/

namespace Sys2Proof.Machine

/-! ### The ways an access ends -/

/-- A read of an element that may be read answers its value and changes nothing else (R55, R57). -/
theorem step_read {s : State} {off : Word} {width : Nat} {e : Elem} {rest : List Move}
    (hm : s.moves = .read off width :: rest) (ht : target s.cfg off width = some e)
    (allowed : s.mode = .idle ∨ e.readableBusy = true) : step s = .next (s.answered rest (s.readElem e)) := by
  have hvalue : ({ s with moves := rest } : State).readElem e = s.readElem e := by cases e <;> rfl
  have hmay : (({ s with moves := rest } : State).busy && !e.readableBusy) = false := by
    rcases allowed with h | h <;> simp [State.busy, h]
  have hread : ({ s with moves := rest } : State).hostRead off width = s.answered rest (s.readElem e) := by
    simp only [State.hostRead, ht, hmay, hvalue]
    rfl
  simp only [step, State.popMove, hm, List.tail_cons, hread]

/-- A read that reaches no element, or while `BUSY` = 1 one it may not read, is refused (R54, R57). -/
theorem step_read_refused {s : State} {off : Word} {width : Nat} {rest : List Move}
    (hm : s.moves = .read off width :: rest)
    (h : ∀ e, target s.cfg off width = some e → s.mode ≠ .idle ∧ e.readableBusy = false) :
    step s = .next (s.refused rest) := by
  have hread : ({ s with moves := rest } : State).hostRead off width = s.refused rest := by
    unfold State.hostRead
    cases ht : target s.cfg off width with
    | none => rfl
    | some e =>
      obtain ⟨hbusy, hno⟩ := h e ht
      simp [State.busy, hbusy, hno, State.busError, State.refused]
  simp only [step, State.popMove, hm, List.tail_cons, hread]

/-- A write that reaches no element, and every write while `BUSY` = 1, is refused (R54, R57). -/
theorem step_write_refused {s : State} {off v : Word} {width : Nat} {rest : List Move}
    (hm : s.moves = .write off width v :: rest ∨ s.moves = .post off width v :: rest)
    (h : s.mode ≠ .idle ∨ target s.cfg off width = none) : step s = .next (s.refused rest) := by
  have hwrite (start : Word → State → Host.Outcome State Fault Refusal) :
      ({ s with moves := rest } : State).hostWrite start off width v = .next (s.refused rest) := by
    unfold State.hostWrite
    cases ht : target s.cfg off width with
    | none => rfl
    | some e =>
      have hbusy := h.resolve_right (by simp [ht])
      simp [State.busy, hbusy, State.busError, State.refused]
  rcases hm with hm | hm <;> simp only [step, State.popMove, hm, List.tail_cons, hwrite]

/-- The answer of an access that was refused. -/
theorem reply_of_refused {s t : State} {rest : List Move} (h : step s = .next (s.refused rest))
    (ht : step s = .next t) : t.reply = some ⟨0, true⟩ := by
  rw [h] at ht
  cases ht
  rfl

/-- The answer of a read. -/
theorem reply_of_answered {s t : State} {rest : List Move} {v : Word} (h : step s = .next (s.answered rest v))
    (ht : step s = .next t) : t.reply = some ⟨v, false⟩ := by
  rw [h] at ht
  cases ht
  rfl

/-! ### Reads -/

theorem romRead_of_getElem? {rom : List Word} {i : Nat} {y : Word} (h : rom[i]? = some y) : romRead rom i = y := by
  simp [romRead, h]

/-- A `TABLE` word can be read at any time. -/
theorem step_read_table {s : State} {off y : Word} {i : Nat} {rest : List Move} (hm : s.moves = .read off 4 :: rest)
    (hy : s.cfg.table[i]? = some y) (hoff : off.toNat = 0x2000 + 4 * i) : step s = .next (s.answered rest y) := by
  obtain ⟨hi, -⟩ := List.getElem?_eq_some_iff.1 hy
  rw [s.cfg.table_length] at hi
  have hread := step_read (e := .table i) hm (target_eq_some.2 ⟨rfl, by omega, hi, hoff⟩) (.inr rfl)
  rwa [State.readElem, romRead_of_getElem? hy] at hread

/-- A `FREQ` word can be read at any time. -/
theorem step_read_freq {s : State} {off y : Word} {n : Nat} {rest : List Move} (hm : s.moves = .read off 4 :: rest)
    (hy : s.cfg.freq[n]? = some y) (hoff : off.toNat = 0x3000 + 4 * n) : step s = .next (s.answered rest y) := by
  obtain ⟨hn, -⟩ := List.getElem?_eq_some_iff.1 hy
  rw [s.cfg.freq_length] at hn
  have hread := step_read (e := .freq n) hm (target_eq_some.2 ⟨rfl, by omega, hn, hoff⟩) (.inr rfl)
  rwa [State.readElem, romRead_of_getElem? hy] at hread

/-- The low half of an event word is the RAM word at its offset (R59). -/
theorem State.evq_low (s : State) (k : Nat) : (s.evq k).extractLsb' 0 32 = s.readWord (evqAddr k) :=
  BitVec.extractLsb'_append_eq_right

/-- The high half is the next RAM word (R59). -/
theorem State.evq_high (s : State) (k : Nat) : (s.evq k).extractLsb' 32 32 = s.readWord (evqAddr k + 4) :=
  BitVec.extractLsb'_append_eq_left

/-- Settles O47: each offset is where the map of R52 has its element, and a read answers that element. -/
theorem readsFollowTheAddressMap : Obligations.ReadsFollowTheAddressMap := by
  intro s off rest idle hm
  have hreg {o : Word} (e : Elem) (ht : target s.cfg o 4 = some e) (h : off = o) :
      step s = .next (s.answered rest (s.readElem e)) :=
    step_read hm (h ▸ ht) (.inl idle)
  have hwindow (e : Elem) (aligned : off.toNat % 4 = 0) (h : e.StandsAt s.cfg off.toNat) :
      step s = .next (s.answered rest (s.readElem e)) :=
    step_read hm (target_eq_some.2 ⟨rfl, aligned, h⟩) (.inl idle)
  refine ⟨hreg .cmd rfl, hreg .status rfl, hreg .sr rfl, hreg .nch rfl, hreg .blen rfl, hreg .nev rfl, hreg .sra rfl,
    hreg .tlen rfl, hreg .nvoice rfl, hreg .maxch rfl, hreg .maxblen rfl, hreg .maxev rfl, ?phase, ?inc,
    fun _ _ => step_read_table hm, fun _ _ => step_read_freq hm, ?low, ?high, ?buf⟩
  case phase => exact fun n h => hwindow (.phase n) (by omega) h
  case inc => exact fun n h => hwindow (.inc n) (by omega) h
  case low =>
    intro k hk h
    rw [State.evq_low, evqAddr, ← h]
    exact hwindow (.ram off.toNat) (by omega) ⟨rfl, inRam_iff.2 (.inl (by omega))⟩
  case high =>
    intro k hk h
    have haddr : evqAddr k + 4 = off.toNat := by rw [evqAddr, h]; omega
    rw [State.evq_high, haddr]
    exact hwindow (.ram off.toNat) (by omega) ⟨rfl, inRam_iff.2 (.inl (by omega))⟩
  case buf =>
    intro c f hc hf h
    have hbuf : off.toNat = bufAddr s.cfg c f := h
    rw [State.buf, ← hbuf]
    exact hwindow (.ram off.toNat) (by omega) ⟨rfl, hbuf ▸ inRam_bufAddr hc hf⟩

/-! ### Accesses that reach nothing -/

/-- No element stands at an offset R52 leaves unmapped. -/
theorem not_standsAt_of_unmapped {c : Config} {a : Nat} (h : Unmapped c a) (e : Elem) : ¬e.StandsAt c a := by
  have hL := c.L_range
  have hev := c.maxEv_range
  unfold Unmapped at h
  cases e with
  | ram x =>
    rintro ⟨-, hram⟩
    rw [inRam_iff] at hram
    omega
  | _ => simp only [Elem.StandsAt]; omega

/-- An access of another width, off alignment or at an unmapped offset reaches no element (R54, R56). -/
theorem target_eq_none {c : Config} {off : Word} {width : Nat}
    (h : width ≠ 4 ∨ off.toNat % 4 ≠ 0 ∨ Unmapped c off.toNat) : target c off width = none := by
  rw [Option.eq_none_iff_forall_ne_some]
  intro e he
  obtain ⟨hwidth, aligned, hat⟩ := target_eq_some.1 he
  rcases h with h | h | h
  · exact h hwidth
  · exact h aligned
  · exact not_standsAt_of_unmapped h e hat

/-- Settles O48: such an access reaches no element, so it is refused whatever the block does. -/
theorem badAccessesGetBusErrors : Obligations.BadAccessesGetBusErrors := by
  intro s off v width rest hbad hm
  have hnone := target_eq_none hbad
  rcases hm with hm | hm
  · exact step_read_refused hm fun e he => absurd (hnone.symm.trans he) nofun
  · exact step_write_refused hm (.inr hnone)

/-! ### Writes -/

/-- A write of the element is ignored. -/
def Elem.ReadOnly (e : Elem) : Prop := e ≠ .cmd ∧ ∀ (s : State) (v : Word), s.writeElem e v = s

/-- What stands at the offsets of `STATUS`, of `SRA` to `MAXEV`, and in the voice and ROM windows is read-only (R56). -/
theorem exists_readOnly {c : Config} {a : Nat} (aligned : a % 4 = 0)
    (h : a = 0x04 ∨ (0x18 ≤ a ∧ a < 0x30) ∨ (0x1000 ≤ a ∧ a < 0x1400) ∨ (0x2000 ≤ a ∧ a < 0x2000 + 4 * c.L)
      ∨ (0x3000 ≤ a ∧ a < 0x3200)) : ∃ e : Elem, e.StandsAt c a ∧ e.ReadOnly := by
  rcases h with rfl | h | h | h | h
  · exact ⟨.status, rfl, nofun, fun _ _ => rfl⟩
  · have hreg : a = 0x18 ∨ a = 0x1C ∨ a = 0x20 ∨ a = 0x24 ∨ a = 0x28 ∨ a = 0x2C := by omega
    rcases hreg with rfl | rfl | rfl | rfl | rfl | rfl
    · exact ⟨.sra, rfl, nofun, fun _ _ => rfl⟩
    · exact ⟨.tlen, rfl, nofun, fun _ _ => rfl⟩
    · exact ⟨.nvoice, rfl, nofun, fun _ _ => rfl⟩
    · exact ⟨.maxch, rfl, nofun, fun _ _ => rfl⟩
    · exact ⟨.maxblen, rfl, nofun, fun _ _ => rfl⟩
    · exact ⟨.maxev, rfl, nofun, fun _ _ => rfl⟩
  · have hslot : (a - 0x1000) / 8 < 128 := by omega
    by_cases hphase : a % 8 = 0
    · exact ⟨.phase ⟨_, hslot⟩, by simp only [Elem.StandsAt]; omega, nofun, fun _ _ => rfl⟩
    · exact ⟨.inc ⟨_, hslot⟩, by simp only [Elem.StandsAt]; omega, nofun, fun _ _ => rfl⟩
  · exact ⟨.table ((a - 0x2000) / 4), ⟨by omega, by omega⟩, nofun, fun _ _ => rfl⟩
  · exact ⟨.freq ((a - 0x3000) / 4), ⟨by omega, by omega⟩, nofun, fun _ _ => rfl⟩

/-- Settles O49: the element there is read-only, and a write of it leaves the answer alone. -/
theorem readOnlyWritesAreIgnored : Obligations.ReadOnlyWritesAreIgnored := by
  intro s off v rest idle aligned hoff hm
  obtain ⟨e, hat, hcmd, hkeep⟩ := exists_readOnly aligned hoff
  rw [step_writeElem idle (target_eq_some.2 ⟨rfl, aligned, hat⟩) hcmd hm, hkeep]
  rfl

/-- On the idle block a write of a RAM word, written or posted, stores it whole and is answered without an error
(R55). -/
theorem step_writeRam {s : State} {off v : Word} {rest : List Move} (idle : s.mode = .idle)
    (aligned : off.toNat % 4 = 0) (hram : inRam s.cfg off.toNat = true)
    (hm : s.moves = .write off 4 v :: rest ∨ s.moves = .post off 4 v :: rest) :
    step s = .next ((s.writeWord off.toNat v).answered rest 0) :=
  step_writeElem (e := .ram off.toNat) idle (target_eq_some.2 ⟨rfl, aligned, rfl, hram⟩) nofun hm

/-- Settles O51: the write stores its word, and the bytes of a written word are those of R53. -/
theorem ramWritesStoreLittleEndianWords : Obligations.RamWritesStoreLittleEndianWords := by
  intro s off v rest idle aligned hram hm
  refine ⟨_, step_writeRam idle aligned hram hm, rfl, fun j hj => ?written, fun x hx => ?other⟩
  case written =>
    show (s.writeWord off.toNat v).readByte (off.toNat + j) = byteOf v j
    rw [State.readByte_writeWord]
    interval_cases j <;> simp
  case other => exact State.readByte_writeWord_outside s v hx

/-- The offset of a word of an existing event, as a bus offset: it fits, is a multiple of 4 and lies in the event
window. -/
theorem evq_offset {c : Config} {k a : Nat} (hk : k < c.maxEv) (ha : a = evqAddr k ∨ a = evqAddr k + 4) :
    (BitVec.ofNat 32 a).toNat = a ∧ a % 4 = 0 ∧ inRam c a = true := by
  have hev := c.maxEv_range
  unfold evqAddr at ha
  refine ⟨?_, by omega, inRam_iff.2 (.inl (by omega))⟩
  rw [BitVec.toNat_ofNat]
  exact Nat.mod_eq_of_lt (by omega)

/-- A word of an existing event written on the idle block. -/
theorem step_writeEvq {s : State} {k a : Nat} {v : Word} {m : Move} {rest : List Move} (idle : s.mode = .idle)
    (hk : k < s.cfg.maxEv) (ha : a = evqAddr k ∨ a = evqAddr k + 4)
    (hv : m = .write (BitVec.ofNat 32 a) 4 v ∨ m = .post (BitVec.ofNat 32 a) 4 v) (hm : s.moves = m :: rest) :
    step s = .next ((s.writeWord a v).answered rest 0) := by
  obtain ⟨hfit, aligned, hram⟩ := evq_offset hk ha
  have hstep := step_writeRam (off := BitVec.ofNat 32 a) (v := v) (rest := rest) idle (by rw [hfit]; exact aligned)
    (by rw [hfit]; exact hram) (hv.imp (fun h => by rw [hm, h]) (fun h => by rw [hm, h]))
  rwa [hfit] at hstep

/-- The event words after both RAM words of event k were written (R59). -/
theorem State.evq_writeWord_writeWord (s : State) (k j : Nat) (lo hi : Word) :
    ((s.writeWord (evqAddr k) lo).writeWord (evqAddr k + 4) hi).evq j = if j = k then hi ++ lo else s.evq j := by
  split_ifs with h
  · subst h
    rw [State.evq, State.readWord_writeWord_self, State.readWord_writeWord_outside _ _ (.inl (Nat.le_refl _)),
      State.readWord_writeWord_self, eventOfWords]
  · have hapart : j + 1 ≤ k ∨ k + 1 ≤ j := by omega
    unfold State.evq evqAddr
    iterate 4 rw [State.readWord_writeWord_outside _ _ (by omega)]

/-- Settles O52: two writes of RAM words, of which the event word is put together. -/
theorem eventWordIsItsTwoRamWords : Obligations.EventWordIsItsTwoRamWords := by
  intro s k lo hi m m' rest idle hk hlo hhi hm
  have hhigh : 0x8004 + 8 * k = evqAddr k + 4 := by unfold evqAddr; omega
  rw [hhigh] at hhi
  have hstep := step_writeEvq idle hk (.inl rfl) hlo hm
  have hstep' := step_writeEvq (s := (s.writeWord (evqAddr k) lo).answered (m' :: rest) 0) idle hk (.inr rfl) hhi rfl
  refine ⟨_, _, hstep, hstep', ?_, fun j hj _ => ?_⟩
  · exact (s.evq_writeWord_writeWord k k lo hi).trans (if_pos rfl)
  · exact (s.evq_writeWord_writeWord k j lo hi).trans (if_neg hj)

/-! ### While `BUSY` = 1 -/

/-- What stands at the other registers, in the voice window and in the RAMs may not be read while `BUSY` = 1 (R57). -/
theorem not_readableBusy {c : Config} {a : Nat} {e : Elem} (hat : e.StandsAt c a)
    (h : a = 0x0000 ∨ (0x0008 ≤ a ∧ a < 0x001C) ∨ (0x1000 ≤ a ∧ a < 0x1400) ∨ 0x8000 ≤ a) :
    e.readableBusy = false := by
  have hL := c.L_range
  by_contra hread
  cases e <;> simp only [Elem.StandsAt, Elem.readableBusy, not_true_eq_false] at hat hread <;> omega

/-- Settles O53: a write is refused for `BUSY` alone, a read unless its element is one of R57's. -/
theorem busyRefusesTheHost : Obligations.BusyRefusesTheHost := by
  intro s off v width rest busy
  refine ⟨fun hm => step_write_refused hm (.inl busy), fun hm => ?_⟩
  have hreg {o : Word} (e : Elem) (ht : target s.cfg o 4 = some e) (hread : e.readableBusy = true) (h : off = o) :
      step s = .next (s.answered rest (s.readElem e)) :=
    step_read hm (h ▸ ht) (.inr hread)
  refine ⟨hreg .status rfl rfl, hreg .tlen rfl rfl, hreg .nvoice rfl rfl, hreg .maxch rfl rfl, hreg .maxblen rfl rfl,
    hreg .maxev rfl rfl, fun _ _ => step_read_table hm, fun _ _ => step_read_freq hm, fun hoff => ?_⟩
  refine step_read_refused hm fun e he => ⟨busy, ?_⟩
  obtain ⟨-, -, hat⟩ := target_eq_some.1 he
  exact not_readableBusy hat hoff

/-- What may be read while `BUSY` = 1 is the configuration and the `STATUS` word (R57). -/
theorem State.readElem_busy {s s' : State} {e : Elem} (hread : e.readableBusy = true) (hc : s.cfg = s'.cfg)
    (hstatus : s.status = s'.status) : s.readElem e = s'.readElem e := by
  cases e <;> simp only [Elem.readableBusy, Bool.false_eq_true] at hread <;> simp only [State.readElem, hc, hstatus]

/-- Settles O54: a write is refused in both states, and a read answers what is alike in both or is refused in both. -/
theorem busyHidesTheCommandsWork : Obligations.BusyHidesTheCommandsWork := by
  intro s s' t t' m rest rest' busy busy' hc hstatus hm hm' hwork hreset ht ht'
  cases m with
  | work => exact absurd rfl hwork
  | reset => exact absurd rfl hreset
  | write off width v =>
    rw [reply_of_refused (step_write_refused (.inl hm) (.inl busy)) ht,
      reply_of_refused (step_write_refused (.inl hm') (.inl busy')) ht']
  | post off width v =>
    rw [reply_of_refused (step_write_refused (.inr hm) (.inl busy)) ht,
      reply_of_refused (step_write_refused (.inr hm') (.inl busy')) ht']
  | read off width =>
    by_cases hread : ∃ e, target s.cfg off width = some e ∧ e.readableBusy = true
    · obtain ⟨e, he, hread⟩ := hread
      rw [reply_of_answered (step_read hm he (.inr hread)) ht,
        reply_of_answered (step_read hm' (hc ▸ he) (.inr hread)) ht', State.readElem_busy hread hc hstatus]
    · have hno (e : Elem) (he : target s.cfg off width = some e) : e.readableBusy = false := by
        simpa using fun h => hread ⟨e, he, h⟩
      rw [reply_of_refused (step_read_refused hm fun e he => ⟨busy, hno e he⟩) ht,
        reply_of_refused (step_read_refused hm' fun e he => ⟨busy', hno e (hc ▸ he)⟩) ht']

end Sys2Proof.Machine
end

section
/-! The work of a command unit by unit (O57) and what a `RENDER` leaves alone (O34). `State.work` is one unit of the
sequencer's work as a function; a command written is its posted form followed by its units, and a unit does not see the
moves to come. -/

namespace Sys2Proof.Machine

/-! ### One unit of work -/

/-- The unit of the event at K: its fault, or one turn of the loop of R162. -/
def State.eventWork (s : State) : State :=
  match eventFault s.blen.toNat s.cur (s.evq s.k) with
  | some c => s.raiseFault c s.k
  | none => s.turn

/-- One unit of the sequencer's work, by the state it leaves. -/
def State.work (s : State) : State :=
  match s.mode with
  | .idle => s
  | .preparing => s.prepare
  | .validating => s.beginRender
  | .rendering => if s.k < s.nev.toNat then s.eventWork else s.endRender

theorem State.eventUnit_eq (s : State) : s.eventUnit exec = .next s.eventWork := by
  unfold State.eventWork
  cases hf : eventFault s.blen.toNat s.cur (s.evq s.k) with
  | some c => simp [State.eventUnit, State.eventAt, hf]
  | none => rw [← State.eventUnit_apply, State.eventUnit_of_legal s _ rfl hf]; rfl

theorem State.unit_eq (s : State) : s.unit = .next s.work := by
  unfold State.unit State.work
  cases s.mode with
  | idle => rfl
  | preparing => rfl
  | validating => rfl
  | rendering =>
    simp only [State.eventUnit_eq]
    split <;> rfl

theorem State.work_of_idle {s : State} (h : s.mode = .idle) : s.work = s := by
  rw [State.work, h]

theorem State.work_of_preparing {s : State} (h : s.mode = .preparing) : s.work = s.prepare := by
  rw [State.work, h]

theorem State.work_of_validating {s : State} (h : s.mode = .validating) : s.work = s.beginRender := by
  rw [State.work, h]

theorem State.work_of_event {s : State} (h : s.mode = .rendering) (hk : s.k < s.nev.toNat) :
    s.work = s.eventWork := by
  rw [State.work, h]
  exact if_pos hk

theorem State.work_of_end {s : State} (h : s.mode = .rendering) (hk : ¬s.k < s.nev.toNat) :
    s.work = s.endRender := by
  rw [State.work, h]
  exact if_neg hk

theorem State.prepare_mode (s : State) : s.prepare.mode = .idle := by
  cases hr : sampleRateLegal s.sr with
  | true => rw [State.prepare_legal hr]
  | false => rw [State.prepare_illegal hr, State.raiseFault_mode]

theorem State.work_iterate_of_idle {s : State} (idle : s.mode = .idle) (n : Nat) : State.work^[n] s = s :=
  Function.iterate_fixed (State.work_of_idle idle) n

/-- The execution pass with as many turns left as it has events is that many units of work and the last one. -/
theorem State.executeFrom_eq_work {s : State} {count : Nat} (rendering : s.mode = .rendering)
    (hk : s.k + count = s.nev.toNat) : s.executeFrom count = .next (State.work^[count + 1] s) := by
  induction count generalizing s with
  | zero =>
    rw [Function.iterate_one, State.work_of_end rendering (by omega), State.executeFrom, if_pos rendering]
  | succ count ih =>
    have hmore : s.k < s.nev.toNat := by omega
    rw [Function.iterate_succ_apply, State.work_of_event rendering hmore]
    simp only [State.executeFrom, rendering, if_true, State.eventUnit_apply, State.eventUnit_eq]
    rcases (eventUnit_substeps rendering hmore s.eventUnit_eq).2 with idle | ⟨hmode, hk', hnev⟩
    · rw [State.executeFrom_idle idle, State.work_iterate_of_idle idle]
    · exact ih hmode (by rw [hk', hnev]; omega)

/-- A `RENDER` with no fault held is its beginning, a unit for each event, and the last sub-range. -/
theorem execRender_eq_work {s : State} (noFault : s.fault = false) (g : BitVec 24) :
    execRender g s = .next (State.work^[s.nev.toNat + 1] s.beginRender) := by
  unfold execRender
  rw [noFault]
  rcases s.beginRender_cases with ⟨c, i, -, heq, -⟩ | ⟨-, -, -, heq⟩ <;> rw [heq]
  · have idle := State.raiseFault_mode s c i
    rw [State.work_iterate_of_idle idle]
    exact State.executeFrom_idle idle _
  · exact State.executeFrom_eq_work (s := s.seqAt .rendering 0 0) rfl (Nat.zero_add _)

/-! ### What a `RENDER` leaves alone -/

/-- What a `RENDER` of the block of s may have changed: the fault record, the sequencer, the voices, and the bytes of the
block's frames (R58). -/
structure BlockOnly (s t : State) : Prop where
  frame : t = { s with fault := t.fault, cause := t.cause, findex := t.findex, mode := t.mode, k := t.k, cur := t.cur,
                       voices := t.voices, mem := t.mem }
  bytes : ∀ x, (∀ c f, c < s.nch.toNat → f < s.blen.toNat → x < bufAddr s.cfg c f ∨ bufAddr s.cfg c f + 4 ≤ x) →
    t.readByte x = s.readByte x

theorem BlockOnly.cfg {s t : State} (h : BlockOnly s t) : t.cfg = s.cfg := by rw [h.frame]

theorem BlockOnly.nch {s t : State} (h : BlockOnly s t) : t.nch = s.nch := by rw [h.frame]

theorem BlockOnly.blen {s t : State} (h : BlockOnly s t) : t.blen = s.blen := by rw [h.frame]

theorem BlockOnly.trans {s t u : State} (h : BlockOnly s t) (h' : BlockOnly t u) : BlockOnly s u where
  frame := by
    rw [h'.frame, h.frame]
  bytes x hx := by
    rw [h'.bytes x (by rw [h.cfg, h.nch, h.blen]; exact hx), h.bytes x hx]

/-- A change that leaves the RAM contents alone. -/
theorem BlockOnly.of_mem {s t : State} (hm : t.mem = s.mem)
    (frame : t = { s with fault := t.fault, cause := t.cause, findex := t.findex, mode := t.mode, k := t.k,
                          cur := t.cur, voices := t.voices, mem := t.mem }) : BlockOnly s t where
  frame := frame
  bytes _ _ := State.readByte_congr hm (by rw [frame]) _

theorem blockOnly_raiseFault (s : State) (c : Cause) (i : Nat) : BlockOnly s (s.raiseFault c i) :=
  .of_mem (State.raiseFault_mem _ _ _) (by rw [State.raiseFault_frame])

theorem blockOnly_applyWord (s : State) (e : EventWord) : BlockOnly s (s.applyWord e) :=
  .of_mem (State.applyWord_mem _ _) (by
    have h := s.applyWord_soundOnly e
    unfold SoundOnly at h
    rw [h])

/-- A sub-range that ends in the block writes frames of the block. -/
theorem blockOnly_renderRange {s : State} (hch : s.nch.toNat ≠ 0) {a b : Nat} (hb : b ≤ s.blen.toNat) :
    BlockOnly s (s.renderRange a b) where
  frame := by
    have h := s.soundOnly_renderRange a b
    unfold SoundOnly at h
    rw [h]
  bytes x hx := by
    rcases Nat.le_total a b with hab | hba
    · refine s.renderRange_readByte hab fun c f hc _ hf => hx c f ?_ (by omega)
      unfold State.chans at hc
      omega
    · rw [s.renderRange_of_le hba]

/-- A unit of the execution pass renders no frame outside the block, and ends in the pass or in the idle block. -/
theorem blockOnly_work {s : State} (hch : s.nch.toNat ≠ 0) (hm : s.mode = .idle ∨ s.mode = .rendering) :
    BlockOnly s s.work ∧ (s.work.mode = .idle ∨ s.work.mode = .rendering) := by
  rcases hm with idle | rendering
  · rw [State.work_of_idle idle]
    exact ⟨.of_mem rfl rfl, .inl idle⟩
  · by_cases hmore : s.k < s.nev.toNat
    · rw [State.work_of_event rendering hmore]
      refine ⟨?_, (eventUnit_substeps rendering hmore s.eventUnit_eq).2.imp id And.left⟩
      unfold State.eventWork
      cases hf : eventFault s.blen.toNat s.cur (s.evq s.k) with
      | some c => exact blockOnly_raiseFault _ _ _
      | none =>
        obtain ⟨-, inBlock, -, -⟩ := eventFault_none.1 hf
        exact ((blockOnly_renderRange hch inBlock).trans (blockOnly_applyWord _ _)).trans (.of_mem rfl rfl)
    · rw [State.work_of_end rendering hmore]
      exact ⟨(blockOnly_renderRange hch (Nat.le_refl _)).trans (.of_mem rfl rfl), .inl rfl⟩

/-- The execution pass leaves all but its block alone. -/
theorem blockOnly_work_iterate {s : State} (hch : s.nch.toNat ≠ 0) (hm : s.mode = .idle ∨ s.mode = .rendering)
    (n : Nat) : BlockOnly s (State.work^[n] s) := by
  suffices h : BlockOnly s (State.work^[n] s)
      ∧ ((State.work^[n] s).mode = .idle ∨ (State.work^[n] s).mode = .rendering) from h.1
  induction n with
  | zero => exact ⟨.of_mem rfl rfl, hm⟩
  | succ n ih =>
    rw [Function.iterate_succ_apply']
    obtain ⟨hkept, hmode⟩ := ih
    obtain ⟨hunit, hmode'⟩ := blockOnly_work (by rw [hkept.nch]; exact hch) hmode
    exact ⟨hkept.trans hunit, hmode'⟩

theorem blockOnly_execRender {s t : State} {g : BitVec 24} (h : execRender g s = .next t) : BlockOnly s t := by
  cases hf : s.fault with
  | true =>
    simp only [execRender, hf, if_true] at h
    cases h
    exact .of_mem rfl rfl
  | false =>
    rw [execRender_eq_work hf] at h
    cases h
    rcases s.beginRender_cases with ⟨c, i, -, heq, -⟩ | ⟨-, legal, -, heq⟩ <;> rw [heq]
    · rw [State.work_iterate_of_idle (State.raiseFault_mode _ _ _)]
      exact blockOnly_raiseFault _ _ _
    · simp only [State.blockLegal, Bool.and_eq_true, decide_eq_true_eq] at legal
      obtain ⟨⟨⟨hch, -⟩, -⟩, -⟩ := legal
      have hbegin : BlockOnly s (s.seqAt .rendering 0 0) := .of_mem rfl rfl
      exact hbegin.trans (blockOnly_work_iterate (s := s.seqAt .rendering 0 0) hch (.inr rfl) _)

/-- The event window lies below every frame of the buffer (R52). -/
theorem BlockOnly.evq {s t : State} (h : BlockOnly s t) {k : Nat} (hk : k < s.cfg.maxEv) : t.evq k = s.evq k := by
  have hev := s.cfg.maxEv_range
  have hbelow (x : Nat) (hx : x < 0x100000) : t.readByte x = s.readByte x :=
    h.bytes x fun c f _ _ => .inl (by unfold bufAddr; omega)
  simp only [State.evq, State.readWord, evqAddr]
  rw [hbelow, hbelow, hbelow, hbelow, hbelow, hbelow, hbelow, hbelow] <;> omega

/-- Settles O34: the checks write the fault record alone, and every unit of the execution pass stays in its block. -/
theorem renderWritesOnlyItsBlock : Obligations.RenderWritesOnlyItsBlock := by
  intro s t g h
  have hblock : BlockOnly s t := blockOnly_execRender (g := g) h
  exact ⟨hblock.frame, hblock.bytes, fun _ => hblock.evq⟩

/-! ### A unit does not see the moves to come -/

/-- The state with other moves to come. -/
def State.withMoves (s : State) (m : List Move) : State := { s with moves := m }

/-- The state in another MODE and with other moves to come. -/
def State.withModeMoves (s : State) (md : Mode) (m : List Move) : State := { s with mode := md, moves := m }

theorem State.raiseFault_withModeMoves (s : State) (md : Mode) (m : List Move) (c : Cause) (i : Nat) :
    (s.withModeMoves md m).raiseFault c i = (s.raiseFault c i).withMoves m := by
  cases hf : s.fault with
  | true => rw [State.raiseFault_held hf, State.raiseFault_held (s := s.withModeMoves md m) hf]; rfl
  | false => rw [State.raiseFault_first hf, State.raiseFault_first (s := s.withModeMoves md m) hf]; rfl

/-- `PREPARE` sees neither MODE nor the moves. -/
theorem State.prepare_withModeMoves (s : State) (md : Mode) (m : List Move) :
    (s.withModeMoves md m).prepare = s.prepare.withMoves m := by
  cases hr : sampleRateLegal s.sr with
  | true => rw [State.prepare_legal hr, State.prepare_legal (s := s.withModeMoves md m) hr]; rfl
  | false =>
    rw [State.prepare_illegal hr, State.prepare_illegal (s := s.withModeMoves md m) hr,
      State.raiseFault_withModeMoves]

/-- The validation pass reads the event RAM and `BLEN` alone. -/
theorem State.validateFrom_congr {s t : State} (hm : s.mem = t.mem) (he : s.epoch = t.epoch) (hb : s.blen = t.blen)
    (count k prev : Nat) : s.validateFrom count k prev = t.validateFrom count k prev := by
  induction count generalizing k prev with
  | zero => rfl
  | succ count ih => simp only [State.validateFrom, State.evq_congr hm he, hb, ih]

/-- The beginning of a `RENDER` sees neither MODE nor the moves. -/
theorem State.beginRender_withModeMoves (s : State) (md : Mode) (m : List Move) :
    (s.withModeMoves md m).beginRender = s.beginRender.withMoves m := by
  have hvalidate : (s.withModeMoves md m).validate = s.validate :=
    State.validateFrom_congr (s := s.withModeMoves md m) (t := s) rfl rfl rfl _ _ _
  have hprepared : (s.withModeMoves md m).prepared = s.prepared := rfl
  have hlegal : (s.withModeMoves md m).blockLegal = s.blockLegal := rfl
  simp only [State.beginRender, hvalidate, hprepared, hlegal, State.raiseFault_withModeMoves]
  split
  · rfl
  · split
    · rfl
    · split <;> rfl

theorem State.prepare_inMode (s : State) (md : Mode) : (s.withModeMoves md s.moves).prepare = s.prepare :=
  (s.prepare_withModeMoves md s.moves).trans (s.prepare_withModeMoves s.mode s.moves).symm

theorem State.beginRender_inMode (s : State) (md : Mode) :
    (s.withModeMoves md s.moves).beginRender = s.beginRender :=
  (s.beginRender_withModeMoves md s.moves).trans (s.beginRender_withModeMoves s.mode s.moves).symm

theorem State.renderRange_withMoves (s : State) (m : List Move) (a b : Nat) :
    (s.withMoves m).renderRange a b = (s.renderRange a b).withMoves m := by
  rcases Nat.le_total a b with h | h
  · exact s.renderRange_moves m h
  · rw [State.renderRange_of_le _ h, State.renderRange_of_le _ h]

theorem State.applyWord_withMoves (s : State) (m : List Move) (e : EventWord) :
    (s.withMoves m).applyWord e = (s.applyWord e).withMoves m := by
  unfold State.applyWord
  split
  · split <;> rfl
  · split
    · split <;> rfl
    · rw [State.stopAll_eq, State.stopAll_eq]; rfl

theorem State.turn_withMoves (s : State) (m : List Move) : (s.withMoves m).turn = s.turn.withMoves m := by
  have hevent : (s.withMoves m).evq (s.withMoves m).k = s.evq s.k := State.evq_congr rfl rfl _
  unfold State.turn
  rw [hevent, State.renderRange_withMoves, State.applyWord_withMoves]
  rfl

theorem State.eventWork_withMoves (s : State) (m : List Move) :
    (s.withMoves m).eventWork = s.eventWork.withMoves m := by
  have hevent : (s.withMoves m).evq (s.withMoves m).k = s.evq s.k := State.evq_congr rfl rfl _
  have hcheck : eventFault (s.withMoves m).blen.toNat (s.withMoves m).cur (s.evq s.k)
      = eventFault s.blen.toNat s.cur (s.evq s.k) := rfl
  unfold State.eventWork
  rw [hevent, hcheck]
  cases eventFault s.blen.toNat s.cur (s.evq s.k) with
  | some c => exact s.raiseFault_withModeMoves s.mode m c s.k
  | none => exact s.turn_withMoves m

theorem State.work_withMoves (s : State) (m : List Move) : (s.withMoves m).work = s.work.withMoves m := by
  cases hmode : s.mode with
  | idle => rw [State.work_of_idle hmode, State.work_of_idle (s := s.withMoves m) hmode]
  | preparing =>
    rw [State.work_of_preparing hmode, State.work_of_preparing (s := s.withMoves m) hmode]
    exact s.prepare_withModeMoves s.mode m
  | validating =>
    rw [State.work_of_validating hmode, State.work_of_validating (s := s.withMoves m) hmode]
    exact s.beginRender_withModeMoves s.mode m
  | rendering =>
    by_cases hk : s.k < s.nev.toNat
    · rw [State.work_of_event hmode hk, State.work_of_event (s := s.withMoves m) hmode hk, State.eventWork_withMoves]
    · rw [State.work_of_end hmode hk, State.work_of_end (s := s.withMoves m) hmode hk]
      exact congrArg State.complete (s.renderRange_withMoves m _ _)

/-! ### Runs -/

theorem core_run_succ {s t : State} (h : step s = .next t) (n : Nat) :
    Sys2Proof.core.run (n + 1) s = Sys2Proof.core.run n t := by
  have hstep : Sys2Proof.core.step s = .next t := h
  simp only [Host.Core.run, hstep]

/-- A run over `work` moves is that many units of work. -/
theorem core_run_work (n : Nat) (s : State) (rest : List Move) :
    Sys2Proof.core.run n (s.withMoves (List.replicate n .work ++ rest))
      = .next (State.work^[n] (s.withMoves rest)) := by
  induction n generalizing s with
  | zero => rfl
  | succ n ih =>
    have hstep : step (s.withMoves (List.replicate (n + 1) .work ++ rest))
        = .next (s.work.withMoves (List.replicate n .work ++ rest)) := by
      show (s.withMoves (List.replicate n .work ++ rest)).unit = _
      rw [State.unit_eq, State.work_withMoves]
    rw [core_run_succ hstep, ih, Function.iterate_succ_apply, State.work_withMoves]

/-- A `CMD` write to the idle block starts its command (R81). -/
theorem step_cmd {s : State} (idle : s.mode = .idle) (rest : List Move) (v : Word) :
    step (s.withMoves (.write offCmd 4 v :: rest)) = runCommand v (s.answered rest 0)
      ∧ step (s.withMoves (.post offCmd 4 v :: rest)) = postCommand v (s.answered rest 0) := by
  have hstart (start : Word → State → Host.Outcome State Fault Refusal) :
      (s.withMoves rest).hostWrite start offCmd 4 v = start v (s.answered rest 0) := by
    simp [State.hostWrite, State.busy, idle, State.answer, State.answered, State.withMoves]
  exact ⟨hstart runCommand, hstart postCommand⟩

/-- Posting a command leaves a state whose units of work, with no other move among them, are the command carried out
whole (R63). -/
theorem exists_posted {s : State} (idle : s.mode = .idle) (v : Word) :
    ∃ p : State, (∀ m, postCommand v (s.withMoves m) = .next (p.withMoves m))
      ∧ runCommand v s = .next (State.work^[s.nev.toNat + 2] (p.withMoves s.moves)) := by
  unfold postCommand runCommand
  cases hd : decodeCmd v with
  | error e =>
    have hraise (m : List Move) : (s.withMoves m).raiseFault .illegalCommand 0 = _ :=
      s.raiseFault_withModeMoves s.mode m .illegalCommand 0
    refine ⟨s.raiseFault .illegalCommand 0, fun m => congrArg _ (hraise m), ?_⟩
    rw [← hraise, State.work_iterate_of_idle (State.raiseFault_mode _ _ _)]
    rfl
  | ok i =>
    rcases decodeCmd_ok hd with ⟨g, rfl⟩ | ⟨g, rfl⟩
    · refine ⟨s.withModeMoves .preparing s.moves, fun m => rfl, ?_⟩
      have hunit : (s.withModeMoves .preparing s.moves).work = s.prepare :=
        (State.work_of_preparing rfl).trans (s.prepare_inMode _)
      show _ = Host.Outcome.next (State.work^[_] (s.withModeMoves .preparing s.moves))
      rw [Function.iterate_succ_apply, hunit, State.work_iterate_of_idle s.prepare_mode]
      rfl
    · cases hf : s.fault with
      | true =>
        refine ⟨s, fun m => congrArg _ (if_pos hf), ?_⟩
        show _ = Host.Outcome.next (State.work^[_] s)
        rw [State.work_iterate_of_idle idle]
        exact if_pos hf
      | false =>
        have hnot (m : List Move) : ¬(s.withMoves m).fault = true := by simp [State.withMoves, hf]
        have hunit : (s.withModeMoves .validating s.moves).work = s.beginRender :=
          (State.work_of_validating rfl).trans (s.beginRender_inMode _)
        refine ⟨s.withModeMoves .validating s.moves, fun m => congrArg _ (if_neg (hnot m)), ?_⟩
        show _ = Host.Outcome.next (State.work^[_] (s.withModeMoves .validating s.moves))
        rw [Function.iterate_succ_apply, hunit]
        exact execRender_eq_work hf g

/-- Settles O57: the posted command's units are the written command, and none of them sees the moves that separate
them. -/
theorem postedCommandEqualsWrittenCommand : Obligations.PostedCommandEqualsWrittenCommand := by
  intro s v rest idle
  obtain ⟨p, hpost, hrun⟩ := exists_posted (s := s.answered rest 0) idle v
  have hfirst : step (s.withMoves (.post offCmd 4 v :: (List.replicate (s.nev.toNat + 2) .work ++ rest)))
      = .next (p.withMoves (List.replicate (s.nev.toNat + 2) .work ++ rest)) :=
    (step_cmd idle _ v).2.trans (hpost _)
  have hwritten : step (s.withMoves (.write offCmd 4 v :: rest)) = runCommand v (s.answered rest 0) :=
    (step_cmd idle rest v).1
  exact (core_run_succ hfirst _).trans ((core_run_work _ p rest).trans (hwritten.trans hrun).symm)

end Sys2Proof.Machine
end

section
/-! Encoding and decoding (O1 to O6): the fields of an assembled word, the word put together from its fields, and the
decoders on both. -/

namespace Sys2Proof.Machine

open BitVec (extractLsb'_append_eq_right extractLsb'_append_eq_left extractLsb'_append_eq_of_le
  extractLsb'_append_extractLsb'_eq_extractLsb' extractLsb'_extractLsb'_of_le extractLsb'_eq_self)

/-! ### Words and bytes -/

@[simp] theorem eventLow_eventOfWords (lo hi : Word) : eventLow (eventOfWords lo hi) = lo :=
  extractLsb'_append_eq_right

@[simp] theorem eventHigh_eventOfWords (lo hi : Word) : eventHigh (eventOfWords lo hi) = hi :=
  extractLsb'_append_eq_left

@[simp] theorem eventOfWords_low_high (e : EventWord) : eventOfWords (eventLow e) (eventHigh e) = e :=
  (extractLsb'_append_extractLsb'_eq_extractLsb' rfl).trans extractLsb'_eq_self

section
variable (b0 b1 b2 b3 : Byte)

@[simp] theorem byteOf_wordOfBytes_zero : byteOf (wordOfBytes b0 b1 b2 b3) 0 = b0 := extractLsb'_append_eq_right

@[simp] theorem byteOf_wordOfBytes_one : byteOf (wordOfBytes b0 b1 b2 b3) 1 = b1 :=
  (extractLsb'_append_eq_of_le (by decide)).trans extractLsb'_append_eq_right

@[simp] theorem byteOf_wordOfBytes_two : byteOf (wordOfBytes b0 b1 b2 b3) 2 = b2 :=
  ((extractLsb'_append_eq_of_le (by decide)).trans (extractLsb'_append_eq_of_le (by decide))).trans
    extractLsb'_append_eq_right

@[simp] theorem byteOf_wordOfBytes_three : byteOf (wordOfBytes b0 b1 b2 b3) 3 = b3 :=
  ((extractLsb'_append_eq_of_le (by decide)).trans (extractLsb'_append_eq_of_le (by decide))).trans
    extractLsb'_append_eq_left

@[simp] theorem wordBytes_wordOfBytes : wordBytes (wordOfBytes b0 b1 b2 b3) = [b0, b1, b2, b3] := by
  simp only [wordBytes, byteOf_wordOfBytes_zero, byteOf_wordOfBytes_one, byteOf_wordOfBytes_two,
    byteOf_wordOfBytes_three]

end

theorem eventBytes_eventOfWords (lo hi : Word) : eventBytes (eventOfWords lo hi) = wordBytes lo ++ wordBytes hi := by
  rw [eventBytes, eventLow_eventOfWords, eventHigh_eventOfWords]

/-! ### Fields -/

@[simp] theorem cmdOp_cmdWord (op : BitVec 8) (ign : BitVec 24) : cmdOp (cmdWord op ign) = op :=
  extractLsb'_append_eq_right

@[simp] theorem cmdIgnored_cmdWord (op : BitVec 8) (ign : BitVec 24) : cmdIgnored (cmdWord op ign) = ign :=
  extractLsb'_append_eq_left

@[simp] theorem cmdWord_fields (v : Word) : cmdWord (cmdOp v) (cmdIgnored v) = v :=
  (extractLsb'_append_extractLsb'_eq_extractLsb' rfl).trans extractLsb'_eq_self

/-! The fields in bits [31:0] of an event word are the bytes of its low half (R82). -/

theorem evType_eq_byteOf (e : EventWord) : evType e = byteOf (eventLow e) 0 :=
  (extractLsb'_extractLsb'_of_le (by decide)).symm

theorem evNote_eq_byteOf (e : EventWord) : evNote e = byteOf (eventLow e) 1 :=
  (extractLsb'_extractLsb'_of_le (by decide)).symm

theorem evVel_eq_byteOf (e : EventWord) : evVel e = byteOf (eventLow e) 2 :=
  (extractLsb'_extractLsb'_of_le (by decide)).symm

theorem evIgnored_eq_byteOf (e : EventWord) : evIgnored e = byteOf (eventLow e) 3 :=
  (extractLsb'_extractLsb'_of_le (by decide)).symm

section
variable (type note vel ign : BitVec 8) (ts : Word)

/-- The four one-byte fields of an event word are its low half (R82, R59). -/
theorem eventWord_eq_eventOfWords :
    eventWord type note vel ign ts = eventOfWords (wordOfBytes type note vel ign) ts := rfl

@[simp] theorem eventLow_eventWord : eventLow (eventWord type note vel ign ts) = wordOfBytes type note vel ign :=
  eventLow_eventOfWords _ ts

@[simp] theorem evType_eventWord : evType (eventWord type note vel ign ts) = type := by
  rw [evType_eq_byteOf, eventLow_eventWord, byteOf_wordOfBytes_zero]

@[simp] theorem evNote_eventWord : evNote (eventWord type note vel ign ts) = note := by
  rw [evNote_eq_byteOf, eventLow_eventWord, byteOf_wordOfBytes_one]

@[simp] theorem evVel_eventWord : evVel (eventWord type note vel ign ts) = vel := by
  rw [evVel_eq_byteOf, eventLow_eventWord, byteOf_wordOfBytes_two]

@[simp] theorem evIgnored_eventWord : evIgnored (eventWord type note vel ign ts) = ign := by
  rw [evIgnored_eq_byteOf, eventLow_eventWord, byteOf_wordOfBytes_three]

@[simp] theorem evTs_eventWord : evTs (eventWord type note vel ign ts) = ts := extractLsb'_append_eq_left

end

@[simp] theorem eventWord_fields (e : EventWord) :
    eventWord (evType e) (evNote e) (evVel e) (evIgnored e) (evTs e) = e := by
  rw [evType_eq_byteOf, evNote_eq_byteOf, evVel_eq_byteOf, evIgnored_eq_byteOf]
  rw [eventWord_eq_eventOfWords, wordOfBytes_byteOf]
  exact eventOfWords_low_high e

/-! ### The decoders -/

@[simp] theorem decodeBytes_wordBytes (v : Word) : decodeBytes (wordBytes v) = decodeCmd v :=
  congrArg decodeCmd (wordOfBytes_byteOf v)

@[simp] theorem decodeBytes_eventBytes (e : EventWord) : decodeBytes (eventBytes e) = decodeEvent e := by
  show decodeEvent (eventOfWords (wordOfBytes _ _ _ _) (wordOfBytes _ _ _ _)) = _
  rw [wordOfBytes_byteOf, wordOfBytes_byteOf, eventOfWords_low_high]

/-- The command map of R80, on an assembled word. -/
theorem decodeCmd_cmdWord (op : BitVec 8) (ign : BitVec 24) :
    decodeCmd (cmdWord op ign) =
      if op = 0x01#8 then .ok (.prepare ign) else if op = 0x02#8 then .ok (.render ign)
      else .error (.illegalCommand op) := by
  simp only [decodeCmd, cmdOp_cmdWord, cmdIgnored_cmdWord]

/-- The event map of R84, on an assembled word. -/
theorem decodeEvent_eventWord (type note vel ign : BitVec 8) (ts : Word) :
    decodeEvent (eventWord type note vel ign ts) =
      if type = 0x01#8 then .ok (.noteOn note vel ign ts) else if type = 0x02#8 then .ok (.noteOff note vel ign ts)
      else if type = 0x03#8 then .ok (.allNotesOff note vel ign ts) else .error (.illegalEvent type) := by
  simp only [decodeEvent, evType_eventWord, evNote_eventWord, evVel_eventWord, evIgnored_eventWord, evTs_eventWord]

/-- A `CMD` value that decodes is the encoding of its command. -/
theorem encode_of_decodeCmd {v : Word} {i : Instr} (h : decodeCmd v = .ok i) : encode i = wordBytes v := by
  rw [← cmdWord_fields v, decodeCmd_cmdWord] at h
  rw [← cmdWord_fields v]
  split_ifs at h with h1 h2 <;> cases h
  · rw [h1, encode]
  · rw [h2, encode]

/-- An event word that decodes is the encoding of its event. -/
theorem encode_of_decodeEvent {e : EventWord} {i : Instr} (h : decodeEvent e = .ok i) : encode i = eventBytes e := by
  rw [← eventWord_fields e, decodeEvent_eventWord] at h
  rw [← eventWord_fields e]
  split_ifs at h with h1 h2 h3 <;> cases h
  · rw [h1, encode]
  · rw [h2, encode]
  · rw [h3, encode]

/-- Settles O1: the bytes give the word back, and the decoder reads the word by its fields. -/
theorem decodeOfEncodeIsIdentity : Obligations.DecodeOfEncodeIsIdentity := by
  intro i
  cases i with
  | noteOn note vel ign ts => rw [encode, decodeBytes_eventBytes, decodeEvent_eventWord]; rfl
  | noteOff note vel ign ts => rw [encode, decodeBytes_eventBytes, decodeEvent_eventWord]; rfl
  | allNotesOff note vel ign ts => rw [encode, decodeBytes_eventBytes, decodeEvent_eventWord]; rfl
  | prepare ign => rw [encode, decodeBytes_wordBytes, decodeCmd_cmdWord]; rfl
  | render ign => rw [encode, decodeBytes_wordBytes, decodeCmd_cmdWord]; rfl

/-- Settles O2: only four and eight bytes decode, and they are the bytes of the word they form. -/
theorem encodeOfDecodeIsIdentity : Obligations.EncodeOfDecodeIsIdentity := by
  intro bytes i h
  unfold decodeBytes at h
  split at h
  · rw [encode_of_decodeCmd h, wordBytes_wordOfBytes]
  · rw [encode_of_decodeEvent h, eventBytes_eventOfWords, wordBytes_wordOfBytes, wordBytes_wordOfBytes]
    rfl
  · cases h

/-- Settles O3: an opcode is one of its map's, and gives its instruction, or is none of them and is refused. -/
theorem decodersRefuseExactlyIllegalOpcodes : Obligations.DecodersRefuseExactlyIllegalOpcodes := by
  constructor
  · intro op ign
    rw [decodeCmd_cmdWord]
    by_cases h1 : op = 0x01#8
    · exact .inl ⟨h1, if_pos h1⟩
    · by_cases h2 : op = 0x02#8
      · exact .inr (.inl ⟨h2, by rw [if_neg h1, if_pos h2]⟩)
      · exact .inr (.inr ⟨h1, h2, by rw [if_neg h1, if_neg h2]⟩)
  · intro type note vel ign ts
    rw [decodeEvent_eventWord]
    by_cases h1 : type = 0x01#8
    · exact .inl ⟨h1, if_pos h1⟩
    · by_cases h2 : type = 0x02#8
      · exact .inr (.inl ⟨h2, by rw [if_neg h1, if_pos h2]⟩)
      · by_cases h3 : type = 0x03#8
        · exact .inr (.inr (.inl ⟨h3, by rw [if_neg h1, if_neg h2, if_pos h3]⟩))
        · exact .inr (.inr (.inr ⟨h1, h2, h3, by rw [if_neg h1, if_neg h2, if_neg h3]⟩))

/-- Settles O4: the decoder evaluated on the five words. -/
theorem specWordsDecode : Obligations.SpecWordsDecode := by
  unfold Obligations.SpecWordsDecode
  decide

/-- Settles O5: the per-instruction statements of the frozen laws, one for each constructor. -/
theorem encodingHasItsLengthAndOpcodeByte : Obligations.EncodingHasItsLengthAndOpcodeByte := by
  intro i
  cases i with
  | noteOn note vel ign ts => exact Laws.OpcodeByte.noteOn note vel ign ts
  | noteOff note vel ign ts => exact Laws.OpcodeByte.noteOff note vel ign ts
  | allNotesOff note vel ign ts => exact Laws.OpcodeByte.allNotesOff note vel ign ts
  | prepare ign => exact Laws.OpcodeByte.prepare ign
  | render ign => exact Laws.OpcodeByte.render ign

/-! ### The event assembler -/

/-- A line that does not fit is refused (R89). -/
theorem EventLine.assemble_of_not_fits {l : EventLine} (h : ¬l.fits = true) : l.assemble = none := if_neg h

@[simp] theorem EventLine.fits_noteOn (ts note vel : Nat) :
    (EventLine.noteOn ts note vel).fits = true ↔ ts < 2 ^ 32 ∧ note < 2 ^ 8 ∧ vel < 2 ^ 8 := by
  simp only [EventLine.fits, Bool.and_eq_true, decide_eq_true_eq, and_assoc]

@[simp] theorem EventLine.fits_noteOff (ts note : Nat) :
    (EventLine.noteOff ts note).fits = true ↔ ts < 2 ^ 32 ∧ note < 2 ^ 8 := by
  simp only [EventLine.fits, Bool.and_eq_true, decide_eq_true_eq]

@[simp] theorem EventLine.fits_allNotesOff (ts : Nat) : (EventLine.allNotesOff ts).fits = true ↔ ts < 2 ^ 32 := by
  simp only [EventLine.fits, decide_eq_true_eq]

/-- Settles O6: a line that fits is the `eventWord` of its fields, which the decoder reads back. -/
theorem assembledLineDecodesToItsEvent : Obligations.AssembledLineDecodesToItsEvent := by
  refine ⟨fun ts note vel => ?_, fun ts note => ?_, fun ts => ?_⟩
  · rw [← EventLine.fits_noteOn]
    exact ⟨fun h => ⟨_, if_pos h, decodeEvent_eventWord _ _ _ _ _⟩, EventLine.assemble_of_not_fits⟩
  · rw [← EventLine.fits_noteOff]
    exact ⟨fun h => ⟨_, if_pos h, decodeEvent_eventWord _ _ _ _ _⟩, EventLine.assemble_of_not_fits⟩
  · rw [← EventLine.fits_allNotesOff]
    exact ⟨fun h => ⟨_, if_pos h, decodeEvent_eventWord _ _ _ _ _⟩, EventLine.assemble_of_not_fits⟩

end Sys2Proof.Machine
end

section
/-! The text of an event line (O7): a decimal number reads back as the number, and words set apart by blanks and commas
are the words of the line. -/

namespace Sys2Proof.Machine

/-! ### Decimal numbers -/

theorem digitValue_digitChar {d : Nat} (h : d < 10) : digitValue 10 (digitChar d) = some d := by
  revert d
  decide

theorem isDigit_digitChar {d : Nat} (h : d < 10) : (digitChar d).isDigit = true := by
  revert d
  decide

theorem digitsValue_digitChar_cons {d : Nat} (h : d < 10) (a : Nat) (cs : List Char) :
    digitsValue 10 a (digitChar d :: cs) = digitsValue 10 (a * 10 + d) cs := by
  simp only [digitsValue, digitValue_digitChar h]

/-- The digits of n, read before the digits `acc`, count as n. -/
theorem digitsValue_decimalFrom {fuel n : Nat} (h : n < fuel) (acc : List Char) :
    digitsValue 10 0 (decimalFrom fuel n acc) = digitsValue 10 n acc := by
  induction fuel generalizing n acc with
  | zero => omega
  | succ fuel ih =>
    unfold decimalFrom
    split
    · rename_i hn
      rw [digitsValue_digitChar_cons hn, Nat.zero_mul, Nat.zero_add]
    · rw [ih (by omega), digitsValue_digitChar_cons (Nat.mod_lt _ (by decide)), Nat.div_add_mod']

theorem digitsValue_decimal (n : Nat) : digitsValue 10 0 (decimal n) = some n :=
  digitsValue_decimalFrom (Nat.lt_succ_self n) []

theorem isDigit_of_mem_decimalFrom {fuel n : Nat} {acc : List Char} (hacc : ∀ c ∈ acc, c.isDigit = true) :
    ∀ c ∈ decimalFrom fuel n acc, c.isDigit = true := by
  induction fuel generalizing n acc with
  | zero => exact hacc
  | succ fuel ih =>
    unfold decimalFrom
    split
    · rename_i hn
      exact List.forall_mem_cons.2 ⟨isDigit_digitChar hn, hacc⟩
    · exact ih (List.forall_mem_cons.2 ⟨isDigit_digitChar (Nat.mod_lt _ (by decide)), hacc⟩)

theorem isDigit_of_mem_decimal {n : Nat} {c : Char} (h : c ∈ decimal n) : c.isDigit = true :=
  isDigit_of_mem_decimalFrom (by simp) c h

/-- Digits alone are read as a decimal number: no `x` stands second. -/
theorem readNumber_of_isDigit {w : List Char} (hne : w ≠ []) (h : ∀ c ∈ w, c.isDigit = true) :
    readNumber w = digitsValue 10 0 w := by
  have hx (cs : List Char) : w ≠ '0' :: 'x' :: cs := by
    rintro rfl
    exact absurd (h 'x' (by simp)) (by decide)
  unfold readNumber
  split
  · exact absurd rfl hne
  · exact absurd rfl (hx _)
  · exact absurd rfl (hx _)
  · rfl

@[simp] theorem decimal_ne_nil (n : Nat) : decimal n ≠ [] := by
  intro h
  have hval := digitsValue_decimal n
  rw [h] at hval
  obtain rfl : 0 = n := Option.some.inj hval
  exact absurd h (by decide)

/-- A number written in decimal reads back (R89). -/
@[simp] theorem readNumber_decimal (n : Nat) : readNumber (decimal n) = some n :=
  (readNumber_of_isDigit (decimal_ne_nil n) fun _ => isDigit_of_mem_decimal).trans (digitsValue_decimal n)

/-! ### The words of a line -/

/-- The characters are one word of a line: there are some, and none of them separates words. -/
def IsWord (w : List Char) : Prop := w ≠ [] ∧ ∀ c ∈ w, c ≠ ' ' ∧ c ≠ ','

theorem isWord_decimal (n : Nat) : IsWord (decimal n) := by
  refine ⟨decimal_ne_nil n, fun c hc => ⟨?_, ?_⟩⟩
  all_goals
    rintro rfl
    exact absurd (isDigit_of_mem_decimal hc) (by decide)

theorem isWord_at_decimal (n : Nat) : IsWord ('@' :: decimal n) :=
  ⟨by simp, List.forall_mem_cons.2 ⟨by decide, (isWord_decimal n).2⟩⟩

theorem isWord_noteOn : IsWord "NOTE_ON".toList := ⟨by simp, by simp⟩

theorem isWord_noteOff : IsWord "NOTE_OFF".toList := ⟨by simp, by simp⟩

theorem isWord_allNotesOff : IsWord "ALL_NOTES_OFF".toList := ⟨by simp, by simp⟩

/-- The characters of a word are collected. -/
theorem wordsFrom_append {w : List Char} (h : ∀ c ∈ w, c ≠ ' ' ∧ c ≠ ',') (begun rest : List Char) :
    wordsFrom begun (w ++ rest) = wordsFrom (begun ++ w) rest := by
  induction w generalizing begun with
  | nil => simp
  | cons c cs ih =>
    obtain ⟨⟨hblank, hcomma⟩, hcs⟩ := List.forall_mem_cons.1 h
    rw [List.cons_append, wordsFrom, if_neg hblank, if_neg hcomma, ih hcs, List.append_assoc, List.singleton_append]

theorem lineWords_word {w : List Char} (h : IsWord w) : lineWords w = [w] := by
  have hcollect := wordsFrom_append h.2 [] []
  simpa [lineWords, wordsFrom, endWord, h.1] using hcollect

theorem lineWords_blank (rest : List Char) : lineWords (' ' :: rest) = lineWords rest := rfl

theorem lineWords_word_blank {w : List Char} (h : IsWord w) (rest : List Char) :
    lineWords (w ++ ' ' :: rest) = w :: lineWords rest := by
  simp [lineWords, wordsFrom_append h.2, wordsFrom, endWord, h.1]

theorem lineWords_word_comma {w : List Char} (h : IsWord w) (rest : List Char) :
    lineWords (w ++ ',' :: rest) = w :: [','] :: lineWords rest := by
  simp [lineWords, wordsFrom_append h.2, wordsFrom, endWord, h.1]

theorem lineWords_text_noteOn (ts note vel : Nat) : lineWords (EventLine.noteOn ts note vel).text =
    ['@' :: decimal ts, "NOTE_ON".toList, decimal note, [','], decimal vel] := by
  have htext : (EventLine.noteOn ts note vel).text = ('@' :: decimal ts)
      ++ ' ' :: ("NOTE_ON".toList ++ ' ' :: (decimal note ++ ',' :: ' ' :: decimal vel)) := by
    simp [EventLine.text]
  rw [htext, lineWords_word_blank (isWord_at_decimal ts), lineWords_word_blank isWord_noteOn,
    lineWords_word_comma (isWord_decimal note), lineWords_blank, lineWords_word (isWord_decimal vel)]

theorem lineWords_text_noteOff (ts note : Nat) : lineWords (EventLine.noteOff ts note).text =
    ['@' :: decimal ts, "NOTE_OFF".toList, decimal note] := by
  have htext : (EventLine.noteOff ts note).text = ('@' :: decimal ts)
      ++ ' ' :: ("NOTE_OFF".toList ++ ' ' :: decimal note) := by
    simp [EventLine.text]
  rw [htext, lineWords_word_blank (isWord_at_decimal ts), lineWords_word_blank isWord_noteOff,
    lineWords_word (isWord_decimal note)]

theorem lineWords_text_allNotesOff (ts : Nat) : lineWords (EventLine.allNotesOff ts).text =
    ['@' :: decimal ts, "ALL_NOTES_OFF".toList] := by
  have htext : (EventLine.allNotesOff ts).text = ('@' :: decimal ts) ++ ' ' :: "ALL_NOTES_OFF".toList := by
    simp [EventLine.text]
  rw [htext, lineWords_word_blank (isWord_at_decimal ts), lineWords_word isWord_allNotesOff]

/-- Settles O7: the words of the text are the line's mark, name and numbers, and the numbers read back. -/
theorem eventTextReadsBack : Obligations.EventTextReadsBack := by
  intro l
  cases l with
  | noteOn ts note vel => simp [EventLine.read, lineWords_text_noteOn, readEventWords]
  | noteOff ts note => simp [EventLine.read, lineWords_text_noteOff, readEventWords]
  | allNotesOff ts => simp [EventLine.read, lineWords_text_allNotesOff, readEventWords]

end Sys2Proof.Machine
end

section
/-! What a `CMD` write starts (O26, O27, O56) and the fields no meaning reads (O19): `step_written` and `step_posted`
say which command a move runs, and each statement adds what that command does. -/

namespace Sys2Proof.Machine

/-! ### The ignored fields -/

/-- Settles O19: no meaning reads the field it is given. -/
theorem ignoredFieldsHaveNoEffect : Obligations.IgnoredFieldsHaveNoEffect :=
  ⟨fun _ _ _ _ _ _ _ _ => ⟨rfl, rfl⟩, fun _ _ _ _ _ _ _ _ _ => rfl, fun _ _ _ => ⟨rfl, rfl⟩⟩

/-! ### Written and posted commands -/

section
variable {s : State} {v : Word} {rest : List Move}

/-- A `write` move of `CMD` to the idle block carries the command out (R81). -/
theorem step_written (idle : s.mode = .idle) (hm : s.moves = .write offCmd 4 v :: rest) :
    step s = runCommand v (s.answered rest 0) := by
  have h := (step_cmd idle rest v).1
  rwa [← hm] at h

/-- A `post` move of `CMD` to the idle block starts it (R81). -/
theorem step_posted (idle : s.mode = .idle) (hm : s.moves = .post offCmd 4 v :: rest) :
    step s = postCommand v (s.answered rest 0) := by
  have h := (step_cmd idle rest v).2
  rwa [← hm] at h

theorem decodeCmd_of_render (h : cmdOp v = 0x02#8) : decodeCmd v = .ok (.render (cmdIgnored v)) := by
  simp [decodeCmd, h]

theorem decodeCmd_of_illegal (h1 : cmdOp v ≠ 0x01#8) (h2 : cmdOp v ≠ 0x02#8) :
    decodeCmd v = .error (.illegalCommand (cmdOp v)) := by
  simp [decodeCmd, h1, h2]

/-- An illegal command, written or posted, raises its fault (R81). -/
theorem step_illegal (idle : s.mode = .idle) (h1 : cmdOp v ≠ 0x01#8) (h2 : cmdOp v ≠ 0x02#8)
    (hm : s.moves = .write offCmd 4 v :: rest ∨ s.moves = .post offCmd 4 v :: rest) :
    step s = .next ((s.answered rest 0).raiseFault .illegalCommand 0) := by
  have hd := decodeCmd_of_illegal h1 h2
  rcases hm with hm | hm
  · rw [step_written idle hm, runCommand, hd]
  · rw [step_posted idle hm, postCommand, hd]

/-- A `RENDER`, written or posted, is dropped while a fault is held (R81, R205). -/
theorem step_render_held (idle : s.mode = .idle) (held : s.fault = true) (h2 : cmdOp v = 0x02#8)
    (hm : s.moves = .write offCmd 4 v :: rest ∨ s.moves = .post offCmd 4 v :: rest) :
    step s = .next (s.answered rest 0) := by
  have hd := decodeCmd_of_render h2
  rcases hm with hm | hm
  · rw [step_written idle hm, runCommand, hd]
    exact if_pos held
  · rw [step_posted idle hm, postCommand, hd]
    exact congrArg _ (if_pos held)

end

/-- Settles O56: a written command is `exec` of its instruction, a posted one sets its MODE. -/
theorem stepRunsTheWrittenCommand : Obligations.StepRunsTheWrittenCommand := by
  intro s v rest idle
  refine ⟨fun i hm hd => ?_, fun g hm hd => ?_, fun g hm hd noFault => ?_⟩
  · rw [step_written idle hm, runCommand, hd]
  · rw [step_posted idle hm, postCommand, hd]
  · have hnot : ¬(s.answered rest 0).fault = true := by simp [State.answered, noFault]
    rw [step_posted idle hm, postCommand, hd]
    exact congrArg _ (if_neg hnot)

/-- Settles O26: a `RENDER` is dropped, and a second fault leaves the held one. -/
theorem heldFaultDropsRenderAndIllegalCommands : Obligations.HeldFaultDropsRenderAndIllegalCommands := by
  intro s v rest held idle h1 hm
  by_cases h2 : cmdOp v = 0x02#8
  · exact step_render_held idle held h2 hm
  · have hsame : ({ s.answered rest 0 with mode := .idle } : State) = s.answered rest 0 := by rw [← idle]; rfl
    rw [step_illegal idle h1 h2 hm, State.raiseFault_held (s := s.answered rest 0) held, hsame]

/-- Settles O27: the first fault is recorded over the answered write. -/
theorem illegalCommandFaults : Obligations.IllegalCommandFaults := by
  intro s v rest noFault idle h1 h2 hm
  rw [step_illegal idle h1 h2 hm, State.raiseFault_first (s := s.answered rest 0) noFault]
  rfl

end Sys2Proof.Machine
end

section
/-! The interpolation of R114: its weights, its bound (O39), its table indices (O41) and its value at an integer phase
(O42). The weight w1 is the phase's remainder by 1.0, which is exact; w0 is 1.0 - w1 rounded once, at most half a step
of 1.0's binade above it, so the rounded sum of the two products does not pass 1.0. -/

namespace Sys2Proof.Machine

/-! ### Exact sums -/

@[simp] theorem signBit_fneg32 (w : Word) : signBit (fneg32 w) = !signBit w := by
  simp [signBit, fneg32]

@[simp] theorem expField_fneg32 (w : Word) : expField (fneg32 w) = expField w := by
  simp [expField, fneg32, BitVec.extractLsb'_xor]

@[simp] theorem fracField_fneg32 (w : Word) : fracField (fneg32 w) = fracField w := by
  simp [fracField, fneg32, BitVec.extractLsb'_xor]

@[simp] theorem isFinite_fneg32 (w : Word) : isFinite (fneg32 w) = isFinite w := by simp [isFinite]

@[simp] theorem natAbs_value (w : Word) : (value w).natAbs = units w := by simp [value_eq]

@[simp] theorem value_fneg32 (w : Word) : value (fneg32 w) = -value w := by
  cases h : signBit w <;> simp [value, units, h]

/-- A pattern whose value is not zero is negative exactly under sign bit 1. -/
theorem decide_value_neg {w : Word} (h : value w ≠ 0) : decide (value w < 0) = signBit w := by
  cases hs : signBit w with
  | false => simp [value_of_nonneg hs]
  | true =>
    simp only [value, hs, if_true, decide_eq_true_eq] at h ⊢
    omega

/-- A pattern that is a finite sum's exact value, with its sign where the sum is zero, is the sum. -/
theorem fadd32_exact {a b w : Word} (fa : isFinite a = true) (fb : isFinite b = true) (fw : isFinite w = true)
    (hvalue : value w = value a + value b) (hzero : value w = 0 → signBit w = (signBit a && signBit b)) :
    fadd32 a b = w := by
  rw [fadd32_finite fa fb, ← hvalue, natAbs_value]
  split
  next h0 =>
    have hunits : units w = 0 := by rw [← natAbs_value, h0, Int.natAbs_zero]
    rw [← hzero h0, zeroWord_eq_roundWord, ← hunits, roundWord_units fw]
  next hne =>
    rw [decide_value_neg hne, roundWord_units fw]

/-- A sum of finite patterns is its exact magnitude rounded under some sign. -/
theorem fadd32_eq_roundWord {a b : Word} (fa : isFinite a = true) (fb : isFinite b = true) :
    ∃ neg, fadd32 a b = roundWord neg (value a + value b).natAbs 1 := by
  rw [fadd32_finite fa fb]
  split
  next h0 => exact ⟨_, by rw [zeroWord_eq_roundWord, h0, Int.natAbs_zero]⟩
  next => exact ⟨_, rfl⟩

/-- Of the zeros +0.0 alone has sign bit 0. -/
theorem eq_posZero {w : Word} (hs : signBit w = false) (hz : isZero w = true) : w = posZero :=
  word_ext (hs.trans (by decide)) (((isZero_iff w).1 hz).trans (by decide))

theorem units_one32 : units one32 = 2 ^ 149 := by decide +kernel

/-! ### The weights -/

/-- The phase less its floor is its remainder by 1.0, exactly (R114). -/
theorem fsub32_floor32 {p : Word} (fp : isFinite p = true) (sp : signBit p = false)
    (hlt : units p < 2 ^ 24 * 2 ^ 149) : fsub32 p (f32 (floor32 p)) = fmod32 p one32 := by
  obtain ⟨hmodFin, hmodSign, hmodUnits⟩ := fmod32_finite (b := one32) fp (by decide) (by decide)
  have hfloor : units p / 2 ^ 149 < 2 ^ 24 := Nat.div_lt_of_lt_mul (by rwa [Nat.mul_comm])
  rw [floor32_nonneg fp sp]
  obtain ⟨hiFin, hiSign, hiUnits⟩ := f32_nat hfloor
  refine fadd32_exact fp (by simpa using hiFin) hmodFin ?_ fun _ => by rw [hmodSign, sp]; rfl
  rw [value_fneg32, value_of_nonneg hiSign, value_of_nonneg sp, value_of_nonneg (hmodSign.trans sp), hiUnits, hmodUnits,
    units_one32]
  omega

/-- Rounding a magnitude of at most 1.0 adds at most 2^-24. -/
theorem magUnits_roundMag_le {n : Nat} (hn : n ≤ 2 ^ 149) : magUnits (roundMag n 1) ≤ n + 2 ^ 125 := by
  have hover : n < overflowUnits * 1 := Nat.lt_of_le_of_lt hn (by decide +kernel)
  have hlo := significand_ge (n := n) one_pos
  have hhi := significand_le (n := n) one_pos
  obtain ⟨hdist, -⟩ := roundHalfEven_dist n (scale_pos one_pos (Nat.log2 (n / 1) - 23))
  rw [roundMag_eq_place one_pos hover, magUnits_place hlo hhi]
  have hk : Nat.log2 (n / 1) - 23 ≤ 126 := by
    rcases Nat.eq_zero_or_pos n with rfl | hpos
    · decide
    · have := (Nat.log2_lt (n := n) (k := 150) hpos.ne').2 (by omega)
      rw [Nat.div_one]
      omega
  have hstep : 2 ^ (Nat.log2 (n / 1) - 23) ≤ 2 ^ 126 := Nat.pow_le_pow_right (by decide) hk
  rw [Nat.one_mul] at *
  generalize 2 ^ (Nat.log2 (n / 1) - 23) = step at *
  zify
  omega

/-- The weight w0: 1.0 less a fraction, rounded (R114). -/
theorem fsub32_one32 {w : Word} (fw : isFinite w = true) (sw : signBit w = false) (hw : units w ≤ 2 ^ 149) :
    isFinite (fsub32 one32 w) = true ∧ units (fsub32 one32 w) ≤ 2 ^ 149 - units w + 2 ^ 125 := by
  obtain ⟨neg, hsum⟩ := fadd32_eq_roundWord (a := one32) (b := fneg32 w) (by decide) (by simpa using fw)
  have hmag : (value one32 + value (fneg32 w)).natAbs = 2 ^ 149 - units w := by
    rw [value_fneg32, value_of_nonneg sw, value_of_nonneg (w := one32) (by decide), units_one32]
    omega
  rw [fsub32, hsum, hmag, units_roundWord, isFinite_roundWord]
  exact ⟨roundMag_lt_inf one_pos (Nat.lt_of_le_of_lt (Nat.sub_le _ _) (by decide +kernel)),
    magUnits_roundMag_le (Nat.sub_le _ _)⟩

/-! ### The products and their sum -/

/-- A product by a factor of at most 1.0 does not pass the other factor. -/
theorem units_fmul32_le {a b : Word} (fa : isFinite a = true) (fb : isFinite b = true) (hb : units b ≤ 2 ^ 149) :
    isFinite (fmul32 a b) = true ∧ units (fmul32 a b) ≤ units a := by
  have hmag := (isFinite_iff a).1 fa
  have hround : roundMag (units a * units b) (2 ^ 149) ≤ magBits a := by
    refine roundMag_le_of_le (Nat.two_pow_pos 149) hmag.le ?_
    rw [← units_eq]
    exact Nat.mul_le_mul_left _ hb
  rw [fmul32_finite fa fb, isFinite_roundWord, units_roundWord]
  exact ⟨hround.trans_lt hmag, (magUnits_strictMono.monotone hround).trans_eq (units_eq a).symm⟩

/-- A sum that passes 1.0 by at most half a step is rounded to at most 1.0. -/
theorem fadd32_le_one {a b : Word} (fa : isFinite a = true) (fb : isFinite b = true)
    (h : units a + units b ≤ 2 ^ 149 + 2 ^ 125) :
    isFinite (fadd32 a b) = true ∧ units (fadd32 a b) ≤ units one32 := by
  obtain ⟨neg, hsum⟩ := fadd32_eq_roundWord fa fb
  have hmag : (value a + value b).natAbs ≤ 2 ^ 149 + 2 ^ 125 := by
    rw [← natAbs_value a, ← natAbs_value b] at h
    exact (Int.natAbs_add_le _ _).trans h
  have hround : roundMag (value a + value b).natAbs 1 ≤ magBits one32 :=
    calc roundMag (value a + value b).natAbs 1 ≤ roundMag (2 ^ 149 + 2 ^ 125) 1 :=
          roundMag_mono one_pos one_pos (by omega)
      _ = magBits one32 := by decide +kernel
  rw [hsum, isFinite_roundWord, units_roundWord, units_eq one32]
  exact ⟨hround.trans_lt (by decide), magUnits_strictMono.monotone hround⟩

/-- A product by 1.0 is the other factor. -/
theorem fmul32_one32 {y : Word} (fy : isFinite y = true) : fmul32 one32 y = y := by
  have hy := (isFinite_iff y).1 fy
  have hround : roundMag (units one32 * units y) (2 ^ 149) = magBits y := by
    rw [units_one32, Nat.mul_comm, units_eq]
    exact Nat.le_antisymm (roundMag_le_of_le (Nat.two_pow_pos 149) hy.le (Nat.le_refl _))
      (le_roundMag_of_le (Nat.two_pow_pos 149) hy.le (Nat.le_refl _))
  refine word_ext ?_ ?_ <;> rw [fmul32_finite (by decide) fy]
  · rw [signBit_roundWord, show signBit one32 = false by decide, Bool.false_bne]
  · rw [magBits_roundWord, hround]

/-- A product by +0.0 is a zero. -/
theorem fmul32_posZero {y : Word} (fy : isFinite y = true) :
    isFinite (fmul32 posZero y) = true ∧ value (fmul32 posZero y) = 0 := by
  have hzero : roundMag (units posZero * units y) (2 ^ 149) = 0 := by
    rw [show units posZero = 0 by decide, Nat.zero_mul]
    decide +kernel
  have hunits : units (fmul32 posZero y) = 0 := by
    rw [fmul32_finite (by decide) fy, units_roundWord, hzero, magUnits_zero]
  refine ⟨?_, by rwa [← Int.natAbs_eq_zero, natAbs_value]⟩
  rw [fmul32_finite (by decide) fy, isFinite_roundWord, hzero]
  decide

/-- Adding a zero of either sign leaves every finite pattern but -0.0. -/
theorem fadd32_zero {y z : Word} (fy : isFinite y = true) (hy : y ≠ negZero) (fz : isFinite z = true)
    (hz : value z = 0) : fadd32 y z = y := by
  refine fadd32_exact fy fz fy (by rw [hz, add_zero]) fun h0 => ?_
  have hzero : isZero y = true := by rw [← units_eq_zero, ← natAbs_value, h0, Int.natAbs_zero]
  cases hs : signBit y with
  | false => rfl
  | true => exact absurd (word_ext (hs.trans (by decide)) (((isZero_iff y).1 hzero).trans (by decide))) hy

/-! ### The table -/

/-- A ROM entry in range is one of the table's (R119). -/
theorem romRead_table_mem {c : Config} {i : Int} (h0 : 0 ≤ i) (h1 : i < c.L) : romRead c.table i ∈ c.table := by
  obtain ⟨j, rfl⟩ := Int.eq_ofNat_of_zero_le h0
  have hj : j < c.table.length := by rw [c.table_length]; exact_mod_cast h1
  rw [romRead_of_getElem? (List.getElem?_eq_getElem hj)]
  exact List.getElem_mem hj

theorem table_mem_finite {c : Config} {w : Word} (h : w ∈ c.table) : isFinite w = true :=
  List.all_eq_true.1 c.table_finite w h

/-- The index after i0, taken around the table, is in range (R119). -/
theorem next_index_inRange (c : Config) (i : Int) : 0 ≤ (i + 1) % (c.L : Int) ∧ (i + 1) % (c.L : Int) < c.L := by
  have hL : (0 : Int) < c.L := by have := c.L_range; omega
  exact ⟨Int.emod_nonneg _ hL.ne', Int.emod_lt_of_pos _ hL⟩

/-- The integer part of a phase in range is below the table length (R119). -/
theorem phase_div_lt {c : Config} {p : Word} (hp : units p < units (f32 c.L)) : units p / 2 ^ 149 < c.L := by
  obtain ⟨-, -, hL, -⟩ := f32_L c
  rw [hL] at hp
  exact Nat.div_lt_of_lt_mul (by rwa [Nat.mul_comm])

section
variable {c : Config} {p : Word} (fp : isFinite p = true) (sp : signBit p = false) (hp : units p < units (f32 c.L))
include fp sp hp

/-- The floor of a phase in range indexes the table (R119). -/
theorem floor32_inRange : 0 ≤ floor32 p ∧ floor32 p < c.L := by
  rw [floor32_nonneg fp sp]
  exact ⟨Int.natCast_nonneg _, by exact_mod_cast phase_div_lt hp⟩

/-- With table entries of at most 1.0 a sample is at most 1.0 (R120). -/
theorem sampleAt_le_one (htable : ∀ w ∈ c.table, units w ≤ 2 ^ 149) :
    isFinite (sampleAt c p) = true ∧ units (sampleAt c p) ≤ units one32 := by
  have hlt : units p < 2 ^ 24 * 2 ^ 149 := by
    have := phase_div_lt hp
    have := c.L_range
    omega
  obtain ⟨fw1, sw1, hw1⟩ := fmod32_finite (b := one32) fp (by decide) (by decide)
  have hfrac : units (fmod32 p one32) ≤ 2 ^ 149 := by
    rw [hw1, units_one32]
    exact (Nat.mod_lt _ (Nat.two_pow_pos 149)).le
  obtain ⟨fw0, hw0⟩ := fsub32_one32 fw1 (sw1.trans sp) hfrac
  obtain ⟨hi0, hi0'⟩ := floor32_inRange fp sp hp
  obtain ⟨hi1, hi1'⟩ := next_index_inRange c (floor32 p)
  have mem0 := romRead_table_mem hi0 hi0'
  have mem1 := romRead_table_mem hi1 hi1'
  obtain ⟨fy0, hy0⟩ := units_fmul32_le fw0 (table_mem_finite mem0) (htable _ mem0)
  obtain ⟨fy1, hy1⟩ := units_fmul32_le fw1 (table_mem_finite mem1) (htable _ mem1)
  simp only [sampleAt, fsub32_floor32 fp sp hlt]
  exact fadd32_le_one fy0 fy1 (by omega)

end

/-- At an integer phase the weights are 1.0 and +0.0, so the sample is the table entry (R115 (e)). -/
theorem sampleAt_f32 {c : Config} {i : Nat} {y : Word} (hy : c.table[i]? = some y) (hne : y ≠ negZero) :
    sampleAt c (f32 i) = y := by
  have hi : i < c.L := by
    rw [← c.table_length]
    exact (List.getElem?_eq_some_iff.1 hy).1
  have hL := c.L_range
  obtain ⟨fi, si, ui⟩ := f32_nat (i := i) (by omega)
  have hfloor : floor32 (f32 i) = i := by
    rw [floor32_nonneg fi si, ui, Nat.mul_div_cancel _ (Nat.two_pow_pos 149)]
  have hw1 : fsub32 (f32 i) (f32 i) = posZero := by
    obtain ⟨-, sw, uw⟩ := fmod32_finite (b := one32) fi (by decide) (by decide)
    have hfrac := fsub32_floor32 fi si (by omega)
    rw [hfloor] at hfrac
    rw [hfrac]
    refine eq_posZero (sw.trans si) ((units_eq_zero _).1 ?_)
    rw [uw, ui, units_one32, Nat.mul_mod_left]
  have hw0 : fsub32 one32 posZero = one32 := by decide +kernel
  obtain ⟨hi1, hi1'⟩ := next_index_inRange c i
  obtain ⟨fz, hz⟩ := fmul32_posZero (table_mem_finite (romRead_table_mem hi1 hi1'))
  have fy : isFinite y = true := table_mem_finite (List.mem_of_getElem? hy)
  simp only [sampleAt, hfloor, hw1, hw0, romRead_of_getElem? hy, fmul32_one32 fy]
  exact fadd32_zero fy hne fz hz

/-- Settles O41: the floor of a phase in range is its integer part, below L ≤ 1024. -/
theorem phaseInRangeIndexesTheTable : Obligations.PhaseInRangeIndexesTheTable := by
  intro c v h
  obtain ⟨⟨fp, sp, hp⟩, -⟩ := Voice.inRange_iff.1 h
  obtain ⟨hi0, hi0'⟩ := floor32_inRange fp sp hp
  obtain ⟨hi1, hi1'⟩ := next_index_inRange c (floor32 v.phase)
  have hL := c.L_range
  obtain ⟨i, hi⟩ := Int.eq_ofNat_of_zero_le hi0
  rw [hi] at hi0' hi1 hi1' ⊢
  obtain ⟨fi, si, ui⟩ := f32_nat (i := i) (by omega)
  refine ⟨Int.natCast_nonneg i, hi0', hi1, hi1', fi, ?_⟩
  rw [value_of_nonneg si, ui, Nat.cast_mul, Nat.cast_pow, Nat.cast_ofNat]

/-- No entry of the default table is above 1.0 (R111). -/
theorem defaultTable_le_one : ∀ w ∈ Config.default.table, units w ≤ 2 ^ 149 := by
  have hall : Config.default.table.all (fun w => decide (units w ≤ 2 ^ 149)) = true := by decide +kernel
  exact fun w hw => of_decide_eq_true (List.all_eq_true.1 hall w hw)

/-- Settles O39: no default table entry is above 1.0. -/
theorem defaultTableOutputStaysInUnitRange : Obligations.DefaultTableOutputStaysInUnitRange := by
  intro v h
  obtain ⟨⟨fp, sp, hp⟩, -⟩ := Voice.inRange_iff.1 h
  rw [natAbs_value]
  exact sampleAt_le_one fp sp hp defaultTable_le_one

/-- Settles O42: the entry comes back from the weights 1.0 and +0.0. -/
theorem integerPhaseGivesTheTableEntry : Obligations.IntegerPhaseGivesTheTableEntry := fun _ _ _ => sampleAt_f32

end Sys2Proof.Machine
end

section
/-! The operations on one voice (O15, O16, O31, O40, O43, O44, O45). `isActive_eq` says that `IS_ACTIVE` is a test for a
zero, `exec_noteOn` and `exec_noteOff` what the two events do to a NOTE of 0..127, and `voice_renderRange_eq` what a
sub-range of any bounds does to a voice. -/

namespace Sys2Proof.Machine

/-! ### Activity -/

theorem feq32_posZero (w : Word) : feq32 w posZero = isZero w := by
  rw [Bool.eq_iff_iff, ← units_eq_zero, ← natAbs_value, Int.natAbs_eq_zero]
  simp only [feq32, Bool.and_eq_true, beq_iff_eq, show value posZero = 0 by decide]
  refine ⟨fun ⟨_, h⟩ => h, fun h => ⟨⟨?_, by decide⟩, h⟩⟩
  have hzero := (isZero_iff w).1 ((units_eq_zero w).1 (by rw [← natAbs_value, h, Int.natAbs_zero]))
  rw [Bool.not_eq_true', Bool.eq_false_iff, Ne, isNaN_iff]
  omega

/-- `IS_ACTIVE` is false exactly of a zero increment of either sign (R117). -/
theorem State.isActive_eq (s : State) (n : Fin 128) : s.isActive n = !isZero (s.voice n).inc := by
  rw [State.isActive, feq32_posZero]

/-- Settles O44: of the zeros the pattern +0.0 alone has sign bit 0. -/
theorem activeIsANonzeroIncrementPattern : Obligations.ActiveIsANonzeroIncrementPattern := by
  intro s n h
  obtain ⟨-, -, hsign⟩ := Voice.inRange_iff.1 h
  rw [s.isActive_eq, Bool.not_eq_true', Bool.eq_false_iff]
  refine not_congr ⟨eq_posZero hsign, fun hinc => ?_⟩
  rw [hinc]
  decide

/-! ### `NOTE_ON` and `NOTE_OFF` -/

/-- Writing one voice leaves everything but the voice file. -/
theorem onlyVoices_setVoice (s : State) (n : Fin 128) (v : Voice) : OnlyVoices s (s.setVoice n v) := ⟨rfl, fun _ => rfl⟩

theorem slotOf_eq {note : BitVec 8} {n : Fin 128} (h : note.toNat = n.val) : slotOf note = some n := by
  simp [slotOf, h]

section
variable (s : State) {note : BitVec 8} (vel ign : BitVec 8) (ts : Word) {n : Fin 128} (h : note.toNat = n.val)
include h

/-- `NOTE_ON` of a NOTE of 0..127 sets its slot's frequency (R170). -/
theorem exec_noteOn : exec (.noteOn note vel ign ts) s = .next (s.setFrequency n (noteToFreq s.cfg n)) := by
  rw [exec, execNoteOn, slotOf_eq h]

/-- `NOTE_OFF` of a NOTE of 0..127 stops its slot (R171). -/
theorem exec_noteOff : exec (.noteOff note vel ign ts) s = .next (s.stop n) := by
  rw [exec, execNoteOff, slotOf_eq h]

end

/-- `SET_FREQUENCY` writes the increment and keeps the phase (R113). -/
theorem State.voice_setFrequency (s : State) (n : Fin 128) (freq : Word) :
    (s.setFrequency n freq).voice n = ⟨(s.voice n).phase, incrementOf s.cfg freq s.sra⟩ := by
  rw [State.setFrequency, State.voice_setVoice_self]

/-- Settles O15: `NOTE_ON` sets the frequency `FREQ[NOTE]`. -/
theorem noteOnWritesTheIncrementOnly : Obligations.NoteOnWritesTheIncrementOnly := by
  intro s note vel ign ts n f hnote hf
  have hfreq : noteToFreq s.cfg n = f := romRead_of_getElem? hf
  refine ⟨_, exec_noteOn s vel ign ts hnote, ?_, fun m hm => s.voice_setVoice_ne _ hm, onlyVoices_setVoice _ _ _⟩
  rw [s.voice_setFrequency, hfreq]
  rfl

/-- Settles O16: `NOTE_OFF` stops its slot, and a stopped voice has a zero increment. -/
theorem noteOffStopsItsVoiceOnly : Obligations.NoteOffStopsItsVoiceOnly := by
  intro s note vel ign ts n hnote
  have hvoice : (s.stop n).voice n = ⟨posZero, posZero⟩ := s.voice_setVoice_self n _
  refine ⟨_, exec_noteOff s vel ign ts hnote, hvoice, ?_, fun m hm => s.voice_setVoice_ne _ hm,
    onlyVoices_setVoice _ _ _⟩
  rw [State.isActive_eq, hvoice]
  decide

/-! ### The increments of the default ROM -/

/-- Every product FREQ[n]·L of the default ROM is finite (R118, R141). -/
theorem tameFreq_default : tameFreq Config.default = true := by decide +kernel

/-- Every product FREQ[n]·L of the default ROM is at least 1.0 (R141). -/
theorem one_le_defaultFreq_product (n : Fin 128) :
    2 ^ 149 ≤ units (fmul32 (noteToFreq Config.default n) (f32 Config.default.L)) := by
  have hall : Config.default.freq.all (fun w => decide (2 ^ 149 ≤ units (fmul32 w (f32 Config.default.L)))) = true := by
    decide +kernel
  exact of_decide_eq_true (List.all_eq_true.1 hall _ (noteToFreq_mem _ n))

/-- A product of at least 1.0 divided by any finite rate is not rounded to zero: the smallest magnitude of the format is
2^-149, and the largest is below 2^128 (R113 (b)). -/
theorem isZero_fdiv32 {a b : Word} (fa : isFinite a = true) (fb : isFinite b = true) (hb : isZero b = false)
    (ha : 2 ^ 149 ≤ units a) : isZero (fdiv32 a b) = false := by
  have hbig : units b ≤ 2 ^ 149 * 2 ^ 149 := by
    refine (units_lt_inf fb).le.trans ?_
    decide +kernel
  have hround : 1 ≤ roundMag (units a * 2 ^ 149) (units b) := by
    refine le_roundMag_of_le (units_pos hb) (by decide) ?_
    rw [show magUnits 1 = 1 by decide, Nat.one_mul]
    exact hbig.trans (Nat.mul_le_mul_right _ ha)
  rw [Bool.eq_false_iff, Ne, isZero_iff, fdiv32_finite fa fb hb, magBits_roundWord]
  omega

/-- Settles O45: the increment is the quotient of a product of at least 1.0 by a finite rate. -/
theorem noteOnActivatesItsVoice : Obligations.NoteOnActivatesItsVoice := by
  intro s note vel ign ts n hcfg legal hnote
  obtain ⟨fsra, -, hsra⟩ := sampleRateLegal_bounds legal
  have hsraZero : isZero s.sra = false := by
    rw [Bool.eq_false_iff, Ne, ← units_eq_zero]
    omega
  have hprodFin := List.all_eq_true.1 tameFreq_default _ (noteToFreq_mem _ n)
  refine ⟨_, exec_noteOn s vel ign ts hnote, ?_⟩
  rw [State.isActive_eq, s.voice_setFrequency, hcfg, Bool.not_eq_true']
  exact ⟨isZero_fdiv32 hprodFin fsra hsraZero (one_le_defaultFreq_product n),
    incrementOf_inRange tameFreq_default legal n⟩

/-! ### `GET_SAMPLE` -/

/-- `GET_SAMPLE` moves its voice's phase on (R115). -/
theorem State.voice_getSample (s : State) (n : Fin 128) :
    (s.getSample n).2.voice n = ⟨nextPhase s.cfg (s.voice n).phase (s.voice n).inc, (s.voice n).inc⟩ := by
  rw [State.getSample, State.voice_setVoice_self]

/-- Settles O40: the phase moved on is in range. -/
theorem getSampleKeepsItsVoiceInRange : Obligations.GetSampleKeepsItsVoiceInRange := by
  intro s n h
  rw [s.voice_getSample]
  exact nextPhase_inRange h

/-- Writing a voice's own value changes nothing. -/
theorem State.setVoice_voice (s : State) (n : Fin 128) : s.setVoice n (s.voice n) = s := by
  have hvoices : s.voices.set n.val (s.voice n) n.isLt = s.voices := by
    simp [State.voice, Vector.get_eq_getElem]
  rw [State.setVoice, hvoices]

/-- A phase at +0.0 with increment +0.0 stays there (R115 (f)). -/
theorem nextPhase_stopped (c : Config) : nextPhase c posZero posZero = posZero := by
  obtain ⟨fL, -, -, hL⟩ := f32_L c
  obtain ⟨-, hsign, hunits⟩ := fmod32_finite (a := posZero) (by decide) fL hL
  rw [nextPhase, show fadd32 posZero posZero = posZero by decide]
  refine eq_posZero (hsign.trans (by decide)) ((units_eq_zero _).1 ?_)
  rw [hunits, show units posZero = 0 by decide, Nat.zero_mod]

/-- Settles O43: +0.0 is the integer phase 0, and it does not move on. -/
theorem stoppedVoiceStaysAtTableZero : Obligations.StoppedVoiceStaysAtTableZero := by
  intro s n y hy hne hvoice
  have hstopped : s.voice n = ⟨posZero, posZero⟩ := hvoice
  have hphase : posZero = f32 (0 : Nat) := by decide +kernel
  simp only [State.getSample, hstopped, nextPhase_stopped]
  constructor
  · rw [hphase]
    exact sampleAt_f32 hy hne
  · rw [← hstopped, s.setVoice_voice]

/-! ### `RENDER_RANGE` -/

theorem State.voices_copyFrames (s : State) (c count f : Nat) : (s.copyFrames c count f).voices = s.voices := by
  induction count generalizing s f with
  | zero => rfl
  | succ count ih => rw [State.copyFrames_succ, ih, State.setBuf_voices]

/-- The copies of the channels write no voice, whatever frames they cover (R165). -/
theorem State.voices_copyFrom (s : State) (a b count c : Nat) : (s.copyFrom a b count c).voices = s.voices := by
  induction count generalizing s c with
  | zero => rfl
  | succ count ih => rw [State.copyFrom_succ, ih, State.voices_copyFrames]

/-- `RENDER_RANGE` moves every active voice on by the range's length and no other, even where the range leaves the
buffer (R115, R164). -/
theorem State.voice_renderRange_eq (s : State) {a b : Nat} (hab : a ≤ b) (n : Fin 128) :
    (s.renderRange a b).voice n
      = if s.isActive n = true then ⟨phaseAfter s.cfg (s.voice n) (b - a), (s.voice n).inc⟩ else s.voice n := by
  unfold State.renderRange
  split
  · next h =>
    subst h
    simp [phaseAfter]
  · have hmixed := (foldl_mixVoice_spec slots slots_nodup s hab).1 n
    simp only [mem_slots, true_and] at hmixed
    rw [← hmixed, State.voice, State.copyChannels, State.voices_copyFrom]
    rfl

/-- Settles O31: both clauses are the two branches of the sub-range's effect on a voice. -/
theorem rangeAdvancesActiveVoices : Obligations.RangeAdvancesActiveVoices := by
  intro s a b hab n
  rw [s.voice_renderRange_eq hab]
  exact ⟨fun h => if_pos h, fun h => if_neg (by simp [h])⟩

end Sys2Proof.Machine
end

section
/-! `PREPARE` (O21, O22): `sampleRateLegal_iff` says which rates pass the check of R144, and the two statements are what
`State.prepare_legal` and `State.prepare_illegal` say of the rest. -/

namespace Sys2Proof.Machine

/-- The check of R144 without its test for a NaN, which a finite pattern passes. -/
theorem sampleRateLegal_iff (w : Word) : sampleRateLegal w = true ↔ isFinite w = true ∧ value one32 ≤ value w := by
  have hone : isNaN one32 = false := by decide
  simp only [sampleRateLegal, fge32, hone, Bool.and_eq_true, Bool.not_eq_true', Bool.not_false, and_true,
    decide_eq_true_eq]
  exact and_congr_right fun hfin => and_iff_right (isNaN_of_isFinite hfin)

/-- A NaN, an infinity and a value below 1.0 fail the check of R144. -/
theorem sampleRateLegal_eq_false {w : Word} (h : isNaN w = true ∨ isInf w = true ∨ value w < value one32) :
    sampleRateLegal w = false := by
  rw [Bool.eq_false_iff, Ne, sampleRateLegal_iff]
  rintro ⟨hfin, hge⟩
  rcases h with hnan | hinf | hlt
  · exact Bool.false_ne_true ((isNaN_of_isFinite hfin).symm.trans hnan)
  · exact Bool.false_ne_true ((isInf_of_isFinite hfin).symm.trans hinf)
  · exact hlt.not_ge hge

/-- `PREPARE` reads no bit of its command. -/
theorem exec_prepare (s : State) (g : BitVec 24) : exec (.prepare g) s = .next s.prepare := rfl

/-- Settles O21: a finite rate of at least 1.0 passes the check, and the state after it is the one `prepare_legal` writes
out, with every voice at +0.0. -/
theorem prepareLatchesALegalRate : Obligations.PrepareLatchesALegalRate := by
  intro s g hfin hge
  have legal : sampleRateLegal s.sr = true := (sampleRateLegal_iff s.sr).2 ⟨hfin, hge⟩
  refine ⟨_, (exec_prepare s g).trans (congrArg _ (State.prepare_legal legal)), rfl, fun n => ?_, ?_, fun a => ?_⟩
  · simp [State.voice, Vector.get_eq_getElem, posZero]
  · simp [State.status, State.busy, Cause.code]
  · exact State.readByte_congr rfl rfl a

/-- Settles O22: an illegal rate raises its fault, which is recorded or leaves the held one (R202). -/
theorem prepareFaultsOnAnIllegalRate : Obligations.PrepareFaultsOnAnIllegalRate := by
  intro s g h
  have hfault : exec (.prepare g) s = .next (s.raiseFault .invalidSampleRate 0) := by
    rw [exec_prepare, State.prepare_illegal (sampleRateLegal_eq_false h)]
  refine ⟨fun noFault => ?_, fun held => ?_⟩
  · rw [hfault, State.raiseFault_first noFault, State.faulted]
  · rw [hfault, State.raiseFault_held held]

end Sys2Proof.Machine
end

section
/-! The samples of a sub-range (O30, O32): `buf_renderRange` gives every frame inside the range, on every channel the range
is written to, and `buf_renderRange_outside` says that every other frame stays. -/

namespace Sys2Proof.Machine

/-- The mixing of the voices writes the voice file and the RAMs and nothing else (R164). -/
theorem State.soundOnly_mixVoices (s : State) {a b : Nat} (hab : a ≤ b) : SoundOnly s (s.mixVoices a b) :=
  mixVoices_induct (soundOnly_kept s s.chans a b) (Nat.succ_pos _) hab slots s (.refl s)

theorem State.buf_mixVoices (s : State) {a b f : Nat} (ha : a ≤ f) (hf : f < b) :
    (s.mixVoices a b).buf 0 f = s.mixed (s.buf 0 f) (f - a) := by
  obtain ⟨-, -, mixed⟩ := foldl_mixVoice_spec slots slots_nodup s (ha.trans hf.le)
  exact mixed f ha hf

/-- The mixing of the voices leaves the samples of channel 0 outside its range, and every other channel. -/
theorem State.buf_mixVoices_outside (s : State) {a b c f : Nat} (hab : a ≤ b) (hb : b ≤ s.cfg.maxBlen)
    (hout : f < a ∨ b ≤ f) : (s.mixVoices a b).buf c f = s.buf c f := by
  obtain ⟨-, kept, -⟩ := foldl_mixVoice_spec slots slots_nodup s hab
  apply kept
  unfold sampleIndex
  rcases Nat.eq_zero_or_pos c with rfl | hc
  · omega
  · have : s.cfg.maxBlen ≤ c * s.cfg.maxBlen := Nat.le_mul_of_pos_left _ hc
    omega

/-- A frame inside a sub-range, on any channel the range is written to: channel 0's mix onto what channel 0 held, which
the other channels copy (R164, R165). -/
theorem State.buf_renderRange (s : State) {a b c f : Nat} (hb : b ≤ s.cfg.maxBlen) (ha : a ≤ f) (hf : f < b)
    (hc : c < s.chans) : (s.renderRange a b).buf c f = s.mixed (s.buf 0 f) (f - a) := by
  have hab : a ≤ b := ha.trans hf.le
  have hmix := s.soundOnly_mixVoices hab
  obtain ⟨-, hkept, hcopied⟩ := (s.mixVoices a b).copyFrom_spec (s.nch.toNat - 1) 1 one_pos hab (by rwa [hmix.cfg])
  rw [State.renderRange, if_neg (by omega), State.copyChannels, hmix.nch, ← s.buf_mixVoices ha hf]
  rcases Nat.eq_zero_or_pos c with rfl | hpos
  · exact hkept 0 f (by rw [hmix.cfg]; omega) (.inl one_pos)
  · exact hcopied c f hpos (by unfold State.chans at hc; omega) ha hf

/-- A frame of the buffer outside a sub-range stays, on every channel. -/
theorem State.buf_renderRange_outside (s : State) {a b c f : Nat} (hab : a ≤ b) (hb : b ≤ s.cfg.maxBlen)
    (hf : f < s.cfg.maxBlen) (hout : f < a ∨ b ≤ f) : (s.renderRange a b).buf c f = s.buf c f := by
  have hmix := s.soundOnly_mixVoices hab
  unfold State.renderRange
  split
  · rfl
  · obtain ⟨-, hkept, -⟩ := (s.mixVoices a b).copyFrom_spec (s.nch.toNat - 1) 1 one_pos hab (by rwa [hmix.cfg])
    rw [State.copyChannels, hmix.nch, hkept c f (by rwa [hmix.cfg]) (by omega), s.buf_mixVoices_outside hab hb hout]

theorem State.zero_lt_chans (s : State) : 0 < s.chans := Nat.succ_pos _

/-- A sub-range is written to every channel below `NCH` (R165). -/
theorem State.lt_chans {s : State} {c : Nat} (h : c < s.nch.toNat) : c < s.chans := by
  unfold State.chans
  omega

/-- Settles O30: channel 0 is one of the channels a sub-range is written to. -/
theorem rangeMixesActiveSlotsInOrder : Obligations.RangeMixesActiveSlotsInOrder := fun s _ _ _ hb ha hf =>
  s.buf_renderRange hb ha hf s.zero_lt_chans

/-- Settles O32: both channels hold the mix of channel 0. -/
theorem rangeCopiesChannelZero : Obligations.RangeCopiesChannelZero := fun s _ _ _ _ hb ha hf hc =>
  (s.buf_renderRange hb ha hf (State.lt_chans hc)).trans (s.buf_renderRange hb ha hf s.zero_lt_chans).symm

end Sys2Proof.Machine
end

section
/-! The checks of `RENDER` (O24, O25): `exec_render_of_fault` carries a fault of `beginRender` to the whole command, and
each check below says which fault that is. -/

namespace Sys2Proof.Machine

/-- A check of `RENDER` that fails ends the command with its fault and changes nothing else (R160, R202). -/
theorem exec_render_of_fault {s : State} {c : Cause} {i : Nat} (noFault : s.fault = false)
    (h : s.beginRender = s.raiseFault c i) (g : BitVec 24) : exec (.render g) s = .next (s.faulted c i) := by
  have hrun := execRender_eq_work noFault g
  rw [h, State.work_iterate_of_idle (State.raiseFault_mode _ _ _), State.raiseFault_first noFault] at hrun
  exact hrun

theorem State.beginRender_of_unprepared {s : State} (h : s.prepared = false) :
    s.beginRender = s.raiseFault .notPrepared 0 := by
  simp [State.beginRender, h]

theorem State.beginRender_of_illegalBlock {s : State} (prepared : s.prepared = true) (h : ¬s.blockLegal = true) :
    s.beginRender = s.raiseFault .invalidBlockConfig 0 := by
  simp [State.beginRender, prepared, h]

theorem State.beginRender_of_invalid {s : State} {c : Cause} {k : Nat} (prepared : s.prepared = true)
    (legal : s.blockLegal = true) (h : s.validate = some (c, k)) : s.beginRender = s.raiseFault c k := by
  simp [State.beginRender, prepared, legal, h]

/-- The bounds of R160 that a block configuration can miss. -/
theorem State.blockLegal_iff (s : State) : s.blockLegal = true ↔ s.nch.toNat ≠ 0 ∧ s.nch.toNat ≤ s.cfg.maxCh
    ∧ s.blen.toNat ≤ s.cfg.maxBlen ∧ s.nev.toNat ≤ s.cfg.maxEv := by
  simp only [State.blockLegal, Bool.and_eq_true, decide_eq_true_eq, and_assoc]

/-- Settles O24: both checks come before the validation pass, the preparation first. -/
theorem renderChecksPreparationThenBlock : Obligations.RenderChecksPreparationThenBlock := by
  intro s g noFault
  refine ⟨fun h => exec_render_of_fault noFault (State.beginRender_of_unprepared h) g, fun prepared hbad => ?_⟩
  refine exec_render_of_fault noFault (State.beginRender_of_illegalBlock prepared fun legal => ?_) g
  obtain ⟨hne, hch, hlen, hev⟩ := s.blockLegal_iff.1 legal
  omega

section
variable {blen prev : Nat} {e : EventWord}

/-! The check that fails first names the cause (R161, R204 (3)). -/

theorem eventFault_type (h : evType e ≠ 0x01#8 ∧ evType e ≠ 0x02#8 ∧ evType e ≠ 0x03#8) :
    eventFault blen prev e = some .illegalEvent := if_pos h

theorem not_illegalType (t : evType e = 0x01#8 ∨ evType e = 0x02#8 ∨ evType e = 0x03#8) :
    ¬(evType e ≠ 0x01#8 ∧ evType e ≠ 0x02#8 ∧ evType e ≠ 0x03#8) :=
  fun ⟨h1, h2, h3⟩ => t.elim h1 fun t => t.elim h2 h3

theorem eventFault_range (t : evType e = 0x01#8 ∨ evType e = 0x02#8 ∨ evType e = 0x03#8)
    (h : blen < (evTs e).toNat) : eventFault blen prev e = some .eventRange := by
  rw [eventFault, if_neg (not_illegalType t), if_pos h]

theorem eventFault_order (t : evType e = 0x01#8 ∨ evType e = 0x02#8 ∨ evType e = 0x03#8)
    (r : (evTs e).toNat ≤ blen) (h : (evTs e).toNat < prev) : eventFault blen prev e = some .eventOrder := by
  rw [eventFault, if_neg (not_illegalType t), if_neg r.not_gt, if_pos h]

theorem eventFault_note (t : evType e = 0x01#8 ∨ evType e = 0x02#8) (r : (evTs e).toNat ≤ blen)
    (o : prev ≤ (evTs e).toNat) (h : 128 ≤ (evNote e).toNat) : eventFault blen prev e = some .invalidNote := by
  rw [eventFault, if_neg (not_illegalType (t.imp id .inl)), if_neg r.not_gt, if_neg o.not_gt, if_pos ⟨t, h⟩]

end

theorem State.prevTs_of_pos (s : State) {k : Nat} (h : 0 < k) : s.prevTs k = (evTs (s.evq (k - 1))).toNat :=
  if_neg h.ne'

/-- The first bad event of a block fails the checks of R161 against the timestamp before it, with its cause. -/
theorem FirstBad.found {s : State} {k : Nat} {c : Cause} (h : FirstBad s k c) :
    (∀ j, j < k → s.eventOk j) ∧ eventFault s.blen.toNat (s.prevTs k) (s.evq k) = some c := by
  cases h with
  | type before t => exact ⟨before, eventFault_type t⟩
  | range before t r => exact ⟨before, eventFault_range t r⟩
  | order before t r o =>
    obtain ⟨hpos, hlt⟩ := o
    exact ⟨before, eventFault_order t r (by rwa [s.prevTs_of_pos hpos])⟩
  | note before t r o h =>
    refine ⟨before, eventFault_note t r ?_ h⟩
    rcases Nat.eq_zero_or_pos k with rfl | hpos
    · exact Nat.zero_le _
    · rw [s.prevTs_of_pos hpos]
      exact o hpos

/-- The validation pass finds the first bad event of a block (R161). -/
theorem FirstBad.validate {s : State} {k : Nat} {c : Cause} (h : FirstBad s k c) (hk : k < s.nev.toNat) :
    s.validate = some (c, k) := by
  obtain ⟨before, hfault⟩ := h.found
  exact s.validateFrom_first (Nat.zero_le k) (by omega) (fun j _ => before j) hfault

/-- Settles O25: the validation pass comes before the first sub-range and stops at the first bad event. -/
theorem renderFaultsOnTheFirstBadEvent : Obligations.RenderFaultsOnTheFirstBadEvent :=
  fun _ g _ _ noFault prepared legal hk hbad =>
    exec_render_of_fault noFault (State.beginRender_of_invalid prepared legal (hbad.validate hk)) g

end Sys2Proof.Machine
end

section
/-! `RENDER` of a legal block (O20, O29, O33, O35). `turnsTo s i` is where R162's loop stands before event i; `along_turnsTo`
places it on the block, `executeFrom_turnsTo` says that the execution pass goes that way. -/

namespace Sys2Proof.Machine

/-! ### The turns of a block -/

/-- The state and the current sample of R162's loop before event i. -/
def State.turnsTo (s : State) (i : Nat) : State × Nat := ((List.range i).map s.evq).foldl blockTurn (s, 0)

theorem State.turnsTo_zero (s : State) : s.turnsTo 0 = (s, 0) := rfl

theorem State.turnsTo_succ (s : State) (i : Nat) : s.turnsTo (i + 1) = blockTurn (s.turnsTo i) (s.evq i) := by
  simp [State.turnsTo, List.range_succ]

/-- The block's result is the last sub-range after the turns of all its events (R162). -/
theorem State.blockResult_eq (s : State) :
    s.blockResult = ((s.turnsTo s.nev.toNat).1.renderRange (s.turnsTo s.nev.toNat).2 s.blen.toNat).seqAt .idle
      s.nev.toNat (s.turnsTo s.nev.toNat).2 := rfl

theorem State.seqAt_mode (s : State) (m : Mode) (k cur : Nat) : (s.seqAt m k cur).mode = m := rfl

/-- The end of a render at a position inside the block is the sub-range from there on (R162). -/
theorem State.endRender_seqAt (s : State) (k : Nat) {cur : Nat} (h : cur ≤ s.blen.toNat) :
    (s.seqAt .rendering k cur).endRender = (s.renderRange cur s.blen.toNat).seqAt .idle k cur :=
  congrArg State.complete (s.renderRange_seqAt .rendering k cur h)

section
variable {s : State} (hr : Renderable s)
include hr

/-- Every timestamp of a legal block lies in the block (R161). -/
theorem Renderable.ts_le_blen {i : Nat} (hi : i < s.nev.toNat) : (evTs (s.evq i)).toNat ≤ s.blen.toNat := by
  obtain ⟨-, inBlock, -, -⟩ := hr.events i hi
  exact inBlock

theorem along_turnsTo {i : Nat} (hi : i ≤ s.nev.toNat) : Along s (s.turnsTo i) i := by
  induction i with
  | zero => exact ⟨.refl s, rfl, fun _ _ => rfl⟩
  | succ i ih =>
    rw [s.turnsTo_succ]
    exact (along_step hr hi (ih (by omega))).1

/-- The loop never stands behind the block's end, since no timestamp lies there (R161). -/
theorem turnsTo_cur_le {i : Nat} (hi : i ≤ s.nev.toNat) : (s.turnsTo i).2 ≤ s.blen.toNat := by
  rw [(along_turnsTo hr hi).cur]
  cases i with
  | zero => exact Nat.zero_le _
  | succ i => exact hr.ts_le_blen hi

/-- The loop goes forward: the timestamps of the block do not fall (R161). -/
theorem turnsTo_cur_le_ts {i : Nat} (hi : i < s.nev.toNat) : (s.turnsTo i).2 ≤ (evTs (s.evq i)).toNat := by
  obtain ⟨-, -, ordered, -⟩ := eventFault_none.1 ((s.eventOk_iff i).1 (hr.events i hi))
  rwa [(along_turnsTo hr hi.le).cur]

/-- The execution pass from before event i on ends in the block's result. -/
theorem executeFrom_turnsTo {i count : Nat} (hi : i + count = s.nev.toNat) :
    ((s.turnsTo i).1.seqAt .rendering i (s.turnsTo i).2).executeFrom count = .next s.blockResult := by
  induction count generalizing i with
  | zero =>
    obtain rfl : i = s.nev.toNat := hi
    have hblen := (along_turnsTo hr (Nat.le_refl _)).frame.blen
    have hcur := turnsTo_cur_le hr (Nat.le_refl _)
    rw [← hblen] at hcur
    rw [State.executeFrom, if_pos (State.seqAt_mode _ _ _ _), State.endRender_seqAt _ _ hcur, hblen, s.blockResult_eq]
  | succ count ih =>
    have hunit := (along_step hr (i := i) (by omega) (along_turnsTo hr (by omega))).2
    rw [← s.turnsTo_succ] at hunit
    rw [State.executeFrom, if_pos (State.seqAt_mode _ _ _ _), hunit]
    exact ih (by omega)

/-- `RENDER` of a legal block (R160, R162). -/
theorem exec_render_of_renderable (g : BitVec 24) : exec (.render g) s = .next s.blockResult := by
  have hrun := executeFrom_turnsTo hr (Nat.zero_add _)
  rw [exec, execRender, hr.noFault, State.beginRender_of_renderable hr]
  exact hrun

theorem soundOnly_lastRange :
    SoundOnly s ((s.turnsTo s.nev.toNat).1.renderRange (s.turnsTo s.nev.toNat).2 s.blen.toNat) :=
  (along_turnsTo hr (Nat.le_refl _)).frame.trans (State.soundOnly_renderRange _ _ _)

end

/-- Settles O29: the execution pass from before the first event. -/
theorem renderRendersTheBlock : Obligations.RenderRendersTheBlock := fun _ g hr =>
  ⟨exec_render_of_renderable hr g, (soundOnly_lastRange hr).fault.trans hr.noFault, rfl⟩

/-! ### Identical channels -/

/-- Every channel below `NCH` holds channel 0's words in the frames before n. -/
def ChannelsAlike (s : State) (n : Nat) : Prop := ∀ c f, c < s.nch.toNat → f < n → s.buf c f = s.buf 0 f

/-- A sub-range carries the likeness on to its end: the frames before it stay, its own are copied (R165). -/
theorem ChannelsAlike.renderRange {s : State} {a b : Nat} (h : ChannelsAlike s a) (hab : a ≤ b)
    (hb : b ≤ s.cfg.maxBlen) : ChannelsAlike (s.renderRange a b) b := by
  intro c f hc hf
  rw [(s.soundOnly_renderRange a b).nch] at hc
  rcases Nat.lt_or_ge f a with hlt | hge
  · have hkept (d : Nat) : (s.renderRange a b).buf d f = s.buf d f :=
      s.buf_renderRange_outside hab hb (by omega) (.inl hlt)
    rw [hkept, hkept, h c f hc hlt]
  · exact rangeCopiesChannelZero s a b f c hb hge hf hc

/-- An event writes no sample. -/
theorem ChannelsAlike.applyWord {s : State} {n : Nat} (h : ChannelsAlike s n) (e : EventWord) :
    ChannelsAlike (s.applyWord e) n := by
  have hsound := s.applyWord_soundOnly e
  have hbuf (c f : Nat) : (s.applyWord e).buf c f = s.buf c f := by
    rw [State.buf, State.buf, hsound.cfg]
    exact State.readWord_congr (s.applyWord_mem e) hsound.epoch _
  intro c f hc hf
  rw [hbuf, hbuf, h c f (by rwa [← hsound.nch]) hf]

theorem channelsAlike_turnsTo {s : State} (hr : Renderable s) {i : Nat} (hi : i ≤ s.nev.toNat) :
    ChannelsAlike (s.turnsTo i).1 (s.turnsTo i).2 := by
  induction i with
  | zero => exact fun _ f _ hf => absurd hf f.not_lt_zero
  | succ i ih =>
    have hts : (evTs (s.evq i)).toNat ≤ s.cfg.maxBlen :=
      (hr.ts_le_blen hi).trans (State.blen_le_of_blockLegal hr.block)
    rw [s.turnsTo_succ]
    refine ((ih (by omega)).renderRange (turnsTo_cur_le_ts hr hi) ?_).applyWord _
    rwa [(along_turnsTo hr (i := i) (by omega)).frame.cfg]

/-- Settles O33: the turns and the last sub-range keep the channels alike up to where they stand. -/
theorem renderedChannelsAreIdentical : Obligations.RenderedChannelsAreIdentical := by
  intro s g hr
  have hfits : s.blen.toNat ≤ (s.turnsTo s.nev.toNat).1.cfg.maxBlen := by
    rw [(along_turnsTo hr (Nat.le_refl _)).frame.cfg]
    exact State.blen_le_of_blockLegal hr.block
  have hend := (channelsAlike_turnsTo hr (Nat.le_refl _)).renderRange (turnsTo_cur_le hr (Nat.le_refl _)) hfits
  refine ⟨_, exec_render_of_renderable hr g, fun c f hc hf => hend c f ?_ hf⟩
  rwa [(soundOnly_lastRange hr).nch]

/-! ### A block without events -/

/-- Settles O35: without events the block is its last sub-range, from frame 0 on. -/
theorem eventFreeBlockIsOneSubRange : Obligations.EventFreeBlockIsOneSubRange := by
  intro s g noFault prepared legal hnev
  have hzero : s.nev.toNat = 0 := by rw [hnev]; rfl
  have hr : Renderable s := ⟨noFault, prepared, legal, fun k hk => absurd hk (by omega)⟩
  have hblock : s.blockResult = (s.renderRange 0 s.blen.toNat).seqAt .idle 0 0 := by
    rw [s.blockResult_eq, hzero, s.turnsTo_zero]
  obtain ⟨hexec, hfault, hmode⟩ := renderRendersTheBlock s g hr
  refine ⟨s.blockResult, hexec, fun c f hc hf => ?_, fun n h => ?_, fun n h => ?_, hmode, hfault⟩ <;> rw [hblock]
  · exact s.buf_renderRange (State.blen_le_of_blockLegal legal) f.zero_le hf (State.lt_chans hc)
  · exact (s.voice_renderRange_eq (Nat.zero_le _) n).trans (if_pos h)
  · exact (s.voice_renderRange_eq (Nat.zero_le _) n).trans (if_neg (by simp [h]))

/-! ### The last event of a block -/

/-- The voices of a rendered block are those the last sub-range makes of the last event's. -/
theorem exists_lastEvent {s : State} (hr : Renderable s) {i : Nat} (hi : s.nev.toNat = i + 1) :
    ∃ (u : State) (a : Nat), SoundOnly s u ∧ a ≤ s.blen.toNat
      ∧ ∀ n, s.blockResult.voice n = ((u.applyWord (s.evq i)).renderRange a s.blen.toNat).voice n := by
  refine ⟨(s.turnsTo i).1.renderRange (s.turnsTo i).2 (evTs (s.evq i)).toNat, (evTs (s.evq i)).toNat,
    (along_turnsTo hr (by omega)).frame.trans (State.soundOnly_renderRange _ _ _), hr.ts_le_blen (by omega),
    fun n => ?_⟩
  rw [s.blockResult_eq, hi, s.turnsTo_succ]
  rfl

section
variable (s : State) {e : EventWord} {n : Fin 128} (hn : (evNote e).toNat = n.val)
include hn

theorem State.applyWord_noteOn (h : evType e = 0x01#8) : s.applyWord e = s.setFrequency n (noteToFreq s.cfg n) := by
  rw [State.applyWord, if_pos h, slotOf_eq hn]

theorem State.applyWord_noteOff (h : evType e = 0x02#8) : s.applyWord e = s.stop n := by
  rw [State.applyWord, if_neg (by rw [h]; decide), if_pos h, slotOf_eq hn]

end

/-- A sub-range writes no increment (R115). -/
theorem State.inc_renderRange (s : State) {a b : Nat} (hab : a ≤ b) (n : Fin 128) :
    ((s.renderRange a b).voice n).inc = (s.voice n).inc := by
  rw [s.voice_renderRange_eq hab]
  split <;> rfl

/-- A voice with increment +0.0 is not active (R117). -/
theorem State.isActive_of_stopped {s : State} {n : Fin 128} (h : s.voice n = ⟨posZero, posZero⟩) :
    s.isActive n = false := by
  rw [s.isActive_eq, h]
  decide

/-- Settles O20: the voice is what the second event leaves of it, and the last sub-range keeps a stopped voice and every
increment. -/
theorem equalTimestampsApplyInQueueOrder : Obligations.EqualTimestampsApplyInQueueOrder := by
  intro s g n hr hnev _ hn _
  obtain ⟨u, a, hu, ha, hvoice⟩ := exists_lastEvent hr (i := 1) (by rw [hnev]; rfl)
  refine ⟨fun _ hoff => ⟨_, exec_render_of_renderable hr g, ?_⟩, fun _ hon => ⟨_, exec_render_of_renderable hr g, ?_⟩⟩
  · have hstopped : (u.stop n).voice n = ⟨posZero, posZero⟩ := u.voice_setVoice_self n _
    rw [hvoice, u.applyWord_noteOff hn hoff, State.voice_renderRange_eq _ ha,
      if_neg (by simp [State.isActive_of_stopped hstopped])]
    exact hstopped
  · rw [hvoice, State.inc_renderRange _ ha, u.applyWord_noteOn hn hon, State.voice_setFrequency, hu.cfg, hu.sra]

end Sys2Proof.Machine
end

section
/-! Single events and the step that fetches one (O17, O18, O55). -/

namespace Sys2Proof.Machine

/-- `ALL_NOTES_OFF` reads no field of its event (R172). -/
theorem exec_allNotesOff (s : State) (note vel ign : BitVec 8) (ts : Word) :
    exec (.allNotesOff note vel ign ts) s = .next s.stopAll := rfl

/-- Settles O17: every slot is stopped, and a stopped voice is not active. -/
theorem allNotesOffStopsEveryVoice : Obligations.AllNotesOffStopsEveryVoice := by
  intro s note vel ign ts
  have honly : OnlyVoices s s.stopAll := by
    rw [s.stopAll_eq]
    exact ⟨rfl, fun _ => rfl⟩
  exact ⟨_, exec_allNotesOff s note vel ign ts,
    fun n => ⟨s.voice_stopAll n, State.isActive_of_stopped (s.voice_stopAll n)⟩, honly⟩

theorem slotOf_eq_none {note : BitVec 8} (h : 128 ≤ note.toNat) : slotOf note = none := dif_neg h.not_gt

/-- Settles O18: such a NOTE names no slot, and the fault is the first one. -/
theorem eventNoteOutOfRangeTakesItsFault : Obligations.EventNoteOutOfRangeTakesItsFault := by
  intro s note vel ign ts hnote noFault
  have hfault : s.raiseFault .invalidNote s.k = s.faulted .invalidNote s.k := State.raiseFault_first noFault _ _
  constructor
  · rw [exec, execNoteOn, slotOf_eq_none hnote, hfault]
  · rw [exec, execNoteOff, slotOf_eq_none hnote, hfault]

/-- With no move waiting, or a unit of work as the next move, a step is one unit of the sequencer's work. -/
theorem step_eq_unit {s : State} {rest : List Move} (h : s.moves = [] ∧ rest = [] ∨ s.moves = .work :: rest) :
    step s = (s.withMoves rest).unit := by
  rcases h with ⟨hm, rfl⟩ | hm
  · have hsame : s.withMoves [] = s := by rw [← hm]; rfl
    rw [hsame, step, hm]
  · rw [step, hm, State.popMove, hm]
    rfl

theorem State.eventAt_eq_ok {s : State} {i : Instr} (legal : eventFault s.blen.toNat s.cur (s.evq s.k) = none)
    (hd : decodeEvent (s.evq s.k) = .ok i) : s.eventAt = .ok i := by
  rw [State.eventAt, legal]
  simp only [hd]

theorem State.unit_of_event {s : State} {i : Instr} (rendering : s.mode = .rendering) (hk : s.k < s.nev.toNat)
    (hat : s.eventAt = .ok i) :
    s.unit = thenNext (exec i (s.renderRange s.cur i.ts.toNat)) fun t => .next (t.advance i.ts) := by
  rw [State.unit, rendering]
  simp only [hk, if_true, State.eventUnit, hat]

/-- Settles O55: the step is a unit of work, and the unit is the turn of the event it fetches. -/
theorem stepRunsTheFetchedEvent : Obligations.StepRunsTheFetchedEvent := by
  intro s i rest rendering hk hm legal hd
  rw [step_eq_unit hm]
  exact State.unit_of_event (s := s.withMoves rest) rendering hk (State.eventAt_eq_ok legal hd)

end Sys2Proof.Machine
end

section
/-! What a step does to the latched rate, `PREPARED` and the fault record (O13, O23, O28). `RecordEffect` lists the three
ways, and `step_recordEffect` says that every step but a reset ends in one of them; before it, that every step ends in a
next state at all. -/

namespace Sys2Proof.Machine

/-! ### Every step answers -/

theorem runCommand_answers (v : Word) (s : State) : ∃ t, runCommand v s = .next t := by
  unfold runCommand
  cases hd : decodeCmd v with
  | error e => exact ⟨_, rfl⟩
  | ok i =>
    rcases decodeCmd_ok hd with ⟨g, rfl⟩ | ⟨g, rfl⟩
    · exact ⟨_, exec_prepare s g⟩
    · cases hf : s.fault with
      | true => exact ⟨s, if_pos hf⟩
      | false => exact ⟨_, execRender_eq_work hf g⟩

theorem postCommand_answers (v : Word) (s : State) : ∃ t, postCommand v s = .next t := by
  unfold postCommand
  cases hd : decodeCmd v with
  | error e => exact ⟨_, rfl⟩
  | ok i => rcases decodeCmd_ok hd with ⟨g, rfl⟩ | ⟨g, rfl⟩ <;> exact ⟨_, rfl⟩

/-- A write answers when the command it may start does. -/
theorem hostWrite_answers {start : Word → State → Host.Outcome State Fault Refusal} {v : Word}
    (hstart : ∀ u, ∃ t, start v u = .next t) (s : State) (off : Word) (width : Nat) :
    ∃ t, s.hostWrite start off width v = .next t := by
  unfold State.hostWrite
  split
  · split_ifs
    · exact ⟨_, rfl⟩
    · exact hstart _
    · exact ⟨_, rfl⟩
  · exact ⟨_, rfl⟩

/-- Settles O13: a unit of work, a read and a reset answer by what they are, a write by the command it starts. -/
theorem everyStepAnswersANextState : Obligations.EveryStepAnswersANextState := by
  intro s
  unfold step
  split
  · exact ⟨_, s.unit_eq⟩
  · exact ⟨_, s.popMove.unit_eq⟩
  · exact ⟨_, rfl⟩
  · exact hostWrite_answers (runCommand_answers _) _ _ _
  · exact hostWrite_answers (postCommand_answers _) _ _ _
  · exact ⟨_, rfl⟩

/-! ### The record and what changes it -/

/-- What R206 names: the latched rate, `PREPARED` and the fault record. -/
structure Record where
  sra : Word
  prepared : Bool
  fault : Bool
  cause : Cause
  findex : BitVec 16

/-- The record of a state. -/
def State.record (s : State) : Record := ⟨s.sra, s.prepared, s.fault, s.cause, s.findex⟩

/-- The mixing stage and the events leave the record. -/
theorem SoundOnly.record {s t : State} (h : SoundOnly s t) : t.record = s.record := by
  unfold SoundOnly at h
  rw [h]
  rfl

/-- What can become of the record: a `PREPARE` succeeds, which happens only under the condition `now`; a fault is raised,
and then nothing but the fault record and MODE changes; or the record is kept. -/
inductive RecordEffect (now : Prop) (s : State) : State → Prop where
  | prepare (legal : sampleRateLegal s.sr = true) (h : now) : RecordEffect now s s.prepare
  | fault {c : Cause} {i : Nat} (hc : c ≠ .noFault) : RecordEffect now s (s.raiseFault c i)
  | kept {t : State} (h : t.record = s.record) : RecordEffect now s t

theorem RecordEffect.imp {now later : Prop} {s t : State} (h : RecordEffect now s t)
    (himp : sampleRateLegal s.sr = true → now → later) : RecordEffect later s t := by
  cases h with
  | prepare legal h => exact .prepare legal (himp legal h)
  | fault hc => exact .fault hc
  | kept h => exact .kept h

/-! ### The commands and the units -/

theorem decodeCmd_of_prepare {v : Word} (h : cmdOp v = 0x01#8) : decodeCmd v = .ok (.prepare (cmdIgnored v)) := if_pos h

theorem prepare_recordEffect {now : Prop} (s : State) (h : now) : RecordEffect now s s.prepare := by
  cases hr : sampleRateLegal s.sr with
  | true => exact .prepare hr h
  | false =>
    rw [State.prepare_illegal hr]
    exact .fault (by decide)

theorem beginRender_recordEffect (now : Prop) (s : State) : RecordEffect now s s.beginRender := by
  rcases s.beginRender_cases with ⟨c, i, hc, heq, -⟩ | ⟨-, -, -, heq⟩ <;> rw [heq]
  · exact .fault hc
  · exact .kept rfl

theorem eventWork_recordEffect (now : Prop) (s : State) : RecordEffect now s s.eventWork := by
  unfold State.eventWork
  cases hf : eventFault s.blen.toNat s.cur (s.evq s.k) with
  | some c =>
    have hev := eventFault_ofEvent hf
    exact .fault (by rintro rfl; cases hev)
  | none =>
    obtain ⟨u, hu, heq⟩ := s.turn_eq_advance
    simp only [heq]
    exact .kept hu.record

/-- A `RENDER` carried out whole is dropped, takes one fault before its first frame, or keeps the record (R160, R203). -/
theorem execRender_recordEffect {now : Prop} {s t : State} {g : BitVec 24} (h : execRender g s = .next t) :
    RecordEffect now s t := by
  cases hf : s.fault with
  | true =>
    have hdropped : execRender g s = .next s := if_pos hf
    cases hdropped.symm.trans h
    exact .kept rfl
  | false =>
    rcases s.beginRender_cases with ⟨c, i, hc, heq, -⟩ | ⟨hprep, hlegal, hevents, -⟩
    · cases (exec_render_of_fault hf heq g).symm.trans h
      rw [State.faulted, ← State.raiseFault_first hf]
      exact .fault hc
    · have hr : Renderable s := ⟨hf, hprep, hlegal, hevents⟩
      cases (exec_render_of_renderable hr g).symm.trans h
      exact .kept (soundOnly_lastRange hr).record

theorem work_recordEffect (s : State) : RecordEffect (s.mode = .preparing) s s.work := by
  unfold State.work
  cases hm : s.mode with
  | idle => exact .kept rfl
  | preparing => exact prepare_recordEffect s rfl
  | validating => exact beginRender_recordEffect _ s
  | rendering =>
    dsimp only
    split
    · exact eventWork_recordEffect _ s
    · exact .kept (s.soundOnly_renderRange _ _).record

theorem runCommand_recordEffect {s t : State} {v : Word} (h : runCommand v s = .next t) :
    RecordEffect (cmdOp v = 0x01#8) s t := by
  by_cases hprep : cmdOp v = 0x01#8
  · rw [runCommand, decodeCmd_of_prepare hprep] at h
    cases h
    exact prepare_recordEffect s hprep
  · by_cases hrender : cmdOp v = 0x02#8
    · rw [runCommand, decodeCmd_of_render hrender] at h
      exact execRender_recordEffect (g := cmdIgnored v) h
    · rw [runCommand, decodeCmd_of_illegal hprep hrender] at h
      cases h
      exact .fault (by decide)

theorem postCommand_recordEffect {now : Prop} {s t : State} {v : Word} (h : postCommand v s = .next t) :
    RecordEffect now s t := by
  unfold postCommand at h
  cases hd : decodeCmd v with
  | error e =>
    simp only [hd] at h
    cases h
    exact .fault (by decide)
  | ok i =>
    rcases decodeCmd_ok hd with ⟨g, rfl⟩ | ⟨g, rfl⟩ <;> simp only [hd] at h <;> cases h
    · exact .kept rfl
    · split <;> exact .kept rfl

/-! ### The step -/

/-- The state with its first move taken off and the access answered by r. -/
def State.taken (s : State) (r : Option Reply) : State := { s with moves := s.moves.tail, reply := r }

theorem State.taken_of_moves {s : State} {m : Move} {rest : List Move} (hm : s.moves = m :: rest) (r : Option Reply) :
    s.taken r = { s with moves := rest, reply := r } := by
  rw [State.taken, hm, List.tail_cons]

/-- A unit of work, with no move waiting or as the next move (R12, R239). -/
theorem step_work {s : State} (hm : s.moves = [] ∨ ∃ rest, s.moves = .work :: rest) :
    step s = .next (s.taken s.reply).work := by
  rcases hm with hm | ⟨rest, hm⟩
  · rw [step_eq_unit (.inl ⟨hm, rfl⟩), State.unit_eq, State.taken, hm]
    rfl
  · rw [step_eq_unit (.inr hm), State.unit_eq, State.taken_of_moves hm]
    rfl

/-- A host write starts its command at the idle block, or keeps the record. -/
theorem hostWrite_recordEffect {now : Prop} {start : Word → State → Host.Outcome State Fault Refusal} {s t : State}
    {off v : Word} {width : Nat} (hstart : ∀ u, start v u = .next t → RecordEffect now u t)
    (h : s.hostWrite start off width v = .next t) :
    ∃ r, RecordEffect (now ∧ s.mode = .idle ∧ off = offCmd ∧ width = 4) { s with reply := r } t := by
  rcases State.hostWrite_cases h with rfl | ⟨idle, hoff, hwidth, hs⟩ | ⟨-, e, -, -, rfl⟩
  · exact ⟨none, .kept rfl⟩
  · exact ⟨_, (hstart _ hs).imp fun _ hnow => ⟨hnow, idle, hoff, hwidth⟩⟩
  · refine ⟨none, .kept ?_⟩
    rw [State.writeElem_frame]
    rfl

/-- What a step that is no reset does to the record, once it has taken its move and answered its access. -/
theorem step_recordEffect {s t : State} (h : step s = .next t) (hreset : ¬ResetsNow s) :
    ∃ r, RecordEffect (PreparesNow s) (s.taken r) t := by
  have hwork (hm : s.moves = [] ∨ ∃ rest, s.moves = .work :: rest) :
      ∃ r, RecordEffect (PreparesNow s) (s.taken r) t := by
    cases (step_work hm).symm.trans h
    exact ⟨s.reply, (work_recordEffect _).imp fun legal preparing => ⟨legal, .inl ⟨preparing, hm⟩⟩⟩
  rcases step_cases h with ⟨hm, -⟩ | ⟨rest, hm, -⟩ | ⟨off, width, rest, -, rfl⟩ | ⟨off, width, v, rest, hm, hw⟩
    | ⟨off, width, v, rest, hm, hw⟩ | ⟨rest, hm, -⟩
  · exact hwork (.inl hm)
  · exact hwork (.inr ⟨rest, hm⟩)
  · exact ⟨none, .kept rfl⟩
  · obtain ⟨r, heff⟩ := hostWrite_recordEffect (fun _ => runCommand_recordEffect) hw
    refine ⟨r, ?_⟩
    rw [State.taken_of_moves hm]
    refine heff.imp fun legal ⟨hop, idle, hoff, hwidth⟩ => ⟨legal, .inr ⟨idle, v, rest, ?_, hop⟩⟩
    rw [hm, hoff, hwidth]
  · obtain ⟨r, heff⟩ := hostWrite_recordEffect (fun _ => postCommand_recordEffect (now := False)) hw
    refine ⟨r, ?_⟩
    rw [State.taken_of_moves hm]
    exact heff.imp fun _ hnow => hnow.1.elim
  · exact absurd ⟨rest, hm⟩ hreset

/-- A step under the condition of a successful `PREPARE` carries it out. -/
theorem step_of_preparesNow {s : State} (h : PreparesNow s) : ∃ r, step s = .next (s.taken r).prepare := by
  obtain ⟨-, ⟨preparing, hm⟩ | ⟨idle, v, rest, hm, hop⟩⟩ := h
  · refine ⟨s.reply, ?_⟩
    rw [step_work hm]
    exact congrArg _ (State.work_of_preparing preparing)
  · refine ⟨some ⟨0, false⟩, ?_⟩
    rw [step_written idle hm, runCommand, decodeCmd_of_prepare hop, State.taken_of_moves hm]
    rfl

/-! ### Recovery and precision -/

section
variable {s t : State} (h : step s = .next t)
include h

/-- The successful `PREPARE` latches `SR`, sets `PREPARED`, clears the fault and silences every voice (R144, R206). -/
theorem recovers_of_preparesNow (hnow : PreparesNow s) : t.sra = s.sr ∧ t.prepared = true ∧ t.fault = false
    ∧ ∀ n, t.voice n = ⟨0x00000000#32, 0x00000000#32⟩ := by
  obtain ⟨r, hstep⟩ := step_of_preparesNow hnow
  obtain ⟨legal, -⟩ := hnow
  cases hstep.symm.trans h
  rw [State.prepare_legal (s := s.taken r) legal]
  exact ⟨rfl, rfl, rfl, fun n => by simp [State.voice, Vector.get_eq_getElem, posZero]⟩

/-- Any other step but a reset keeps `SRA` and `PREPARED`, and a held fault with its cause and index: a fault raised over
it leaves it (R202). -/
theorem record_of_not_preparesNow (hreset : ¬ResetsNow s) (hnot : ¬PreparesNow s) : t.sra = s.sra
    ∧ t.prepared = s.prepared ∧ (s.fault = true → t.fault = true ∧ t.cause = s.cause ∧ t.findex = s.findex) := by
  obtain ⟨r, heff⟩ := step_recordEffect h hreset
  cases heff with
  | prepare legal hnow => exact absurd hnow hnot
  | fault hc =>
    refine ⟨State.raiseFault_sra _ _ _, State.raiseFault_prepared _ _ _, fun held => ?_⟩
    rw [State.raiseFault_held (s := s.taken r) held]
    exact ⟨held, rfl, rfl⟩
  | kept hrec =>
    exact ⟨congrArg Record.sra hrec, congrArg Record.prepared hrec, fun held =>
      ⟨(congrArg Record.fault hrec).trans held, congrArg Record.cause hrec, congrArg Record.findex hrec⟩⟩

end

/-- Settles O23: a step carries out a successful `PREPARE`, which sets `PREPARED`, or keeps what there was. -/
theorem onlyPrepareAndResetChangeRateAndRecover : Obligations.OnlyPrepareAndResetChangeRateAndRecover := by
  intro s t h hreset
  refine ⟨fun prepared => ?_, recovers_of_preparesNow h, record_of_not_preparesNow h hreset⟩
  by_cases hnow : PreparesNow s
  · obtain ⟨-, hset, -, -⟩ := recovers_of_preparesNow h hnow
    exact hset
  · obtain ⟨-, hkept, -⟩ := record_of_not_preparesNow h hreset hnow
    exact hkept.trans prepared

/-- Settles O28: of the effects on the record only a fault sets `FAULT`, and the first fault is what `raise Fault` writes. -/
theorem faultingStepWritesOnlyTheFaultRecord : Obligations.FaultingStepWritesOnlyTheFaultRecord := by
  intro s t h noFault faulted
  have hreset : ¬ResetsNow s := by
    rintro ⟨rest, hm⟩
    rw [step, hm] at h
    cases h
    cases faulted
  obtain ⟨r, heff⟩ := step_recordEffect h hreset
  cases heff with
  | prepare legal hnow =>
    rw [State.prepare_legal legal] at faulted
    cases faulted
  | fault hc =>
    rw [State.raiseFault_first (s := s.taken r) noFault]
    exact ⟨hc, rfl⟩
  | kept hrec =>
    have hkept : t.fault = s.fault := congrArg Record.fault hrec
    exact absurd (faulted.symm.trans (hkept.trans noFault)) (by decide)

end Sys2Proof.Machine
end

section
/-! Reset (O8) and the completion of every command (O58). Each unit of work either ends the command or, in the execution
pass, raises K, so the units left are bounded by the events left. -/

namespace Sys2Proof.Machine

/-! ### The state after reset -/

@[simp] theorem State.status_resetOf (c : Config) (e : Nat) (m : List Move) :
    (State.resetOf c e m).status = 0x00000000#32 := by
  simp [State.status, State.resetOf, State.busy, Cause.code]

@[simp] theorem State.voice_resetOf (c : Config) (e : Nat) (m : List Move) (n : Fin 128) :
    (State.resetOf c e m).voice n = ⟨posZero, posZero⟩ := by
  simp [State.voice, State.resetOf, Vector.get_eq_getElem]

/-- No byte has been written since the reset, so every one is a draw (I3). -/
@[simp] theorem State.readByte_resetOf (c : Config) (e : Nat) (m : List Move) (a : Nat) :
    (State.resetOf c e m).readByte a = Config.ramDraw e a := rfl

theorem step_reset {s : State} {rest : List Move} (hm : s.moves = .reset :: rest) :
    step s = .next (State.resetOf s.cfg (s.epoch + 1) rest) := by
  rw [step, hm, State.popMove, hm]
  rfl

/-- Settles O8: the step is `State.resetOf`, whose registers are the reset values as they stand. -/
theorem resetGivesEveryElementItsResetValue : Obligations.ResetGivesEveryElementItsResetValue := by
  intro s rest hm
  exact ⟨_, step_reset hm, rfl, rfl, rfl, rfl, rfl, State.status_resetOf _ _ _, rfl, rfl, rfl, rfl, rfl, rfl, rfl,
    State.voice_resetOf _ _ _, rfl, State.readByte_resetOf _ _ _, rfl⟩

/-! ### Every command completes -/

/-- A unit of work takes no move. -/
@[simp] theorem State.work_moves (s : State) : s.work.moves = s.moves :=
  (congrArg State.moves (s.work_withMoves s.moves) :)

/-- With no move waiting a run is the sequencer's work, a unit a step. -/
theorem core_run_no_moves (n : Nat) {s : State} (hm : s.moves = []) :
    Sys2Proof.core.run n s = .next (State.work^[n] s) := by
  induction n generalizing s with
  | zero => rfl
  | succ n ih =>
    have hstep : step s = .next s.work := by rw [step, hm]; exact s.unit_eq
    rw [core_run_succ hstep, ih (s.work_moves.trans hm), Function.iterate_succ_apply]

/-- The execution pass ends once each event left has had its unit, and the last sub-range its own. -/
theorem State.work_iterate_of_rendering {s : State} {count : Nat} (rendering : s.mode = .rendering)
    (hleft : s.nev.toNat ≤ s.k + count) : (State.work^[count + 1] s).mode = .idle := by
  induction count generalizing s with
  | zero =>
    rw [Function.iterate_one, State.work_of_end rendering (by omega)]
    rfl
  | succ count ih =>
    rw [Function.iterate_succ_apply]
    by_cases hmore : s.k < s.nev.toNat
    · rw [State.work_of_event rendering hmore]
      rcases (eventUnit_substeps rendering hmore s.eventUnit_eq).2 with idle | ⟨hmode, hk, hnev⟩
      · rw [State.work_iterate_of_idle idle, idle]
      · exact ih hmode (by rw [hk, hnev]; omega)
    · have idle : s.work.mode = .idle := by rw [State.work_of_end rendering hmore]; rfl
      rw [State.work_iterate_of_idle idle, idle]

/-- From any state the work of the command in progress is done after NEV + 2 units: one for the checks of a `RENDER`, one
an event, one for the last sub-range. -/
theorem State.work_iterate_mode (s : State) : (State.work^[s.nev.toNat + 2] s).mode = .idle := by
  cases hm : s.mode with
  | idle => rw [State.work_iterate_of_idle hm, hm]
  | preparing =>
    rw [Function.iterate_succ_apply, State.work_of_preparing hm, State.work_iterate_of_idle s.prepare_mode,
      State.prepare_mode]
  | validating =>
    rw [Function.iterate_succ_apply, State.work_of_validating hm]
    rcases s.beginRender_cases with ⟨c, i, -, heq, -⟩ | ⟨-, -, -, heq⟩ <;> rw [heq]
    · rw [State.work_iterate_of_idle (State.raiseFault_mode _ _ _), State.raiseFault_mode]
    · exact State.work_iterate_of_rendering (s := s.seqAt .rendering 0 0) rfl (Nat.le_add_left _ _)
  | rendering => exact State.work_iterate_of_rendering hm (by omega)

/-- Settles O58: with no move waiting the steps are the units of work, and NEV + 2 of them end every command. -/
theorem everyCommandCompletes : Obligations.EveryCommandCompletes := fun s hm =>
  ⟨_, _, Nat.le_refl _, core_run_no_moves _ hm, s.work_iterate_mode⟩

end Sys2Proof.Machine
end
